-- ==== Sys2Proof/Word.lean ====
section
/-! DEFINITION. The widths of the block (spec/00_scope.md section 5: ADDR_W = 16, DATA_W = 8, CMD_W = 40) and the
packed snapshot of spec/10_state.md R16. -/

namespace Sys2Proof

/-- A byte of the data lines, and an I/O port number (DATA_W, PORT_W). -/
abbrev Byte := BitVec 8

/-- An address of the external CPU's memory space, and a 16-bit operand of a command (ADDR_W). -/
abbrev Addr := BitVec 16

/-- A command word (R60). -/
abbrev CmdWord := BitVec 40

/-- The packed form of a snapshot (R16, R66). -/
abbrev Packed := BitVec 48

end Sys2Proof
end

