-- ==== Sys2Proof/Syntax.lean ====
section
/-! DEFINITION. The fourteen commands of spec/30_encoding.md R62, one constructor for each row of
spec/opcode_table.json, with the selectors of R63. -/

namespace Sys2Proof

/-- Which of a category's two ranges (R63): LOG = 0, BRK = 1. -/
inductive RangeKind where
  | log
  | brk
  deriving DecidableEq, Repr

/-- The six categories (R63), in the order of their numbers 0 to 5. -/
inductive Cat where
  | bus
  | memrd
  | memwr
  | iord
  | iowr
  | opfetch
  deriving DecidableEq, Repr

/-- The lines LINE_SET can write (R63, R103), in the order of their numbers 0 to 3. -/
inductive SetLine where
  | reset
  | int
  | nmi
  | ioack
  deriving DecidableEq, Repr

/-- A command of the block (R62). -/
inductive Instr where
  /-- R80 -/
  | acquire (bound : BitVec 16)
  /-- R81 -/
  | release
  /-- R93 -/
  | clkRun
  /-- R94 -/
  | clkStop
  /-- R95 -/
  | clkCycle (n : BitVec 16)
  /-- R96 -/
  | clkStep
  /-- R101 -/
  | sample
  /-- R140 -/
  | tick (bound : BitVec 16)
  /-- R116 -/
  | bdClassify (byte : Byte)
  /-- R117 -/
  | bdReset
  /-- R128. `start` and `last` are the operands `start` and `end`. -/
  | setRange (kind : RangeKind) (cat : Cat) (start last : BitVec 16)
  /-- R129 -/
  | clrRange (kind : RangeKind) (cat : Cat)
  /-- R155 -/
  | ioDispatch (bound : BitVec 16)
  /-- R103 -/
  | lineSet (line : SetLine) (value : Bool)
  deriving DecidableEq, Repr

end Sys2Proof
end

