-- ==== Sys2Proof/WellFormed.lean ====
section
/-! DEFINITION. The constraints on operands that the types of Syntax.lean do not already carry
(spec/30_encoding.md R62: the bounds of a port range; `cat <= 5`, the widths and the reserved fields hold by type). -/

namespace Sys2Proof

/-- IORD and IOWR, the categories whose ranges are 8 bits wide (R20). -/
def Cat.isPort : Cat → Bool
  | .iord | .iowr => true
  | .bus | .memrd | .memwr | .opfetch => false

/-- The bounds a range of the category can hold: for IORD and IOWR at most 0x00FF each (R62). -/
def Cat.admits (c : Cat) (start last : BitVec 16) : Bool :=
  !c.isPort || (decide (start ≤ 0x00FF#16) && decide (last ≤ 0x00FF#16))

/-- The command is one that some command word stands for (R62). -/
def Instr.wellFormed : Instr → Bool
  | .acquire _ => true
  | .release => true
  | .clkRun => true
  | .clkStop => true
  | .clkCycle _ => true
  | .clkStep => true
  | .sample => true
  | .tick _ => true
  | .bdClassify _ => true
  | .bdReset => true
  | .setRange _ cat start last => cat.admits start last
  | .clrRange _ _ => true
  | .ioDispatch _ => true
  | .lineSet _ _ => true

end Sys2Proof
end

