-- ==== Sys2Proof/Decode.lean ====
section
/-! DEFINITION. Decoding a command word (spec/30_encoding.md R60 to R64), the encoder written from the same table,
and the opcode map of R62 as data. -/

namespace Sys2Proof

/-- Why a word selects no command (R64). All of them are reported with the one code `Encoding`. -/
inductive DecodeError where
  /-- `op` is 0x0 or 0xF. -/
  | reservedOp
  /-- `sub`, or the part of it that must be 0, is not 0. -/
  | nonzeroSub
  /-- `a` is not 0 in a command that does not use it. -/
  | nonzeroA
  /-- `b`, or the part of it that must be 0, is not 0. -/
  | nonzeroB
  /-- `cat` is 6 or 7. -/
  | reservedCategory
  /-- A bound above 0x00FF in a SET_RANGE of category IORD or IOWR. -/
  | portBound
  deriving DecidableEq, Repr

/-- Field `op`, bits 39:36 (R60). -/
def CmdWord.op (w : CmdWord) : BitVec 4 := w.extractLsb' 36 4

/-- Field `sub`, bits 35:32 (R60). -/
def CmdWord.sub (w : CmdWord) : BitVec 4 := w.extractLsb' 32 4

/-- Field `a`, bits 31:16 (R60). -/
def CmdWord.a (w : CmdWord) : BitVec 16 := w.extractLsb' 16 16

/-- Field `b`, bits 15:0 (R60). -/
def CmdWord.b (w : CmdWord) : BitVec 16 := w.extractLsb' 0 16

/-- The word with the given fields (R60). -/
def CmdWord.ofFields (op sub : BitVec 4) (a b : BitVec 16) : CmdWord := op ++ sub ++ a ++ b

/-- `kind = sub[3]` (R61). -/
def RangeKind.ofSub (sub : BitVec 4) : RangeKind := if sub.getLsbD 3 then .brk else .log

/-- `cat = sub[2:0]`, 0 to 5 (R61, R63). -/
def Cat.ofSub (sub : BitVec 4) : Option Cat :=
  let n := sub.extractLsb' 0 3
  if n = 0#3 then some .bus
  else if n = 1#3 then some .memrd
  else if n = 2#3 then some .memwr
  else if n = 3#3 then some .iord
  else if n = 4#3 then some .iowr
  else if n = 5#3 then some .opfetch
  else none

/-- `line = sub[1:0]` (R61, R63). -/
def SetLine.ofSub (sub : BitVec 4) : SetLine :=
  let n := sub.extractLsb' 0 2
  if n = 0#2 then .reset else if n = 1#2 then .int else if n = 2#2 then .nmi else .ioack

/-- The answer, if the field that must be 0 is 0. -/
def needs (ok : Bool) (e : DecodeError) (r : Except DecodeError Instr) : Except DecodeError Instr :=
  if ok then r else .error e

/-- A command that uses `b` alone: `sub` and `a` must be 0. -/
def needsB (sub : BitVec 4) (a : BitVec 16) (i : Except DecodeError Instr) : Except DecodeError Instr :=
  needs (sub = 0#4) .nonzeroSub (needs (a = 0#16) .nonzeroA i)

/-- A command without operands: `sub`, `a` and `b` must be 0. -/
def needsNone (sub : BitVec 4) (a b : BitVec 16) (i : Instr) : Except DecodeError Instr :=
  needsB sub a (needs (b = 0#16) .nonzeroB (.ok i))

/-- The two range commands: `cat` must be 0 to 5. -/
def withCategory (sub : BitVec 4) (f : RangeKind → Cat → Except DecodeError Instr) : Except DecodeError Instr :=
  match Cat.ofSub sub with
  | none => .error .reservedCategory
  | some c => f (RangeKind.ofSub sub) c

/-- The command that a word's fields select, or why they select none (R62, R64). -/
def decodeFields (op sub : BitVec 4) (a b : BitVec 16) : Except DecodeError Instr :=
  if op = 0x1#4 then needsB sub a (.ok (.acquire b))
  else if op = 0x2#4 then needsNone sub a b .release
  else if op = 0x3#4 then needsNone sub a b .clkRun
  else if op = 0x4#4 then needsNone sub a b .clkStop
  else if op = 0x5#4 then needsB sub a (.ok (.clkCycle b))
  else if op = 0x6#4 then needsNone sub a b .clkStep
  else if op = 0x7#4 then needsNone sub a b .sample
  else if op = 0x8#4 then needsB sub a (.ok (.tick b))
  else if op = 0x9#4 then
    needsB sub a (needs (b.extractLsb' 8 8 = 0#8) .nonzeroB (.ok (.bdClassify (b.extractLsb' 0 8))))
  else if op = 0xA#4 then needsNone sub a b .bdReset
  else if op = 0xB#4 then
    withCategory sub fun k c => needs (c.admits a b) .portBound (.ok (.setRange k c a b))
  else if op = 0xC#4 then
    withCategory sub fun k c =>
      needs (a = 0#16) .nonzeroA (needs (b = 0#16) .nonzeroB (.ok (.clrRange k c)))
  else if op = 0xD#4 then needsB sub a (.ok (.ioDispatch b))
  else if op = 0xE#4 then
    needs (sub.extractLsb' 2 2 = 0#2) .nonzeroSub
      (needs (a = 0#16) .nonzeroA
        (needs (b.extractLsb' 1 15 = 0#15) .nonzeroB (.ok (.lineSet (SetLine.ofSub sub) (b.getLsbD 0)))))
  else .error .reservedOp

/-- The command a word selects (R62), or the reason it is refused with code `Encoding` (R64). -/
def decode (w : CmdWord) : Except DecodeError Instr :=
  decodeFields (CmdWord.op w) (CmdWord.sub w) (CmdWord.a w) (CmdWord.b w)

/-- The category's number (R63). -/
def Cat.number : Cat → BitVec 3
  | .bus => 0#3
  | .memrd => 1#3
  | .memwr => 2#3
  | .iord => 3#3
  | .iowr => 4#3
  | .opfetch => 5#3

/-- The kind's number (R63). -/
def RangeKind.number : RangeKind → BitVec 1
  | .log => 0#1
  | .brk => 1#1

/-- `sub` of the range commands, `kind*8 + cat`, which is also the register index of R20 (R63). -/
def rangeIndex (k : RangeKind) (c : Cat) : BitVec 4 := k.number ++ c.number

/-- The line's number (R63). -/
def SetLine.number : SetLine → BitVec 2
  | .reset => 0#2
  | .int => 1#2
  | .nmi => 2#2
  | .ioack => 3#2

/-- The word of a command, from the opcode map of R62. -/
def encode : Instr → CmdWord
  | .acquire bound => CmdWord.ofFields 0x1 0 0 bound
  | .release => CmdWord.ofFields 0x2 0 0 0
  | .clkRun => CmdWord.ofFields 0x3 0 0 0
  | .clkStop => CmdWord.ofFields 0x4 0 0 0
  | .clkCycle n => CmdWord.ofFields 0x5 0 0 n
  | .clkStep => CmdWord.ofFields 0x6 0 0 0
  | .sample => CmdWord.ofFields 0x7 0 0 0
  | .tick bound => CmdWord.ofFields 0x8 0 0 bound
  | .bdClassify byte => CmdWord.ofFields 0x9 0 0 (byte.setWidth 16)
  | .bdReset => CmdWord.ofFields 0xA 0 0 0
  | .setRange kind cat start last => CmdWord.ofFields 0xB (rangeIndex kind cat) start last
  | .clrRange kind cat => CmdWord.ofFields 0xC (rangeIndex kind cat) 0 0
  | .ioDispatch bound => CmdWord.ofFields 0xD 0 0 bound
  | .lineSet line value => CmdWord.ofFields 0xE (line.number.setWidth 4) 0 ((BitVec.ofBool value).setWidth 16)

/-- One row of the opcode map (R62). -/
structure OpcodeRow where
  mnemonic : String
  pattern : CmdWord
  mask : CmdWord
  deriving DecidableEq, Repr

/-- `(word and mask) = match` (R62). -/
def OpcodeRow.selects (r : OpcodeRow) (w : CmdWord) : Bool := w &&& r.mask == r.pattern

/-- The opcode map of R62, row by row: its columns mnemonic, match and mask. -/
def opcodeMap : List OpcodeRow :=
  [ ⟨"ACQUIRE", 0x1000000000, 0xFFFFFF0000⟩,
    ⟨"RELEASE", 0x2000000000, 0xFFFFFFFFFF⟩,
    ⟨"CLK_RUN", 0x3000000000, 0xFFFFFFFFFF⟩,
    ⟨"CLK_STOP", 0x4000000000, 0xFFFFFFFFFF⟩,
    ⟨"CLK_CYCLE", 0x5000000000, 0xFFFFFF0000⟩,
    ⟨"CLK_STEP", 0x6000000000, 0xFFFFFFFFFF⟩,
    ⟨"SAMPLE", 0x7000000000, 0xFFFFFFFFFF⟩,
    ⟨"TICK", 0x8000000000, 0xFFFFFF0000⟩,
    ⟨"BD_CLASSIFY", 0x9000000000, 0xFFFFFFFF00⟩,
    ⟨"BD_RESET", 0xA000000000, 0xFFFFFFFFFF⟩,
    ⟨"SET_RANGE", 0xB000000000, 0xF000000000⟩,
    ⟨"CLR_RANGE", 0xC000000000, 0xF0FFFFFFFF⟩,
    ⟨"IO_DISPATCH", 0xD000000000, 0xFFFFFF0000⟩,
    ⟨"LINE_SET", 0xE000000000, 0xFCFFFFFFFE⟩ ]

/-- The mnemonic of a command in the opcode map (R62). -/
def Instr.mnemonic : Instr → String
  | .acquire _ => "ACQUIRE"
  | .release => "RELEASE"
  | .clkRun => "CLK_RUN"
  | .clkStop => "CLK_STOP"
  | .clkCycle _ => "CLK_CYCLE"
  | .clkStep => "CLK_STEP"
  | .sample => "SAMPLE"
  | .tick _ => "TICK"
  | .bdClassify _ => "BD_CLASSIFY"
  | .bdReset => "BD_RESET"
  | .setRange _ _ _ _ => "SET_RANGE"
  | .clrRange _ _ => "CLR_RANGE"
  | .ioDispatch _ => "IO_DISPATCH"
  | .lineSet _ _ => "LINE_SET"

/-- The low `nbits` bits of `w` as a number, every bit above them 0. -/
def tableBits (nbits w : Nat) : Nat := w % 2 ^ nbits

/-- The command the decoder reads from a row of spec/opcode_table.json. A command is ONE word of 40 bits (R65),
handed to the command port whole, so no byte order enters; a number of more than 40 bits is no command (log 18). -/
def decodeTableWord (nbits w : Nat) : Option Instr :=
  if tableBits nbits w < 2 ^ 40 then
    match decode (BitVec.ofNat 40 (tableBits nbits w)) with
    | .ok i => some i
    | .error _ => none
  else none

end Sys2Proof
end

