-- ==== Sys2Proof/Config.lean ====
section
/-! DEFINITION. What lies outside the block and is fixed by none of its rules: the lines the environment owns
(spec/10_state.md R10, R14), one move of the environment (R12), the parameters the spec leaves OPEN
(spec/00_scope.md R6) and the free values. A constant declared without a body has no value that a proof could use. -/

namespace Sys2Proof

/-- The lines the external CPU and the board own, `env.*` of R10, as the block sees them. -/
structure CpuLines where
  m1 : Bool
  mreq : Bool
  iorq : Bool
  rd : Bool
  wr : Bool
  refresh : Bool
  halt : Bool
  interrupt : Bool
  nmi : Bool
  reset : Bool
  busack : Bool
  /-- The level of the free-running waveform. -/
  waveClk : Bool
  addr : Addr
  data : Byte
  deriving DecidableEq, Repr, Inhabited

/-- The latches of the supervisor's memory path, `mst.*` of R14. -/
structure MstLatches where
  addr : Addr
  mreq : Bool
  iorq : Bool
  rd : Bool
  wr : Bool
  /-- `mst.bank`, BANK_W = 8 bits as in the packed form (D44). -/
  bank : Byte
  deriving DecidableEq, Repr, Inhabited

/-- One move of the environment: an `EnvReact` step or a finite run of `EnvFree` steps (R12), given by what it
leaves. R12 restricts neither relation, so every value of this type is a possible move. -/
structure EnvMove where
  /-- The lines after the move. -/
  lines : CpuLines
  /-- The memory path's latches after the move ("free inputs", R14). -/
  mst : MstLatches
  /-- The bytes the external CPU stored to its memory during the move, oldest first. -/
  writes : List (Addr × Byte)
  /-- What the peripherals wrote to the input registers of their ports during the move (R26 (c)), oldest first. -/
  portIn : List (Byte × Byte)
  deriving DecidableEq, Repr, Inhabited

/-- FREE VALUE (log 1). The environment's moves after the last one listed in `World.reactions`. -/
opaque Config.envMove : Nat → EnvMove

/-- PARAMETER HAS_BANK, OPEN (R6, D44; log 12). -/
opaque Config.hasBank : Bool

/-- PARAMETER FREERUN_LOW_TICKS, OPEN (R6; log 20). No rule reads it. -/
opaque Config.freerunLowTicks : Nat

/-- PARAMETER FREERUN_HIGH_TICKS, "a one-tick high-time" (R6). No rule reads it. -/
def Config.freerunHighTicks : Nat := 1

/-- FREE VALUE (U6; log 14). The byte a memory access of the memory path moves when the supervisor does not own
the bus. -/
opaque Config.unownedByte : Nat → Byte

/-- FREE VALUE (R14, N12; log 14). What an access of the memory path leaves in its latches. -/
opaque Config.latchesAfterAccess : Nat → MstLatches

/-- FREE VALUE (R164, N13; log 16). The TICK commands that one call of the disassembler makes, each by its bound:
R164 gives neither their number nor their bounds. -/
opaque Config.disassemblerTicks : Nat → Addr → List (BitVec 16)

/-- FREE VALUE (R163, R29; log 16). What the trace loop takes the `halt` flag to be when its SAMPLE came back without a
snapshot. -/
opaque Config.unseenHalt : Nat → Bool

/-- FREE VALUE (R164, U12; log 16). The text one call of the disassembler returns. -/
opaque Config.disassemblerText : Nat → Addr → String

end Sys2Proof
end

