-- ==== Sys2Proof/Machine/State.lean ====
section
/-! DEFINITION. The state of the machine as plain data: the block's registers (spec/10_state.md R13 to R25), what the
block sees of the environment (R10, R14, R26), and the state after block reset (R30). INVENTORY.md lists every field
with its rule and its reset value. -/

namespace Sys2Proof.Machine

/-- "enum (Stopped, FreeRunning, SingleStep)", R19. -/
inductive ClockMode where
  | stopped
  | freeRunning
  | singleStep
  deriving DecidableEq, Repr

/-- "enum (CpuOwned, SupervisorOwned)", R18. -/
inductive Ownership where
  | cpuOwned
  | supervisorOwned
  deriving DecidableEq, Repr

/-- A direction register, R17: Input, the block does not drive the lines; Output, the supervisor side drives them. -/
inductive Dir where
  | input
  | output
  deriving DecidableEq, Repr

/-- A range register, R20: the pair `(start, end)`; `last` is its `end`. -/
structure Range (w : Nat) where
  start : BitVec w
  last : BitVec w
  deriving DecidableEq, Repr

/-- The six range registers of one kind (R20): 8 bits wide for IORD and IOWR, 16 for the others. -/
structure RangeBank where
  bus : Range 16
  memrd : Range 16
  memwr : Range 16
  iord : Range 8
  iowr : Range 8
  opfetch : Range 16
  deriving DecidableEq, Repr

/-- One bit for each category: the vectors `fired`, `log_hit`, `brk_hit` (R29, R105, R130). -/
structure CatFlags where
  bus : Bool
  memrd : Bool
  memwr : Bool
  iord : Bool
  iowr : Bool
  opfetch : Bool
  deriving DecidableEq, Repr

/-- A BusStatus (R16): fourteen flags, the address, the data byte and the bank index. -/
structure Status where
  clock : Bool
  m1 : Bool
  mreq : Bool
  iorq : Bool
  ioack : Bool
  rd : Bool
  wr : Bool
  refresh : Bool
  halt : Bool
  interrupt : Bool
  nmi : Bool
  reset : Bool
  busrq : Bool
  busack : Bool
  addr : Addr
  data : Byte
  bank : Byte
  deriving DecidableEq, Repr

/-- The registers of the block (R13, R17 to R20, R22 to R25). -/
structure Block where
  /-- `clk_out`, the level of the clock line outside FreeRunning. -/
  clkOut : Bool
  busrqOut : Bool
  ioackOut : Bool
  resetOut : Bool
  intOut : Bool
  nmiOut : Bool
  dataOut : Byte
  addrDir : Dir
  ctrlDir : Dir
  dataDir : Dir
  ownership : Ownership
  clockMode : ClockMode
  /-- `fault_code`, sticky; 0 = no fault (R25). -/
  faultCode : BitVec 4
  /-- `x[0]` to `x[5]`. -/
  logRanges : RangeBank
  /-- `x[8]` to `x[13]`. -/
  brkRanges : RangeBank
  prevRd : Bool
  prevWr : Bool
  bdPrev : Byte
  bdPrev2 : Byte
  lastStatus : Packed
  deriving DecidableEq, Repr

/-- A mapped port (R156, R157): its number, the register a read returns and the register a write goes to. -/
structure PortReg where
  num : Byte
  inReg : Byte
  outReg : Byte
  deriving DecidableEq, Repr

/-- The environment as the block sees it: the lines it owns, the memory path's latches, the external CPU's memory,
the ports behind the port map. `reactions` and `choices` are the model's own: the environment's coming moves, oldest
first, and the number of free values already taken from Config (log 1). -/
structure World where
  lines : CpuLines
  mst : MstLatches
  /-- The external CPU's memory space, by address, in the canonical form `Memory.wf` of Ops.lean. -/
  mem : List Host.Cell
  ports : List PortReg
  reactions : List EnvMove
  choices : Nat
  deriving DecidableEq, Repr

/-- The command whose unbounded wait is in progress, with what its end still needs (log 3). -/
inductive WaitJob where
  /-- ACQUIRE, waiting for `busack` (R80). -/
  | acquire
  /-- IO_DISPATCH, waiting for `iorq` to go (R155), with its snapshot. -/
  | ioDispatch (status : Status)
  /-- TICK in its DispatchIfIO state (R140), with its snapshot, its events and the detector's verdict. -/
  | tick (status : Status) (fired : CatFlags) (newInstr : Bool)
  deriving DecidableEq, Repr

/-- A wait in progress: its command and the toggles made so far, `k` of R92. -/
structure Waiting where
  job : WaitJob
  k : Nat
  deriving DecidableEq, Repr

/-- One act of the supervisor's side (R210). -/
inductive Input where
  /-- A word sent to the command port. -/
  | command (word : CmdWord)
  /-- Block reset, from outside the command port (R195). -/
  | blockReset
  /-- The memory path sets its latches (R14). -/
  | latches (mst : MstLatches)
  /-- `MemWrite(addr, 1, v)` (R160). -/
  | memWrite (addr : Addr) (v : Byte)
  /-- `MemRead(addr, 1)` (R160). -/
  | memRead (addr : Addr)
  deriving DecidableEq, Repr

/-- The result record of a command (R29). A field that the command does not return is `none`. -/
structure Result where
  code : BitVec 4
  status : Option Packed := none
  toggles : Option (BitVec 16) := none
  newInstr : Option Bool := none
  fired : Option (BitVec 6) := none
  logHit : Option (BitVec 6) := none
  brkHit : Option (BitVec 6) := none
  traceEmit : Option Bool := none
  breakHit : Option Bool := none
  ioDispatched : Option Bool := none
  deriving DecidableEq, Repr

/-- The whole machine. `inputs`, `waiting`, `result` and `memReply` are the model's own (logs 3, 4, 5). -/
structure State where
  block : Block
  world : World
  /-- The supervisor's coming acts, oldest first. -/
  inputs : List Input
  /-- The unbounded wait in progress, if the command running has one. -/
  waiting : Option Waiting
  /-- The result of the last command. -/
  result : Option Result
  /-- The byte the last MemRead returned. -/
  memReply : Option Byte
  deriving DecidableEq, Repr

/-- How the model itself can stop. Every fault of the spec is a result of the command (R175, R176) and so a next
state; what is left is the assertion of R102. -/
inductive Fault where
  /-- A partial sample, "must not happen in a correct implementation; treat as an assertion" (R102). Raised by
  nothing: `sample` is total and atomic. Safe. -/
  | sampleFault
  deriving DecidableEq, Repr

/-- What the model declines. The refusals of R177 are results of the hardware and so next states. -/
inductive Refusal where
  /-- A command that has no meaning yet; raised by an arm of `exec` only. Safe. -/
  | notModelled (mnemonic : String)
  deriving DecidableEq, Repr

/-- The unset state of the 16-bit range registers (R126, D24). -/
def Range.unset16 : Range 16 := ⟨0xFFFF, 0x0000⟩

/-- The unset state of the 8-bit range registers (R126, D24). -/
def Range.unset8 : Range 8 := ⟨0xFF, 0x00⟩

/-- The six registers of one kind after block reset (R30). -/
def RangeBank.unset : RangeBank :=
  { bus := Range.unset16, memrd := Range.unset16, memwr := Range.unset16,
    iord := Range.unset8, iowr := Range.unset8, opfetch := Range.unset16 }

/-- The block's registers after block reset (R30). `dataOut` and `lastStatus` are "unspecified" there:
DESIGN CHOICE 0, log 7. -/
def Block.reset : Block :=
  { clkOut := false, busrqOut := false, ioackOut := false, resetOut := false, intOut := false, nmiOut := false,
    dataOut := 0x00, addrDir := .input, ctrlDir := .input, dataDir := .input, ownership := .cpuOwned,
    clockMode := .stopped, faultCode := 0, logRanges := RangeBank.unset, brkRanges := RangeBank.unset,
    prevRd := false, prevWr := false, bdPrev := 0x00, bdPrev2 := 0x00, lastStatus := 0 }

/-- An environment at rest: no line asserted, nothing in memory. DESIGN CHOICE, log 8: the spec leaves all of it
free (R30). The one port listed is the one the source places, 0x81 (R48): DESIGN CHOICE, log 10. -/
def World.atRest : World :=
  { lines :=
      { m1 := false, mreq := false, iorq := false, rd := false, wr := false, refresh := false, halt := false,
        interrupt := false, nmi := false, reset := false, busack := false, waveClk := false, addr := 0, data := 0 },
    mst := { addr := 0, mreq := false, iorq := false, rd := false, wr := false, bank := 0 },
    mem := [], ports := [⟨0x81, 0x00, 0x00⟩], reactions := [], choices := 0 }

/-- The machine right after block reset (R30, R195), with no command given yet. -/
def State.reset : State :=
  { block := Block.reset, world := World.atRest, inputs := [], waiting := none, result := none, memReply := none }

end Sys2Proof.Machine
end

