-- ==== Sys2Proof/Machine/Operands.lean ====
section
/-! DEFINITION. What the commands take their values from: the constants of spec/00_scope.md section 5, the packed
form of a snapshot (R16, R66), the port of an address (R40), the range-register file (R20) and its comparison
(R125, R127), and the byte classes of the boundary detector (R67). -/

namespace Sys2Proof.Machine

/-- OPEN_BUS (R6, R156): what a port without a handler reads as. -/
def openBus : Byte := 0xFF

/-- DEFAULT_VECTOR (R6, R162). -/
def defaultVector : Addr := 0x0000

/-- JUMP_OPCODE (R6, R68). -/
def jumpOpcode : Byte := 0xC3

/-- RESET_CYCLES (R6, R162). -/
def resetCycles : BitVec 16 := 3

/-- The port of an I/O address, `addr[7:0]` (R40, R127). -/
def portOf (a : Addr) : Byte := a.extractLsb' 0 8

/-- The sixteen flag bits of the packed form, bit 15 first (R16). -/
def flagBits (s : Status) : BitVec 16 :=
  0#2 ++ BitVec.ofBool s.busack ++ BitVec.ofBool s.busrq ++ BitVec.ofBool s.reset ++ BitVec.ofBool s.nmi
    ++ BitVec.ofBool s.interrupt ++ BitVec.ofBool s.halt ++ BitVec.ofBool s.refresh ++ BitVec.ofBool s.wr
    ++ BitVec.ofBool s.rd ++ BitVec.ofBool s.ioack ++ BitVec.ofBool s.iorq ++ BitVec.ofBool s.mreq
    ++ BitVec.ofBool s.m1 ++ BitVec.ofBool s.clock

/-- The packed form of a snapshot: bank 47:40, data 39:32, addr 31:16, flags 15:0 (R16, R66). -/
def packStatus (s : Status) : Packed := s.bank ++ s.data ++ s.addr ++ flagBits s

/-- Bit `c` for category `c` (R66): BUS is bit 0, OPFETCH bit 5. -/
def packCats (f : CatFlags) : BitVec 6 :=
  BitVec.ofBool f.opfetch ++ BitVec.ofBool f.iowr ++ BitVec.ofBool f.iord ++ BitVec.ofBool f.memwr
    ++ BitVec.ofBool f.memrd ++ BitVec.ofBool f.bus

/-- `InRange(r, v)`: both ends included, unsigned, no wrap-around (R125). -/
def inRange {w : Nat} (r : Range w) (v : BitVec w) : Bool := decide (r.start ≤ v) && decide (v ≤ r.last)

/-- Whether the address lies in the bank's range of a category, compared as R127 says: the port for IORD and IOWR,
the whole address for the others. -/
def bankCovers (bank : RangeBank) (a : Addr) : Cat → Bool
  | .bus => inRange bank.bus a
  | .memrd => inRange bank.memrd a
  | .memwr => inRange bank.memwr a
  | .iord => inRange bank.iord (portOf a)
  | .iowr => inRange bank.iowr (portOf a)
  | .opfetch => inRange bank.opfetch a

/-- Write one register of a bank, both halves together (R45, R128); the 8-bit registers store bits 7:0. -/
def bankSet (bank : RangeBank) (c : Cat) (start last : BitVec 16) : RangeBank :=
  match c with
  | .bus => { bank with bus := ⟨start, last⟩ }
  | .memrd => { bank with memrd := ⟨start, last⟩ }
  | .memwr => { bank with memwr := ⟨start, last⟩ }
  | .iord => { bank with iord := ⟨start.extractLsb' 0 8, last.extractLsb' 0 8⟩ }
  | .iowr => { bank with iowr := ⟨start.extractLsb' 0 8, last.extractLsb' 0 8⟩ }
  | .opfetch => { bank with opfetch := ⟨start, last⟩ }

/-- Set one register of a bank back to the unset state (R126, R129). -/
def bankClear (bank : RangeBank) (c : Cat) : RangeBank :=
  match c with
  | .bus => { bank with bus := ⟨0xFFFF, 0x0000⟩ }
  | .memrd => { bank with memrd := ⟨0xFFFF, 0x0000⟩ }
  | .memwr => { bank with memwr := ⟨0xFFFF, 0x0000⟩ }
  | .iord => { bank with iord := ⟨0xFF, 0x00⟩ }
  | .iowr => { bank with iowr := ⟨0xFF, 0x00⟩ }
  | .opfetch => { bank with opfetch := ⟨0xFFFF, 0x0000⟩ }

/-- The bank of a kind: LOG `x[0..5]`, BRK `x[8..13]` (R20). -/
def bankOf (b : Block) : RangeKind → RangeBank
  | .log => b.logRanges
  | .brk => b.brkRanges

/-- Replace the bank of a kind. -/
def setBank (b : Block) (k : RangeKind) (bank : RangeBank) : Block :=
  match k with
  | .log => { b with logRanges := bank }
  | .brk => { b with brkRanges := bank }

/-- The five classes of an opcode-fetch byte (R67). -/
inductive ByteClass where
  | cb
  | dd
  | ed
  | fd
  | other
  deriving DecidableEq, Repr

/-- The class of a byte, by exact comparison with the four prefix bytes (R67). -/
def classOf (b : Byte) : ByteClass :=
  if b = 0xCB#8 then .cb
  else if b = 0xDD#8 then .dd
  else if b = 0xED#8 then .ed
  else if b = 0xFD#8 then .fd
  else .other

/-- The jump that the reset sequencer installs (R68): JUMP_OPCODE, then the target, low byte first (R42). -/
def jumpBytes (target : Addr) : List Byte := [jumpOpcode, target.extractLsb' 0 8, target.extractLsb' 8 8]

/-- The codes of the three registers that the spec gives as enumerations (R17 to R19). -/
def dirBits : Dir → BitVec 1
  | .input => 0
  | .output => 1

/-- R18. -/
def ownershipBits : Ownership → BitVec 1
  | .cpuOwned => 0
  | .supervisorOwned => 1

/-- R19; the value 3 is never held. -/
def clockModeBits : ClockMode → BitVec 2
  | .stopped => 0
  | .freeRunning => 1
  | .singleStep => 2

end Sys2Proof.Machine
end

