-- ==== Sys2Proof/Machine/Flags.lean ====
section
/-! DEFINITION. Everything a command computes as a flag or a code: the result codes (spec/60_exceptions.md R175),
the cycle kind and the events of a tick (spec/42_status_sampler.md R104 to R106), the comparator tree
(spec/44_watch_break.md R130 to R133) and the boundary verdict (spec/43_boundary_detector.md R115). -/

namespace Sys2Proof.Machine

/-- The conditions that `raise` names (R175, R179). -/
inductive BlockFault where
  | busAcquireTimeout
  | ioAckTimeout
  /-- Unreachable in a model (R102); its code is reserved (R44). -/
  | sampleFault
  deriving DecidableEq, Repr

/-- The fault's number, which is both its code and its `fault_code` (R175). -/
def faultNumber : BlockFault → BitVec 4
  | .busAcquireTimeout => 1
  | .ioAckTimeout => 2
  | .sampleFault => 3

/-- The reasons that `refuse` names (R175, R177). -/
inductive Reason where
  | faulted
  | encoding
  | mode
  | notIoCycle
  deriving DecidableEq, Repr

/-- The reason's code (R175). -/
def reasonCode : Reason → BitVec 4
  | .faulted => 4
  | .encoding => 5
  | .mode => 6
  | .notIoCycle => 7

/-- Code `OK` (R175). -/
def codeOk : BitVec 4 := 0

/-- The 16-bit `toggles` field, `min(k, 0xFFFF)` (R29, R135 (d)). -/
def togglesField (k : Nat) : BitVec 16 := BitVec.ofNat 16 (min k 0xFFFF)

/-- The kind of a cycle (R104). -/
inductive CycleKind where
  | mem
  | io
  | idle
  deriving DecidableEq, Repr

/-- `Kind(s)`: `mreq` before `iorq` (R104). -/
def kindOf (s : Status) : CycleKind :=
  if s.mreq then .mem else if s.iorq then .io else .idle

/-- `Classify(s, prev_rd, prev_wr)`: the events of a tick (R105, R106). -/
def firedBy (s : Status) (prevRd prevWr : Bool) : CatFlags :=
  let kind := kindOf s
  let rdEdge := s.rd && !prevRd
  let wrEdge := s.wr && !prevWr
  let memrd := kind == .mem && rdEdge
  { bus := true
    memrd := memrd
    memwr := kind == .mem && wrEdge
    iord := kind == .io && rdEdge
    iowr := kind == .io && wrEdge
    opfetch := memrd && s.m1 && !s.refresh }

/-- The specific categories' hits of one kind: fired and covered (R130); BUS is 0 here. -/
def specificHits (bank : RangeBank) (s : Status) (fired : CatFlags) : CatFlags :=
  { bus := false
    memrd := fired.memrd && bankCovers bank s.addr .memrd
    memwr := fired.memwr && bankCovers bank s.addr .memwr
    iord := fired.iord && bankCovers bank s.addr .iord
    iowr := fired.iowr && bankCovers bank s.addr .iowr
    opfetch := fired.opfetch && bankCovers bank s.addr .opfetch }

/-- `specific_log` of R130, and its like for the break hits: some category other than BUS. -/
def anySpecific (f : CatFlags) : Bool := f.memrd || f.memwr || f.iord || f.iowr || f.opfetch

/-- The log hits of a tick: BUS only when no specific category has logged (R130, R131). -/
def logHits (bank : RangeBank) (s : Status) (fired : CatFlags) : CatFlags :=
  let spec := specificHits bank s fired
  { spec with bus := !anySpecific spec && bankCovers bank s.addr .bus }

/-- The break hits of a tick: the BUS break is suppressed by nothing (R130, R131). -/
def brkHits (bank : RangeBank) (s : Status) (fired : CatFlags) : CatFlags :=
  { specificHits bank s fired with bus := bankCovers bank s.addr .bus }

/-- The or of the six bits: `trace_emit` of the log hits (R132), `break_hit` of the break hits (R133). -/
def anyHit (f : CatFlags) : Bool := anySpecific f || f.bus

/-- The verdict of the boundary detector, "new instruction" = true, from the byte classified and the two retained
bytes `p1` (previous) and `p2` (previous-previous) (R115). -/
def newInstruction (cur p1 p2 : Byte) : Bool :=
  if p1 = 0xCB#8 then p2 == 0xCB#8 || p2 == 0xDD#8 || p2 == 0xFD#8
  else if p1 = 0xED#8 then p2 == 0xCB#8
  else if p1 = 0xDD#8 ∨ p1 = 0xFD#8 then p2 == 0xCB#8 || cur == 0xDD#8 || cur == 0xED#8 || cur == 0xFD#8
  else true

end Sys2Proof.Machine
end

