-- ==== Sys2Proof/Machine/Ops.lean ====
section
/-! DEFINITION. The shared operations: the external CPU's memory (spec/20_memory.md R40), the port map
(spec/46_surrounding_interfaces.md R156), the environment's moves (spec/10_state.md R12), driving and reading lines
(R13, R15, R17), the clock primitives and the wait loop (spec/41_clock_generator.md R90 to R92), and the ways a
command ends (spec/60_exceptions.md R175 to R178). -/

namespace Sys2Proof.Machine

/-! ### The external CPU's memory, a list of cells in canonical form -/

/-- What an address that is not listed reads as. DESIGN CHOICE, log 9: the spec gives the memory no contents. -/
def Memory.unlisted : Byte := 0x00

/-- The byte at an address. -/
def Memory.get : List Host.Cell → Nat → Byte
  | [], _ => Memory.unlisted
  | (b, v) :: rest, a => if a = b then v else Memory.get rest a

/-- Store one byte, keeping the addresses rising and no cell equal to what an unlisted address reads as. -/
def Memory.put : List Host.Cell → Nat → Byte → List Host.Cell
  | [], a, v => if v = Memory.unlisted then [] else [(a, v)]
  | (b, u) :: rest, a, v =>
    if a < b then (if v = Memory.unlisted then (b, u) :: rest else (a, v) :: (b, u) :: rest)
    else if a = b then (if v = Memory.unlisted then rest else (a, v) :: rest)
    else (b, u) :: Memory.put rest a v

/-- The byte at an address of the memory space (R40). -/
def Memory.read (m : List Host.Cell) (a : Addr) : Byte := Memory.get m a.toNat

/-- Store one byte at an address of the memory space (R40). -/
def Memory.write (m : List Host.Cell) (a : Addr) (v : Byte) : List Host.Cell := Memory.put m a.toNat v

/-- Store bytes one after the other. -/
def Memory.store (m : List Host.Cell) : List (Addr × Byte) → List Host.Cell
  | [] => m
  | (a, v) :: rest => Memory.store (Memory.write m a v) rest

/-- The cells are at addresses from `lo` up, strictly rising, all below 2^16, none equal to the unlisted byte. -/
def Memory.wfFrom (lo : Nat) : List Host.Cell → Bool
  | [] => true
  | (a, v) :: rest =>
    decide (lo ≤ a) && decide (a < 65536) && !decide (v = Memory.unlisted) && Memory.wfFrom (a + 1) rest

/-- The canonical form. -/
def Memory.wf (m : List Host.Cell) : Bool := Memory.wfFrom 0 m

/-! ### The port map and its peripherals -/

/-- `PortRead(p)`: the mapped port's input register, OPEN_BUS for a port without a handler (R156, R157). -/
def portRead (ports : List PortReg) (p : Byte) : Byte :=
  match ports with
  | [] => openBus
  | r :: rest => if r.num = p then r.inReg else portRead rest p

/-- `PortWrite(p, v)`: the mapped port stores exactly `v`; discarded for a port without a handler (R156, R157). -/
def portWrite (ports : List PortReg) (p v : Byte) : List PortReg :=
  match ports with
  | [] => []
  | r :: rest => (if r.num = p then { r with outReg := v } else r) :: portWrite rest p v

/-- The peripherals' own side writes an input register (R26 (c), R157); nothing for a port without a handler. -/
def portReceive (ports : List PortReg) (p v : Byte) : List PortReg :=
  match ports with
  | [] => []
  | r :: rest => (if r.num = p then { r with inReg := v } else r) :: portReceive rest p v

/-- The peripherals' writes one after the other. -/
def portsReceive (ports : List PortReg) : List (Byte × Byte) → List PortReg
  | [] => ports
  | (p, v) :: rest => portsReceive (portReceive ports p v) rest

/-! ### The environment's moves -/

/-- What one move of the environment leaves. -/
def World.apply (w : World) (m : EnvMove) : World :=
  { w with
    lines := m.lines
    mst := m.mst
    mem := Memory.store w.mem m.writes
    ports := portsReceive w.ports m.portIn }

/-- One move of the environment: the oldest of `reactions`, and after the last of them a free one (R12; log 1). -/
def World.move (w : World) : World :=
  match w.reactions with
  | m :: rest => World.apply { w with reactions := rest } m
  | [] => World.apply { w with choices := w.choices + 1 } (Config.envMove w.choices)

/-- `n` moves of the environment, one after the other. -/
def World.moves : Nat → World → World
  | 0, w => w
  | n + 1, w => World.moves n (World.move w)

/-! ### Named updates of the state -/

/-- The state with other block registers. -/
def State.setBlock (s : State) (b : Block) : State := { s with block := b }

/-- The state after `n` moves of the environment. -/
def State.stir (s : State) (n : Nat) : State := { s with world := World.moves n s.world }

/-- The state with other ports. -/
def State.setPorts (s : State) (ports : List PortReg) : State := { s with world := { s.world with ports := ports } }

/-- The command returns its result record. -/
def State.answer (s : State) (r : Result) : State := { s with result := some r }

/-- The command is in an unbounded wait that the environment has not answered yet; it has returned nothing
(R82, U10; log 3). -/
def State.suspend (s : State) (w : Waiting) : State := { s with waiting := some w, result := none }

/-- The wait in progress is taken up again. -/
def State.unsuspend (s : State) : State := { s with waiting := none }

/-! ### Reactions of the environment -/

/-- `clock_mode = FreeRunning`. -/
def isFree (s : State) : Bool := decide (s.block.clockMode = .freeRunning)

/-- How many moves of the environment a micro-step of the block lets happen: one if it changed a line the block
drives; in FreeRunning mode one in any case, since the environment then takes any number of steps between two
micro-steps, and any number of steps leaves what some one move leaves (R12; log 2). -/
def stirs (changed : Bool) (s : State) : Nat := if changed || isFree s then 1 else 0

/-- The environment's answer to a micro-step (R12, R13). -/
def settle (changed : Bool) (s : State) : State := s.stir (stirs changed s)

/-! ### Lines -/

/-- The one-bit lines the block drives through an output register (R13). -/
inductive OutLine where
  | clock
  | busrq
  | ioack
  | reset
  | interrupt
  | nmi
  deriving DecidableEq, Repr

/-- The output register of a line (R13). -/
def outReg (b : Block) : OutLine → Bool
  | .clock => b.clkOut
  | .busrq => b.busrqOut
  | .ioack => b.ioackOut
  | .reset => b.resetOut
  | .interrupt => b.intOut
  | .nmi => b.nmiOut

/-- Write the output register of a line (R13). -/
def setOutReg (b : Block) (l : OutLine) (v : Bool) : Block :=
  match l with
  | .clock => { b with clkOut := v }
  | .busrq => { b with busrqOut := v }
  | .ioack => { b with ioackOut := v }
  | .reset => { b with resetOut := v }
  | .interrupt => { b with intOut := v }
  | .nmi => { b with nmiOut := v }

/-- `Drive(line, v)` (R13). -/
def drive (l : OutLine) (v : Bool) (s : State) : State :=
  settle (outReg s.block l != v) (s.setBlock (setOutReg s.block l v))

/-- `data_out <- v`: a change of the data lines only while `data_dir = Output` (R12, R13; log 15). -/
def driveData (v : Byte) (s : State) : State :=
  settle (decide (s.block.dataDir = .output) && s.block.dataOut != v) (s.setBlock { s.block with dataOut := v })

/-- The three groups of lines that have a direction (R17). -/
inductive LineGroup where
  | addr
  | ctrl
  | data
  deriving DecidableEq, Repr

/-- A direction register (R17). -/
def dirReg (b : Block) : LineGroup → Dir
  | .addr => b.addrDir
  | .ctrl => b.ctrlDir
  | .data => b.dataDir

/-- Write a direction register (R17). -/
def setDirReg (b : Block) (g : LineGroup) (d : Dir) : Block :=
  match g with
  | .addr => { b with addrDir := d }
  | .ctrl => { b with ctrlDir := d }
  | .data => { b with dataDir := d }

/-- `SetDir(group, d)` (R17). -/
def setDir (g : LineGroup) (d : Dir) (s : State) : State :=
  settle (!decide (dirReg s.block g = d)) (s.setBlock (setDirReg s.block g d))

/-- The fourteen one-bit signals (R10). -/
inductive Signal where
  | clock
  | m1
  | mreq
  | iorq
  | ioack
  | rd
  | wr
  | refresh
  | halt
  | interrupt
  | nmi
  | reset
  | busrq
  | busack
  deriving DecidableEq, Repr

/-- The supervisor side drives the control lines. The lines of the group, `mreq`, `iorq`, `rd` and `wr`, are the
spec's own reading (R10, G2; log 21). -/
def ctrlOut (s : State) : Bool := decide (s.block.ctrlDir = .output)

/-- `Line(name)` for a one-bit signal (R15). -/
def line (s : State) : Signal → Bool
  | .clock => if isFree s then s.world.lines.waveClk else s.block.clkOut
  | .m1 => s.world.lines.m1
  | .mreq => if ctrlOut s then s.world.mst.mreq else s.world.lines.mreq
  | .iorq => if ctrlOut s then s.world.mst.iorq else s.world.lines.iorq
  | .ioack => s.block.ioackOut
  | .rd => if ctrlOut s then s.world.mst.rd else s.world.lines.rd
  | .wr => if ctrlOut s then s.world.mst.wr else s.world.lines.wr
  | .refresh => s.world.lines.refresh
  | .halt => s.world.lines.halt
  | .interrupt => s.block.intOut || s.world.lines.interrupt
  | .nmi => s.block.nmiOut || s.world.lines.nmi
  | .reset => s.block.resetOut || s.world.lines.reset
  | .busrq => s.block.busrqOut
  | .busack => s.world.lines.busack

/-- `Line(addr)` (R15). -/
def lineAddr (s : State) : Addr :=
  if s.block.addrDir = .output then s.world.mst.addr else s.world.lines.addr

/-- `Line(data)` (R15). -/
def lineData (s : State) : Byte :=
  if s.block.dataDir = .output then s.block.dataOut else s.world.lines.data

/-- `Line(bank)` (R15, D44). -/
def lineBank (s : State) : Byte := if Config.hasBank then s.world.mst.bank else 0

/-- `Sample()`: every field is its line, all at one instant (R16, R100). -/
def sample (s : State) : Status :=
  { clock := line s .clock, m1 := line s .m1, mreq := line s .mreq, iorq := line s .iorq,
    ioack := line s .ioack, rd := line s .rd, wr := line s .wr, refresh := line s .refresh,
    halt := line s .halt, interrupt := line s .interrupt, nmi := line s .nmi, reset := line s .reset,
    busrq := line s .busrq, busack := line s .busack,
    addr := lineAddr s, data := lineData s, bank := lineBank s }

/-! ### How a command ends -/

/-- `refuse <Reason>`: the code and nothing else (R177). -/
def refuse (r : Reason) (s : State) : State := s.answer { code := reasonCode r }

/-- `raise <Fault>(info)`: `fault_code` and the result; everything else keeps its value (R176, R183). Taking a fault
is this one operation; there is no return from one but block reset (R184). -/
def raise (f : BlockFault) (k : Nat) (s : State) : State :=
  (s.setBlock { s.block with faultCode := faultNumber f }).answer
    { code := faultNumber f, toggles := some (togglesField k) }

/-- `return code = OK` for a command that returns nothing more. -/
def complete (s : State) : State := s.answer { code := codeOk }

/-- Every command's first line: `if fault_code != 0 then refuse Faulted` (R178). -/
def whenLive (body : State → State) (s : State) : Host.Outcome State Fault Refusal :=
  .next (if s.block.faultCode = 0 then body s else refuse .faulted s)

/-- The second test of the commands that make clock edges by software: `refuse Mode` in FreeRunning mode (R97). -/
def unlessFree (body : State → State) (s : State) : State := if isFree s then refuse .mode s else body s

/-! ### The clock -/

/-- `SetClk(v)`, used outside FreeRunning only (R90). -/
def setClk (v : Bool) (s : State) : State :=
  let s := drive .clock v s
  s.setBlock { s.block with clockMode := .singleStep }

/-- `ClockEdge()`: one inversion of the line; in FreeRunning the environment's free steps instead (R91, D14). -/
def clockEdge (s : State) : State := if isFree s then settle false s else setClk (!s.block.clkOut) s

/-- `n` clock edges. -/
def clockEdges : Nat → State → State
  | 0, s => s
  | n + 1, s => clockEdges n (clockEdge s)

/-- How a pass of the wait loop ends: `Done`, `Timeout`, or still waiting (log 3). -/
inductive WaitEnd where
  | done (k : Nat)
  | timeout (k : Nat)
  | running (k : Nat)
  deriving DecidableEq, Repr

/-- The loop of `WaitLoop(cond, bound)` from its `k`-th pass, for at most `fuel` more toggles (R92). -/
def waitLoop (cond : State → Bool) (bound : BitVec 16) : Nat → Nat → State → WaitEnd × State
  | fuel, k, s =>
    if cond s then (.done k, s)
    else if bound ≠ 0 ∧ k = bound.toNat then (.timeout k, s)
    else
      match fuel with
      | 0 => (.running k, s)
      | fuel + 1 => waitLoop cond bound fuel (k + 1) (clockEdge s)

/-- The toggles one model step may make: a bounded wait makes all of its own; an unbounded one uses up the listed
moves of the environment, and makes at least one toggle (log 3). -/
def waitFuel (bound : BitVec 16) (s : State) : Nat :=
  if bound = 0 then max 1 s.world.reactions.length else bound.toNat

/-- `WaitLoop(cond, bound)` from the toggle count `k` (R92). -/
def awaitLine (cond : State → Bool) (bound : BitVec 16) (k : Nat) (s : State) : WaitEnd × State :=
  waitLoop cond bound (waitFuel bound s) k s

end Sys2Proof.Machine
end

