-- ==== Sys2Proof/Machine/Arbiter.lean ====
section
/-! DEFINITION. The Bus Arbiter (spec/40_bus_arbiter.md): ACQUIRE (R80, R82, R83) and RELEASE (R81). -/

namespace Sys2Proof.Machine

/-- `Line(busack) = 1`, the condition of ACQUIRE's wait (R80). -/
def busackAsserted (s : State) : Bool := line s .busack

/-- ACQUIRE up to its wait: assert `busrq`, pulse `ioack` (R80, order O1 of R51). -/
def acquireRequest (s : State) : State := drive .ioack false (drive .ioack true (drive .busrq true s))

/-- ACQUIRE after its wait has been answered: the directions, then the ownership (R80). -/
def acquireGranted (k : Nat) (s : State) : State :=
  let s := setDir .data .input (setDir .addr .output (setDir .ctrl .output s))
  (s.setBlock { s.block with ownership := .supervisorOwned }).answer
    { code := codeOk, toggles := some (togglesField k) }

/-- ACQUIRE after a pass of its wait (R80, R82). -/
def acquireFinish : WaitEnd × State → State
  | (.done k, s) => acquireGranted k s
  | (.timeout k, s) => raise .busAcquireTimeout k s
  | (.running k, s) => s.suspend ⟨.acquire, k⟩

/-- ACQUIRE `bound` (R80). -/
def execAcquire (bound : BitVec 16) (s : State) : Host.Outcome State Fault Refusal :=
  whenLive (fun s => acquireFinish (awaitLine busackAsserted bound 0 (acquireRequest s))) s

/-- RELEASE's body: directions first, bus-request last, then the ownership (R81, order O2 of R51). -/
def releaseBus (s : State) : State :=
  let s := drive .busrq false (setDir .data .input (setDir .addr .input (setDir .ctrl .input s)))
  complete (s.setBlock { s.block with ownership := .cpuOwned })

/-- RELEASE (R81). -/
def execRelease (s : State) : Host.Outcome State Fault Refusal := whenLive releaseBus s

end Sys2Proof.Machine
end

