-- ==== Sys2Proof/Machine/Clock.lean ====
section
/-! DEFINITION. The Clock Generator (spec/41_clock_generator.md): CLK_RUN (R93), CLK_STOP (R94), CLK_CYCLE (R95) and
CLK_STEP (R96). -/

namespace Sys2Proof.Machine

/-- CLK_RUN (R93). The line passes to the waveform generator; from here the environment runs freely (log 2). -/
def execClkRun (s : State) : Host.Outcome State Fault Refusal :=
  whenLive (fun s => complete (s.setBlock { s.block with clockMode := .freeRunning })) s

/-- CLK_STOP's body: the generator is disabled first, then the line is parked low (R94, D42). -/
def stopClock (s : State) : State :=
  let stopped := s.setBlock { s.block with clockMode := .stopped }
  complete
    (if isFree s then settle true (stopped.setBlock { stopped.block with clkOut := false })
     else drive .clock false stopped)

/-- CLK_STOP (R94). -/
def execClkStop (s : State) : Host.Outcome State Fault Refusal := whenLive stopClock s

/-- `n` times a rising and a falling edge (R95). -/
def clockPairs : Nat → State → State
  | 0, s => s
  | n + 1, s => clockPairs n (setClk false (setClk true s))

/-- CLK_CYCLE `n` (R95, R97). -/
def execClkCycle (n : BitVec 16) (s : State) : Host.Outcome State Fault Refusal :=
  whenLive (unlessFree fun s => complete (clockPairs n.toNat (setClk false s))) s

/-- CLK_STEP (R96, R97). -/
def execClkStep (s : State) : Host.Outcome State Fault Refusal :=
  whenLive (unlessFree fun s => complete (setClk (!s.block.clkOut) s)) s

end Sys2Proof.Machine
end

