-- ==== Sys2Proof/Machine/RangeChecker.lean ====
section
/-! DEFINITION. The configuration commands of the Watch/Breakpoint range checker (spec/44_watch_break.md): SET_RANGE
(R128) and CLR_RANGE (R129). Its comparators are in Flags.lean (R130). -/

namespace Sys2Proof.Machine

/-- SET_RANGE `kind`, `cat`, `start`, `end` (R128). Bounds above 0xFF for a port category are refused, not truncated
(D25); the decoder never lets such a command through (R64). -/
def execSetRange (kind : RangeKind) (cat : Cat) (start last : BitVec 16) (s : State) :
    Host.Outcome State Fault Refusal :=
  whenLive
    (fun s =>
      if cat.admits start last then
        complete (s.setBlock (setBank s.block kind (bankSet (bankOf s.block kind) cat start last)))
      else refuse .encoding s)
    s

/-- CLR_RANGE `kind`, `cat` (R129). -/
def execClrRange (kind : RangeKind) (cat : Cat) (s : State) : Host.Outcome State Fault Refusal :=
  whenLive (fun s => complete (s.setBlock (setBank s.block kind (bankClear (bankOf s.block kind) cat)))) s

end Sys2Proof.Machine
end

