-- ==== Sys2Proof/Machine/Sampler.lean ====
section
/-! DEFINITION. The status sampler and LINE_SET (spec/42_status_sampler.md): SAMPLE (R101) and LINE_SET (R103). -/

namespace Sys2Proof.Machine

/-- SAMPLE (R101). -/
def execSample (s : State) : Host.Outcome State Fault Refusal :=
  whenLive
    (fun s =>
      let st := sample s
      (s.setBlock { s.block with lastStatus := packStatus st }).answer
        { code := codeOk, status := some (packStatus st) })
    s

/-- The output line behind an operand of LINE_SET (R103). -/
def outLineOf : SetLine → OutLine
  | .reset => .reset
  | .int => .interrupt
  | .nmi => .nmi
  | .ioack => .ioack

/-- LINE_SET `line`, `value` (R103). -/
def execLineSet (l : SetLine) (value : Bool) (s : State) : Host.Outcome State Fault Refusal :=
  whenLive (fun s => complete (drive (outLineOf l) value s)) s

end Sys2Proof.Machine
end

