-- ==== Sys2Proof/Machine/Boundary.lean ====
section
/-! DEFINITION. The Instruction-Boundary Detector (spec/43_boundary_detector.md): the update of the two retained
bytes (R115), BD_CLASSIFY (R116) and BD_RESET (R117). -/

namespace Sys2Proof.Machine

/-- The verdict of `BdClassify(cur)` with the retained bytes as they stand (R115). -/
def boundaryVerdict (cur : Byte) (b : Block) : Bool := newInstruction cur b.bdPrev b.bdPrev2

/-- The update of `BdClassify(cur)`, made whatever the verdict (R115). -/
def boundaryShift (cur : Byte) (b : Block) : Block := { b with bdPrev2 := b.bdPrev, bdPrev := cur }

/-- BD_CLASSIFY `byte` (R116). -/
def execBdClassify (byte : Byte) (s : State) : Host.Outcome State Fault Refusal :=
  whenLive
    (fun s =>
      (s.setBlock (boundaryShift byte s.block)).answer
        { code := codeOk, newInstr := some (boundaryVerdict byte s.block) })
    s

/-- BD_RESET (R117). -/
def execBdReset (s : State) : Host.Outcome State Fault Refusal :=
  whenLive (fun s => complete (s.setBlock { s.block with bdPrev := 0x00, bdPrev2 := 0x00 })) s

end Sys2Proof.Machine
end

