-- ==== Sys2Proof/Machine/IoHandshake.lean ====
section
/-! DEFINITION. The I/O dispatch handshake (spec/46_surrounding_interfaces.md R155, R158): `IoDispatch(s, bound)`,
which TICK calls too, and IO_DISPATCH. -/

namespace Sys2Proof.Machine

/-- `Line(iorq) = 0`, the condition of the dispatch wait (R155). -/
def iorqGone (s : State) : Bool := !line s .iorq

/-- The handler's part of `IoDispatch(s, bound)`: the read wins over the write, and with neither strobe no handler
runs (R155, D28). In FreeRunning mode the environment may have moved since the snapshot (R12). -/
def ioHandler (st : Status) (s : State) : State :=
  let s := settle false s
  if st.rd then setDir .data .output (driveData (portRead s.world.ports (portOf st.addr)) s)
  else if st.wr then s.setPorts (portWrite s.world.ports (portOf st.addr) st.data)
  else s

/-- `IoDispatch(s, bound)` up to its wait: the handler, then `ioack` (R155, order O3 of R51). -/
def ioOpen (st : Status) (s : State) : State := drive .ioack true (ioHandler st s)

/-- `IoDispatch(s, bound)` after its wait has been answered: the direction, then the acknowledge (R155, O3). -/
def ioClose (s : State) : State := drive .ioack false (setDir .data .input s)

/-- The end of a pass of the dispatch wait, for either command: `report` gives the result of a dispatch that was
answered after `k` toggles (R155, R158). -/
def ioFinish (job : WaitJob) (report : Nat → State → State) : WaitEnd × State → State
  | (.done k, s) => report k (ioClose s)
  | (.timeout k, s) => raise .ioAckTimeout k s
  | (.running k, s) => s.suspend ⟨job, k⟩

/-- The result of IO_DISPATCH (R29, R155). -/
def ioReport (st : Status) (k : Nat) (s : State) : State :=
  s.answer { code := codeOk, status := some (packStatus st), toggles := some (togglesField k) }

/-- IO_DISPATCH after a pass of its wait (R155). -/
def ioDispatchFinish (st : Status) : WaitEnd × State → State := ioFinish (.ioDispatch st) (ioReport st)

/-- IO_DISPATCH's body: it samples for itself, and refuses outside an I/O cycle after the write of `last_status`
(R155, R177, D29). -/
def ioDispatchBody (bound : BitVec 16) (s : State) : State :=
  let st := sample s
  let s := s.setBlock { s.block with lastStatus := packStatus st }
  if st.iorq && !st.mreq then ioDispatchFinish st (awaitLine iorqGone bound 0 (ioOpen st s))
  else refuse .notIoCycle s

/-- IO_DISPATCH `bound` (R155). -/
def execIoDispatch (bound : BitVec 16) (s : State) : Host.Outcome State Fault Refusal :=
  whenLive (ioDispatchBody bound) s

end Sys2Proof.Machine
end

