-- ==== Sys2Proof/Machine/TickEngine.lean ====
section
/-! DEFINITION. The Bus-Cycle Tick Engine (spec/45_tick_engine.md): TICK (R140 to R147). -/

namespace Sys2Proof.Machine

/-- ClassifyCycle's writes, with SampleStatus's `last_status`: the strobes as seen, and the detector's bytes when
OPFETCH fires (R140, R22, R119). -/
def recordCycle (st : Status) (fired : CatFlags) (b : Block) : Block :=
  let b := { b with lastStatus := packStatus st, prevRd := st.rd, prevWr := st.wr }
  if fired.opfetch then boundaryShift st.data b else b

/-- ApplyWatchBreak and the result of a tick, from its snapshot and its events and the range registers as they
stand (R130, R140, R144). -/
def tickReport (st : Status) (fired : CatFlags) (newInstr dispatched : Bool) (k : Nat) (s : State) : State :=
  let logHit := logHits s.block.logRanges st fired
  let brkHit := brkHits s.block.brkRanges st fired
  s.answer
    { code := codeOk
      status := some (packStatus st)
      toggles := some (togglesField k)
      newInstr := some newInstr
      fired := some (packCats fired)
      logHit := some (packCats logHit)
      brkHit := some (packCats brkHit)
      traceEmit := some (anyHit logHit)
      breakHit := some (anyHit brkHit)
      ioDispatched := some dispatched }

/-- A tick after a pass of its dispatch wait (R140). -/
def tickFinish (st : Status) (fired : CatFlags) (newInstr : Bool) : WaitEnd × State → State :=
  ioFinish (.tick st fired newInstr) (tickReport st fired newInstr true)

/-- The six states of a tick, in their fixed order (R140, R141). -/
def tickBody (bound : BitVec 16) (s : State) : State :=
  let s := setClk true (setClk false s)
  let st := sample s
  let fired := firedBy st s.block.prevRd s.block.prevWr
  let newInstr := fired.opfetch && boundaryVerdict st.data s.block
  let s := s.setBlock (recordCycle st fired s.block)
  if kindOf st = .io then tickFinish st fired newInstr (awaitLine iorqGone bound 0 (ioOpen st s))
  else tickReport st fired newInstr false 0 s

/-- TICK `bound` (R140). -/
def execTick (bound : BitVec 16) (s : State) : Host.Outcome State Fault Refusal :=
  whenLive (unlessFree (tickBody bound)) s

end Sys2Proof.Machine
end

