-- ==== Sys2Proof/Machine/Dispatch.lean ====
section
/-! DEFINITION. The meaning of each command, one arm each. -/

namespace Sys2Proof.Machine

def exec (i : Instr) (s : State) : Host.Outcome State Fault Refusal :=
  match i with
  | .acquire bound => Sys2Proof.Machine.execAcquire bound s
  | .release => Sys2Proof.Machine.execRelease s
  | .clkRun => Sys2Proof.Machine.execClkRun s
  | .clkStop => Sys2Proof.Machine.execClkStop s
  | .clkCycle n => Sys2Proof.Machine.execClkCycle n s
  | .clkStep => Sys2Proof.Machine.execClkStep s
  | .sample => Sys2Proof.Machine.execSample s
  | .tick bound => Sys2Proof.Machine.execTick bound s
  | .bdClassify byte => Sys2Proof.Machine.execBdClassify byte s
  | .bdReset => Sys2Proof.Machine.execBdReset s
  | .setRange kind cat start last => Sys2Proof.Machine.execSetRange kind cat start last s
  | .clrRange kind cat => Sys2Proof.Machine.execClrRange kind cat s
  | .ioDispatch bound => Sys2Proof.Machine.execIoDispatch bound s
  | .lineSet l value => Sys2Proof.Machine.execLineSet l value s

end Sys2Proof.Machine
end

