-- ==== Sys2Proof/Machine/Inputs.lean ====
section
/-! DEFINITION. What happens around a command: the supervisor's acts reach the block one at a time
(spec/70_reset_and_hazards.md R210), an unbounded wait goes on, block reset is applied from outside (R195), and the
memory path makes its accesses (spec/46_surrounding_interfaces.md R160). -/

namespace Sys2Proof.Machine

/-- The oldest act is taken; in FreeRunning mode the environment has run meanwhile (R12). -/
def takeInput (s : State) : State := settle false { s with inputs := s.inputs.tail }

/-- No command runs and none is sent: the block is idle (R21); in FreeRunning mode the environment runs (R12). -/
def idle (s : State) : State := settle false s

/-- A word that selects no command: `refuse Faulted` on a faulted block, else `refuse Encoding` (R64, R178, R182). -/
def refuseWord (s : State) : State :=
  if s.block.faultCode = 0 then refuse .encoding s else refuse .faulted s

/-- The wait in progress makes its next toggles; its command ends if the environment answers (R92; log 3). Only a
wait without a bound is ever in progress between two steps. -/
def resumeWait (w : Waiting) (s : State) : State :=
  let s := s.unsuspend
  match w.job with
  | .acquire => acquireFinish (awaitLine busackAsserted 0 w.k s)
  | .ioDispatch st => ioDispatchFinish st (awaitLine iorqGone 0 w.k s)
  | .tick st fired newInstr => tickFinish st fired newInstr (awaitLine iorqGone 0 w.k s)

/-- Block reset changes a line that the block drives, or takes the clock line from the waveform generator. -/
def resetMovesLines (b : Block) : Bool :=
  b.clkOut || b.busrqOut || b.ioackOut || b.resetOut || b.intOut || b.nmiOut
    || decide (b.addrDir = .output) || decide (b.ctrlDir = .output) || decide (b.dataDir = .output)
    || decide (b.clockMode = .freeRunning)

/-- Block reset: the table of R30 in every register, no result pending. The environment is not reset; it reacts if a
line changed (R12, R195; log 13). -/
def blockReset (s : State) : State :=
  settle (resetMovesLines s.block) { s with block := Block.reset, waiting := none, result := none }

/-- The supervisor owns the bus (R160). -/
def ownsBus (s : State) : Bool := decide (s.block.ownership = .supervisorOwned)

/-- What an access of the memory path leaves of the world beside its byte: its latches, which the spec does not
give (N12; log 14). -/
def afterAccess (w : World) : World :=
  { w with mst := Config.latchesAfterAccess w.choices, choices := w.choices + 1 }

/-- `MemWrite(addr, 1, v)`: the memory holds `v` at `addr` (R160); without ownership that byte is free (U6). -/
def memWrite (a : Addr) (v : Byte) (s : State) : State :=
  let byte := if ownsBus s then v else Config.unownedByte s.world.choices
  { s with world := afterAccess { s.world with mem := Memory.write s.world.mem a byte } }

/-- `MemRead(addr, 1)`: the byte at `addr` (R160); without ownership the reply is free (U6). -/
def memRead (a : Addr) (s : State) : State :=
  let byte := if ownsBus s then Memory.read s.world.mem a else Config.unownedByte s.world.choices
  { s with world := afterAccess s.world, memReply := some byte }

/-- The memory path sets its latches (R14). -/
def setLatches (m : MstLatches) (s : State) : State := { s with world := { s.world with mst := m } }

/-- The command word of a row of the opcode table, as `Step.lean` puts it at the command port. -/
def tableWord (nbits w : Nat) : CmdWord := BitVec.ofNat 40 (tableBits nbits w)

end Sys2Proof.Machine
end

