-- ==== Sys2Proof/Machine/Step.lean ====
section
/-! DEFINITION. One step of the machine: the wait in progress goes on, or the supervisor's next act is carried out,
or the block is idle. A command that meets no unanswered wait is one step (spec/10_state.md R21). -/

namespace Sys2Proof.Machine

/-- One step. -/
def step (s : State) : Host.Outcome State Fault Refusal :=
  match s.waiting with
  | some w => .next (resumeWait w s)
  | none =>
    match s.inputs with
    | [] => .next (idle s)
    | .command word :: _ =>
      match decode word with
      | .error _ => .next (refuseWord (takeInput s))
      | .ok i => exec i (takeInput s)
    | .blockReset :: _ => .next (blockReset (takeInput s))
    | .latches m :: _ => .next (setLatches m (takeInput s))
    | .memWrite a v :: _ => .next (memWrite a v (takeInput s))
    | .memRead a :: _ => .next (memRead a (takeInput s))

/-- The command word of a row of spec/opcode_table.json, sent to the command port before all else (log 4). -/
def State.withFetchWord (s : State) (nbits w : Nat) : State :=
  { s with inputs := .command (tableWord nbits w) :: s.inputs, waiting := none }

end Sys2Proof.Machine
end

