-- ==== Sys2Proof/Machine/Pseudo.lean ====
section
/-! DEFINITION. The supervisor's pseudo-instructions (spec/30_encoding.md R70), which have no encoding of their own:
IOACK_PULSE (R161), CPU_RESET (R162), MEM_WRITE and MEM_READ (R160) as acts of the supervisor, and the loop TRACE
(R163). They are built from command words and the memory path and add nothing to the block. -/

namespace Sys2Proof.Machine

/-- A command, as the supervisor sends it. -/
def sendCommand (i : Instr) : Input := .command (encode i)

/-- IOACK_PULSE (R161). -/
def ioackPulse : List Input := [sendCommand (.lineSet .ioack true), sendCommand (.lineSet .ioack false)]

/-- The jump's bytes at addresses 0x0000, 0x0001, 0x0002 (R68, R162). -/
def installJump (target : Addr) : List Input :=
  (List.zip [0x0000#16, 0x0001#16, 0x0002#16] (jumpBytes target)).map fun p => .memWrite p.1 p.2

/-- CPU_RESET `target` (R162, order O4 of R51). The caller holds the bus when `target` is not the default vector. -/
def cpuReset (target : Addr) : List Input :=
  (if target = defaultVector then [] else installJump target)
    ++ [sendCommand (.lineSet .reset true), sendCommand (.clkCycle resetCycles), sendCommand (.lineSet .reset false)]
    ++ ioackPulse

/-- MEM_WRITE `addr`, `byte` (R70, R160). -/
def memWriteAct (a : Addr) (v : Byte) : List Input := [.memWrite a v]

/-- MEM_READ `addr` (R70, R160). -/
def memReadAct (a : Addr) : List Input := [.memRead a]

/-- The state with these acts before all else. -/
def State.withActs (s : State) (acts : List Input) : State := { s with inputs := acts ++ s.inputs }

/-- What the trace loop puts out (R132, R163). -/
inductive TraceOutput where
  /-- The trace record of a tick: the snapshot, and the log hits that selected it. -/
  | record (status : Packed) (logHit : BitVec 6)
  /-- The disassembler's text, on a new line or not. -/
  | echo (text : String) (newLine : Bool)
  deriving DecidableEq, Repr

/-- Where the trace loop stands between two commands (R163). -/
inductive TracePhase where
  /-- Before the SAMPLE that reads `halt`. -/
  | testing
  /-- TICK 0 has been sent. -/
  | ticking
  /-- Inside the disassembler, which still makes a TICK for each bound of `left` (R164); the echo it ends with, if
  any. -/
  | disassembling (left : List (BitVec 16)) (echo : Option TraceOutput)
  deriving DecidableEq, Repr

/-- The variables of the trace loop (R163); `count` is a natural number (D36). -/
structure Trace where
  limit : Nat
  count : Nat
  brk : Bool
  phase : TracePhase
  /-- What has been put out, oldest first. -/
  output : List TraceOutput
  deriving DecidableEq, Repr

/-- TRACE `limit` at its start. -/
def Trace.start (limit : Nat) : Trace :=
  { limit := limit, count := 0, brk := false, phase := .testing, output := [] }

/-- The termination reasons that hold, all of them (D35). -/
structure TraceReasons where
  halt : Bool
  limit : Bool
  brk : Bool
  deriving DecidableEq, Repr

/-- After one act of the trace loop. It can be ended by its three conditions only (R207, U14). -/
inductive TraceOutcome where
  /-- The loop goes on. -/
  | goOn (t : Trace) (s : State)
  /-- The loop has ended for these reasons. -/
  | ended (t : Trace) (reasons : TraceReasons) (s : State)
  /-- The model itself stopped with a Fault or a Refusal, which `step` never answers (log 6). -/
  | stopped
  deriving DecidableEq, Repr

/-- Send one command and carry on with the state it leaves. -/
def issue (i : Instr) (s : State) (f : State → TraceOutcome) : TraceOutcome :=
  match step (s.withActs [sendCommand i]) with
  | .next t => f t
  | .fault _ => .stopped
  | .refused _ => .stopped

/-- A wait of the command sent is in progress: it goes on. -/
def pursue (s : State) (f : State → TraceOutcome) : TraceOutcome :=
  match step s with
  | .next t => f t
  | .fault _ => .stopped
  | .refused _ => .stopped

/-- The snapshot of a SAMPLE or a TICK that came back with code OK (R29). -/
def okStatus (r : Result) : Option Packed := if r.code = codeOk then r.status else none

/-- The head of the loop after its SAMPLE, with the `halt` flag that it saw: the three tests; if none holds, the tick,
which is TICK 0 (R163, C3, C9, C13). -/
def traceSampled (t : Trace) (halted : Bool) (s : State) : TraceOutcome :=
  let reached := decide (t.limit ≠ 0 ∧ t.limit ≤ t.count)
  if halted || reached || t.brk then .ended t ⟨halted, reached, t.brk⟩ s
  else issue (.tick 0) s fun s => .goOn { t with phase := .ticking } s

/-- The head of the loop (R163): `halt` is bit 8 of the snapshot. A SAMPLE that was refused has none, and does not end
the loop (R207): the flag is then a free value. DESIGN CHOICE, log 16. -/
def traceTest (t : Trace) (s : State) : TraceOutcome :=
  issue .sample s fun s =>
    match s.result with
    | none => .goOn t s
    | some r =>
      match okStatus r with
      | some st => traceSampled t (st.getLsbD 8) s
      | none =>
        let c := s.world.choices
        traceSampled t (Config.unseenHalt c) { s with world := { s.world with choices := c + 1 } }

/-- The body of the loop after its tick came back OK with the snapshot `st`: the break flag, the trace record, the
count and the disassembler (R163). Such a tick returns every field (R144), so no default here is ever used. -/
def traceReport (t : Trace) (st : Packed) (r : Result) (s : State) : TraceOutcome :=
  let logHit := r.logHit.getD 0
  let t :=
    { t with
      brk := r.breakHit.getD false
      output := t.output ++ (if r.traceEmit.getD false then [TraceOutput.record st logHit] else []) }
  if (r.fired.getD 0).getLsbD 5 then
    let a := st.extractLsb' 16 16
    let c := s.world.choices
    let echo :=
      if logHit.getLsbD 5 then some (TraceOutput.echo (Config.disassemblerText c a) (r.newInstr.getD false))
      else none
    .goOn { t with count := t.count + 1, phase := .disassembling (Config.disassemblerTicks c a) echo }
      { s with world := { s.world with choices := c + 1 } }
  else .goOn { t with phase := .testing } s

/-- The body of the loop after its tick (R163). A tick that was refused has classified nothing (R177), so it is no
break and no opcode fetch, asks for no record, and does not end the loop (R207). DEDUCED, log 16. -/
def traceTicked (t : Trace) (s : State) : TraceOutcome :=
  match s.result with
  | none => .goOn t s
  | some r =>
    match okStatus r with
    | some st => traceReport t st r s
    | none => .goOn { t with brk := false, phase := .testing } s

/-- One act of the trace loop (R163, R164). DESIGN CHOICE, log 16: the bounds of the disassembler's ticks, which R164
and N13 leave open, are free values; such a tick may fault, and the loop then goes on over a faulted block. -/
def traceStep (t : Trace) (s : State) : TraceOutcome :=
  if s.waiting.isSome then pursue s fun s => .goOn t s
  else
    match t.phase with
    | .testing => traceTest t s
    | .ticking => traceTicked t s
    | .disassembling [] echo => .goOn { t with phase := .testing, output := t.output ++ echo.toList } s
    | .disassembling (bound :: rest) echo =>
      issue (.tick bound) s fun s => .goOn { t with phase := .disassembling rest echo } s

/-- At most `n` acts of the trace loop. -/
def traceRun : Nat → Trace → State → TraceOutcome
  | 0, t, s => .goOn t s
  | n + 1, t, s =>
    match traceStep t s with
    | .goOn t s => traceRun n t s
    | .ended t r s => .ended t r s
    | .stopped => .stopped

end Sys2Proof.Machine
end

