-- ==== Sys2Proof/Safety.lean ====
section
/-! DEFINITION. The terms that claims use: when a command runs, the invariants of spec/10_state.md R27, the
hard-wired facts about codes and memory, and the named premises about the environment (R28). -/

namespace Sys2Proof.Machine

/-- No fault is pending, so commands are carried out (R178). -/
def Live (s : State) : Prop := s.block.faultCode = 0

/-- I1 of R27: the address and control directions track the ownership. -/
def DirectionsTrackOwnership (b : Block) : Prop :=
  b.addrDir = (match b.ownership with | .supervisorOwned => .output | .cpuOwned => .input) ∧
  b.ctrlDir = (match b.ownership with | .supervisorOwned => .output | .cpuOwned => .input)

/-- I2 of R27. -/
def DataIsInput (b : Block) : Prop := b.dataDir = .input

/-- I3 of R27. -/
def RequestTracksOwnership (b : Block) : Prop := b.busrqOut = true ↔ b.ownership = .supervisorOwned

/-- I4 of R27: a stopped clock is parked low. -/
def StoppedIsLow (b : Block) : Prop := b.clockMode = .stopped → b.clkOut = false

/-- What holds of the lines while a command waits without a bound: ACQUIRE holds its request and has ended its
pulse (R80), a dispatch holds the acknowledge (R155); the rest of R27 stands. -/
def WaitingLines (b : Block) : WaitJob → Prop
  | .acquire => DirectionsTrackOwnership b ∧ DataIsInput b ∧ b.busrqOut = true ∧ b.ioackOut = false
  | .ioDispatch _ => DirectionsTrackOwnership b ∧ RequestTracksOwnership b ∧ b.ioackOut = true
  | .tick _ _ _ => DirectionsTrackOwnership b ∧ RequestTracksOwnership b ∧ b.ioackOut = true

/-- The invariant of R27, in the form that every step keeps: at a command boundary I1, I2 and I3, inside an
unbounded wait what `WaitingLines` says, I4 at all times; after a fault only I4. -/
def BusInvariant (s : State) : Prop :=
  StoppedIsLow s.block ∧
  (Live s →
    match s.waiting with
    | none => DirectionsTrackOwnership s.block ∧ DataIsInput s.block ∧ RequestTracksOwnership s.block
    | some w => WaitingLines s.block w.job) ∧
  (s.waiting ≠ none → Live s)

/-- `fault_code` is 0, 1 or 2, and the last result's code one of 0, 1, 2, 4, 5, 6, 7 (R175: 3 is unreachable in a
model, 8 to 15 are never produced). -/
def CodesAreDefined (s : State) : Prop :=
  (s.block.faultCode = 0 ∨ s.block.faultCode = 1 ∨ s.block.faultCode = 2) ∧
  ∀ r, s.result = some r → r.code ≠ 3 ∧ r.code.toNat < 8

/-- The external CPU's memory is in its canonical form. -/
def MemoryIsCanonical (s : State) : Prop := Memory.wf s.world.mem = true

/-- The ports that have a handler (R156). -/
def mappedPorts (s : State) : List Byte := s.world.ports.map PortReg.num

/-- The lines as the environment will show them after `n` more of its moves. -/
def linesAfter (s : State) (n : Nat) : CpuLines := (World.moves n s.world).lines

/-- The moves of the environment before ACQUIRE's first test of `busack`: its answers to `busrq`, if that changes,
and to the two changes of the pulse on `ioack`, the first of which may be none (R13, R80). -/
def acquireRequestMoves (s : State) : Nat :=
  stirs (!s.block.busrqOut) s + stirs (!s.block.ioackOut) s + 1

/-- P2 of R28 for one ACQUIRE: the environment asserts `busack` after `k` clock edges of the wait, and not before. -/
def GrantsBusAfter (s : State) (k : Nat) : Prop :=
  (linesAfter s (acquireRequestMoves s + k)).busack = true ∧
  ∀ j, j < k → (linesAfter s (acquireRequestMoves s + j)).busack = false

/-- P3 of R28 for one dispatch wait that begins at `s`: the environment de-asserts `iorq` after `k` clock edges, and
not before. -/
def ReleasesIoAfter (s : State) (k : Nat) : Prop :=
  line (clockEdges k s) .iorq = false ∧ ∀ j, j < k → line (clockEdges j s) .iorq = true

/-- The toggles a wait that begins at `s` may make within its command's step: up to its bound, or, without a bound,
as many as moves are listed and at least one (R92; log 3). -/
def WithinWait (bound : BitVec 16) (s : State) (k : Nat) : Prop :=
  (bound = 0 ∧ k ≤ max 1 s.world.reactions.length) ∨ (bound ≠ 0 ∧ k ≤ bound.toNat)

/-- The level of the clock line after `k` toggles from `s` (R91). -/
def levelAfter (s : State) (k : Nat) : Bool := if isFree s then s.block.clkOut else s.block.clkOut ^^ (k % 2 == 1)

/-- The clock mode after `k` toggles from `s` (R90, R91). -/
def modeAfter (s : State) (k : Nat) : ClockMode := if isFree s ∨ k = 0 then s.block.clockMode else .singleStep

/-- The environment moved, and outside FreeRunning mode it moved once for each of `edges` changes of a line (R12,
R13). Nothing else happened to the world: a byte of memory changed only if the external CPU stored to it. -/
def Stirred (s t : State) (edges : Nat) : Prop :=
  ∃ n, t.world = World.moves n s.world ∧ (isFree s = false → n = edges)

/-- The frame of a command that returns: the supervisor's acts, the wait and the memory path's reply are untouched. -/
def SameOutside (s t : State) : Prop :=
  t.inputs = s.inputs ∧ t.waiting = s.waiting ∧ t.memReply = s.memReply

/-- The command returns the result `r` with the block's registers as in `b`, having made `edges` changes of a line;
nothing else changes. -/
def Completes (i : Instr) (s : State) (b : Block) (r : Result) (edges : Nat) : Prop :=
  ∃ t, exec i s = .next t ∧ t.block = b ∧ t.result = some r ∧ Stirred s t edges ∧ SameOutside s t

/-- The command is refused with this code and changes nothing but the result (R177). -/
def RefusedWith (i : Instr) (s : State) (code : BitVec 4) : Prop :=
  exec i s = .next { s with result := some { code := code } }

/-- `n` steps lead from `s` to `t`, each of them going on with a wait in progress (log 3). -/
def Resumes : Nat → State → State → Prop
  | 0, s, t => s = t
  | n + 1, s, t => s.waiting ≠ none ∧ ∃ u, step s = .next u ∧ Resumes n u t

/-- The command, carried out from `s`, came back complete with the result `r` in the state `t`, in its own step or
after any number of steps of its wait. From a state in which a wait already stands, where no run starts a command
(log 17), only the command's own step counts. -/
def Returns (i : Instr) (s t : State) (r : Result) : Prop :=
  ∃ n u, exec i s = .next u ∧ Resumes n u t ∧ (n ≠ 0 → s.waiting = none) ∧ t.result = some r ∧ r.code = 0

/-- The tick came back complete with the result `r`. -/
def TickReturns (bound : BitVec 16) (s t : State) (r : Result) : Prop := Returns (.tick bound) s t r

/-- The toggles one step makes in a wait without a bound that stays unanswered (log 3). -/
def waitToggles (s : State) : Nat := max 1 s.world.reactions.length

/-- The state after one step's toggles of a wait without a bound, made from `s` and left unanswered: the clock has
moved, the environment has moved once for each toggle, the command has returned nothing (R82, R92; log 3). -/
def stillWaiting (s : State) (job : WaitJob) (k : Nat) : State :=
  { s with
    block := { s.block with clkOut := levelAfter s (waitToggles s), clockMode := modeAfter s (waitToggles s) }
    world := World.moves (waitToggles s) s.world
    waiting := some ⟨job, k + waitToggles s⟩
    result := none }

/-- The state of a tick when it samples: the clock made low, then high, one move of the environment for each edge
(R140, R142). -/
def atSample (s : State) : State :=
  { s with
    block := { s.block with clkOut := true, clockMode := .singleStep }
    world := World.moves (s.block.clkOut.toNat + 1) s.world }

/-- The block's registers after the ClassifyCycle state of a tick that has sampled `st` (R140). -/
def afterClassify (s : State) (st : Status) : Block :=
  let opfetch := (firedBy st s.block.prevRd s.block.prevWr).opfetch
  { s.block with
    clkOut := true
    clockMode := .singleStep
    lastStatus := packStatus st
    prevRd := st.rd
    prevWr := st.wr
    bdPrev := if opfetch then st.data else s.block.bdPrev
    bdPrev2 := if opfetch then s.block.bdPrev else s.block.bdPrev2 }

/-- The result of a tick that began at `s` and sampled `st` (R29, R144). -/
def tickResult (s : State) (st : Status) (dispatched : Bool) (k : Nat) : Result :=
  let fired := firedBy st s.block.prevRd s.block.prevWr
  let log := logHits s.block.logRanges st fired
  let brk := brkHits s.block.brkRanges st fired
  { code := 0
    status := some (packStatus st)
    toggles := some (BitVec.ofNat 16 (min k 65535))
    newInstr := some (fired.opfetch && newInstruction st.data s.block.bdPrev s.block.bdPrev2)
    fired := some (packCats fired)
    logHit := some (packCats log)
    brkHit := some (packCats brk)
    traceEmit := some (log.bus || log.memrd || log.memwr || log.iord || log.iowr || log.opfetch)
    breakHit := some (brk.bus || brk.memrd || brk.memwr || brk.iord || brk.iowr || brk.opfetch)
    ioDispatched := some dispatched }

/-- What the handler of a dispatch leaves of the world: a write stores the byte at a mapped port, a read leaves the
world as it is (R155, R156). -/
def handled (st : Status) (w : World) : World :=
  if st.rd then w else if st.wr then { w with ports := portWrite w.ports (portOf st.addr) st.data } else w

/-- The world of a dispatch that began at `s` with the snapshot `st`, after `k` toggles of its wait and before any
answer: the handler, then the environment's moves; outside FreeRunning mode one for each change of a line (R12,
R155, R158). -/
def OpenedWorld (s t : State) (st : Status) (k : Nat) : Prop :=
  ∃ n m, t.world = World.moves m (handled st (World.moves n s.world)) ∧
    (isFree s = false → n = 0) ∧
    (isFree s = false → DataIsInput s.block → m = st.rd.toNat + (!s.block.ioackOut).toNat + k)

/-- The world after a dispatch that began at `s` with the snapshot `st` and was answered after `k` toggles: the
handler, then the environment's moves; outside FreeRunning mode one for each change of a line (R12, R155). -/
def DispatchedWorld (s t : State) (st : Status) (k : Nat) : Prop :=
  ∃ n m, t.world = World.moves m (handled st (World.moves n s.world)) ∧
    (isFree s = false → n = 0) ∧
    (isFree s = false → DataIsInput s.block →
      m = 2 * st.rd.toNat + (!s.block.ioackOut).toNat + k + 1)

/-- The byte a dispatch that began at `s` drives in a read (R155): the port's input register, or OPEN_BUS. In
FreeRunning mode the peripherals have run since the snapshot. -/
def dispatchByte (s : State) (st : Status) : Byte :=
  portRead (World.moves (stirs false s) s.world).ports (portOf st.addr)

/-- A word that R64 lists: it selects no command. -/
def ReservedWord (w : CmdWord) : Prop :=
  let op := CmdWord.op w
  let sub := CmdWord.sub w
  let a := CmdWord.a w
  let b := CmdWord.b w
  let cat := sub.extractLsb' 0 3
  op = 0x0 ∨ op = 0xF
  ∨ (op ∈ [0x1#4, 0x2#4, 0x3#4, 0x4#4, 0x5#4, 0x6#4, 0x7#4, 0x8#4, 0x9#4, 0xA#4, 0xD#4] ∧ sub ≠ 0)
  ∨ (op ≠ 0xB ∧ a ≠ 0)
  ∨ (op ∈ [0x2#4, 0x3#4, 0x4#4, 0x6#4, 0x7#4, 0xA#4, 0xC#4] ∧ b ≠ 0)
  ∨ (op ∈ [0xB#4, 0xC#4] ∧ (cat = 6 ∨ cat = 7))
  ∨ (op = 0xB ∧ (cat = 3 ∨ cat = 4) ∧ (a > 0x00FF ∨ b > 0x00FF))
  ∨ (op = 0x9 ∧ b.extractLsb' 8 8 ≠ 0)
  ∨ (op = 0xE ∧ (sub.extractLsb' 2 2 ≠ 0 ∨ b.extractLsb' 1 15 ≠ 0))

/-- The constraints on a row beyond its mask (R62). -/
def RowConstraints (r : OpcodeRow) (w : CmdWord) : Prop :=
  let cat := (CmdWord.sub w).extractLsb' 0 3
  (r.mnemonic = "SET_RANGE" ∨ r.mnemonic = "CLR_RANGE" → cat ≤ 5) ∧
  (r.mnemonic = "SET_RANGE" → cat = 3 ∨ cat = 4 → CmdWord.a w ≤ 0x00FF ∧ CmdWord.b w ≤ 0x00FF)

/-- The table of R118: the verdict by the classes of the previous byte, the one before it and the current one. -/
def verdictTable (p1 p2 cur : ByteClass) : Bool :=
  let c := cur == .dd || cur == .ed || cur == .fd
  match p1, p2 with
  | .cb, .cb => true
  | .cb, .dd => true
  | .cb, .ed => false
  | .cb, .fd => true
  | .cb, .other => false
  | .ed, .cb => true
  | .ed, .dd => false
  | .ed, .ed => false
  | .ed, .fd => false
  | .ed, .other => false
  | .dd, .cb => true
  | .dd, .dd => c
  | .dd, .ed => c
  | .dd, .fd => c
  | .dd, .other => c
  | .fd, .cb => true
  | .fd, .dd => c
  | .fd, .ed => c
  | .fd, .fd => c
  | .fd, .other => c
  | .other, .cb => true
  | .other, .dd => true
  | .other, .ed => true
  | .other, .fd => true
  | .other, .other => true

/-- A trace within its limit: it has counted no more opcode fetches than the limit, and before a tick fewer
(R163). -/
def TraceWithinLimit (t : Trace) : Prop :=
  t.limit ≠ 0 → t.count ≤ t.limit ∧ (t.phase = .ticking → t.count < t.limit)

/-- `n` steps of the machine from `s` end in `t`. -/
def Reaches (s : State) (n : Nat) (t : State) : Prop := Sys2Proof.core.run n s = .next t

/-- A state that some run from reset, with any acts of the supervisor and any moves of the environment, reaches. -/
def Reachable (t : State) : Prop :=
  ∃ (inputs : List Input) (reactions : List EnvMove) (n : Nat),
    Reaches { State.reset with
      inputs := inputs, world := { State.reset.world with reactions := reactions } } n t

end Sys2Proof.Machine
end

