-- ==== Sys2Proof/Certificates/Slice0/Obligations.lean ====
section
/-! DEFINITION. The statements for the provers. Each docstring names the rule of spec/ it formalises. -/

open Sys2Proof Sys2Proof.Machine

/-! ### Encoding -/

/-- R60 to R63: every command whose operands are admitted is read back from its word, operand for operand. -/
def Obligations.EncodedCommandDecodesToItself : Prop :=
  ∀ i : Instr, i.wellFormed = true → decode (encode i) = .ok i

/-- R60 to R64: a word that selects a command is that command's word, so no two words select the same command, and
the command is well formed. -/
def Obligations.DecodedWordIsTheCommandsWord : Prop :=
  ∀ (w : CmdWord) (i : Instr), decode w = .ok i → i.wellFormed = true ∧ encode i = w

/-- R62: a word selects the command of a row if and only if it has the row's pattern under the row's mask and the
row's constraints hold. -/
def Obligations.WordSelectsExactlyItsTableRow : Prop :=
  ∀ (w : CmdWord) (r : OpcodeRow), r ∈ opcodeMap →
    ((∃ i, decode w = .ok i ∧ i.mnemonic = r.mnemonic) ↔ (r.selects w = true ∧ RowConstraints r w))

/-- R62, R63: one word of each row, written out from the opcode map and its selectors. -/
def Obligations.WrittenOutWordsDecode : Prop :=
  decode 0x10000003E8 = .ok (.acquire 1000) ∧
  decode 0x2000000000 = .ok .release ∧
  decode 0x3000000000 = .ok .clkRun ∧
  decode 0x4000000000 = .ok .clkStop ∧
  decode 0x5000000003 = .ok (.clkCycle 3) ∧
  decode 0x6000000000 = .ok .clkStep ∧
  decode 0x7000000000 = .ok .sample ∧
  decode 0x8000000008 = .ok (.tick 8) ∧
  decode 0x90000000CB = .ok (.bdClassify 0xCB) ∧
  decode 0xA000000000 = .ok .bdReset ∧
  decode 0xB9100010FF = .ok (.setRange .brk .memrd 0x1000 0x10FF) ∧
  decode 0xCD00000000 = .ok (.clrRange .brk .opfetch) ∧
  decode 0xD000000010 = .ok (.ioDispatch 16) ∧
  decode 0xE300000001 = .ok (.lineSet .ioack true)

/-- R64: a word of the list is refused with code 5 and changes nothing else, outside FreeRunning mode not even the
environment; every other word selects a command. -/
def Obligations.ReservedWordsAreRefusedWithoutEffect : Prop :=
  ∀ (w : CmdWord) (s : State) (rest : List Input),
    s.waiting = none → s.inputs = .command w :: rest → Live s →
      (ReservedWord w →
        step s = .next { s with
          inputs := rest
          world := World.moves (stirs false s) s.world
          result := some { code := 5 } }) ∧
      (¬ReservedWord w → ∃ i, decode w = .ok i)

/-! ### The step -/

/-- R5, R12, R21: a step with a command word at the port runs the command the word selects, on the state with that
act taken; in FreeRunning mode the environment has moved meanwhile (log 2, log 4: the model's choice). -/
def Obligations.StepRunsTheDecodedCommand : Prop :=
  ∀ (s : State) (w : CmdWord) (rest : List Input) (i : Instr),
    s.waiting = none → s.inputs = .command w :: rest → decode w = .ok i →
      step s = exec i { s with inputs := rest, world := World.moves (stirs false s) s.world }

/-- R178: while `fault_code` is not 0 every command, of any encoding, is refused with code 4 and changes nothing
else. In FreeRunning mode the environment has run while the word was taken: that it is shown there as one move is the
model's choice (log 2). -/
def Obligations.FaultedBlockRefusesEveryCommand : Prop :=
  ∀ s : State, ¬Live s →
    (∀ i : Instr, RefusedWith i s 4) ∧
    (∀ (w : CmdWord) (rest : List Input), s.waiting = none → s.inputs = .command w :: rest →
      step s = .next { s with
        inputs := rest
        world := World.moves (stirs false s) s.world
        result := some { code := 4 } })

/-- R176, R184: between commands of a faulted block no step changes a register of the block, but block reset. -/
def Obligations.OnlyBlockResetLeavesAFault : Prop :=
  ∀ s t : State, ¬Live s → s.waiting = none → step s = .next t →
    t.block = s.block ∨ ∃ rest, s.inputs = .blockReset :: rest

/-- R179: only the two bounded waits raise a fault, each its own, and the result carries the toggles made. -/
def Obligations.OnlyTimeoutsRaiseFaults : Prop :=
  ∀ (i : Instr) (s t : State), Live s → exec i s = .next t → ¬Live t →
    (∃ bound, i = .acquire bound ∧ bound ≠ 0 ∧ t.block.faultCode = 1 ∧
      t.result = some { code := 1, toggles := some bound }) ∨
    (∃ bound, (i = .tick bound ∨ i = .ioDispatch bound) ∧ bound ≠ 0 ∧ t.block.faultCode = 2 ∧
      t.result = some { code := 2, toggles := some bound })

/-! ### Invariants -/

/-- R27 in the form that every step keeps: I1, I2, I3 between commands of a block without a fault, what holds of the
lines inside an unbounded wait, and I4 always. -/
def Obligations.EveryStepKeepsTheBusInvariant : Prop :=
  ∀ s t : State, BusInvariant s → step s = .next t → BusInvariant t

/-- R27 holds after block reset. -/
def Obligations.ResetMeetsTheBusInvariant : Prop := BusInvariant State.reset

/-- R27, for every state that a run from reset reaches, whatever the supervisor sends and however the environment
moves: between commands, without a fault, I1 to I4. -/
def Obligations.ReachableBoundariesHaveTheBusInvariants : Prop :=
  ∀ s : State, Reachable s → s.waiting = none → Live s →
    DirectionsTrackOwnership s.block ∧ DataIsInput s.block ∧ RequestTracksOwnership s.block ∧ StoppedIsLow s.block

/-- R175: `fault_code` stays 0, 1 or 2, and no result has the code 3 or a reserved one. -/
def Obligations.EveryStepKeepsTheCodesDefined : Prop :=
  ∀ s t : State, CodesAreDefined s → step s = .next t → CodesAreDefined t

/-- Log 9, the model's own form of the CPU's memory (R40): every step keeps it canonical. -/
def Obligations.EveryStepKeepsMemoryCanonical : Prop :=
  ∀ s t : State, MemoryIsCanonical s → step s = .next t → MemoryIsCanonical t

/-- R156: the port map is immutable; no step changes which ports have a handler. -/
def Obligations.EveryStepKeepsThePortMap : Prop :=
  ∀ s t : State, step s = .next t → mappedPorts t = mappedPorts s

/-! ### Reset -/

/-- R30: the registers that the table gives a value for, after a block reset from any state between commands. -/
def Obligations.BlockResetGivesTheTable : Prop :=
  ∀ (s : State) (rest : List Input), s.waiting = none → s.inputs = .blockReset :: rest →
    ∃ t, step s = .next t ∧
      t.block.logRanges =
        { bus := ⟨0xFFFF, 0x0000⟩, memrd := ⟨0xFFFF, 0x0000⟩, memwr := ⟨0xFFFF, 0x0000⟩,
          iord := ⟨0xFF, 0x00⟩, iowr := ⟨0xFF, 0x00⟩, opfetch := ⟨0xFFFF, 0x0000⟩ } ∧
      t.block.brkRanges =
        { bus := ⟨0xFFFF, 0x0000⟩, memrd := ⟨0xFFFF, 0x0000⟩, memwr := ⟨0xFFFF, 0x0000⟩,
          iord := ⟨0xFF, 0x00⟩, iowr := ⟨0xFF, 0x00⟩, opfetch := ⟨0xFFFF, 0x0000⟩ } ∧
      t.block.ownership = .cpuOwned ∧ t.block.addrDir = .input ∧ t.block.ctrlDir = .input ∧
      t.block.dataDir = .input ∧ t.block.clockMode = .stopped ∧ t.block.clkOut = false ∧
      t.block.busrqOut = false ∧ t.block.ioackOut = false ∧ t.block.resetOut = false ∧
      t.block.intOut = false ∧ t.block.nmiOut = false ∧ t.block.prevRd = false ∧ t.block.prevWr = false ∧
      t.block.bdPrev = 0x00 ∧ t.block.bdPrev2 = 0x00 ∧ t.block.faultCode = 0

/-! ### Bus Arbiter -/

/-- R80: ACQUIRE, granted after `k` toggles within its bound. `busrq` stays asserted, the pulse on `ioack` is over,
the clock is where the last toggle left it, the directions and the ownership are the supervisor's. Outside FreeRunning
mode the environment has moved once for each change of a line. That in FreeRunning mode the premise and the toggles
count one move of the environment for each micro-step and each toggle, and how many toggles one step makes without a
bound, are the model's choices (logs 2, 3). -/
def Obligations.AcquireGrantedTakesTheBus : Prop :=
  ∀ (bound : BitVec 16) (s : State) (k : Nat),
    Live s → GrantsBusAfter s k →
    WithinWait bound { s with world := World.moves (acquireRequestMoves s) s.world } k →
      Completes (.acquire bound) s
        { s.block with
          busrqOut := true
          ioackOut := false
          clkOut := levelAfter s k
          clockMode := modeAfter s k
          ctrlDir := .output
          addrDir := .output
          dataDir := .input
          ownership := .supervisorOwned }
        { code := 0, toggles := some (BitVec.ofNat 16 (min k 65535)) }
        (acquireRequestMoves s + k + (decide (s.block.ctrlDir = .input)).toNat
          + (decide (s.block.addrDir = .input)).toNat + (decide (s.block.dataDir = .output)).toNat)

/-- R82, with a bound: after `bound` toggles without `busack` the block faults with code 1; `busrq` stays asserted,
`ioack` is 0, the clock stays where the last toggle left it, and nothing else of the block has changed. Every later
command is refused. That in FreeRunning mode too the environment is shown as moving once for each micro-step and each
toggle is the model's choice (log 2). -/
def Obligations.AcquireTimesOutAtItsBound : Prop :=
  ∀ (bound : BitVec 16) (s : State), Live s → bound ≠ 0 →
    (∀ j, j ≤ bound.toNat → (linesAfter s (acquireRequestMoves s + j)).busack = false) →
      ∃ t, exec (.acquire bound) s = .next t ∧
        t.block =
          { s.block with
            busrqOut := true
            ioackOut := false
            clkOut := levelAfter s bound.toNat
            clockMode := modeAfter s bound.toNat
            faultCode := 1 } ∧
        t.result = some { code := 1, toggles := some bound } ∧
        t.world = World.moves (acquireRequestMoves s + bound.toNat) s.world ∧
        SameOutside s t ∧
        ∀ i, RefusedWith i t 4

/-- R82, without a bound: while `busack` stays 0 ACQUIRE does not return. The model shows the wait that goes on as a
state of its own (log 3, the model's choice): the command's own step enters it with the request made, and each later
step toggles the clock further, gives no result and leaves the ownership and the directions alone. -/
def Obligations.UnansweredAcquireDoesNotReturn : Prop :=
  (∀ s : State, Live s →
    let asked : State :=
      { s with
        block := { s.block with busrqOut := true, ioackOut := false }
        world := World.moves (acquireRequestMoves s) s.world }
    (∀ j, j ≤ waitToggles asked → (linesAfter asked j).busack = false) →
      exec (.acquire 0) s = .next (stillWaiting asked .acquire 0)) ∧
  ∀ (s : State) (k : Nat), s.waiting = some ⟨.acquire, k⟩ →
    (∀ j, j ≤ waitToggles s → (linesAfter s j).busack = false) →
      step s = .next (stillWaiting s .acquire k)

/-- R80, R92 under premise P2 of R28: an ACQUIRE without a bound, sent to a live block, is answered in the end: some
number of steps after it was sent the supervisor owns the bus, the result carries the toggles made, and of the world
nothing has changed but by the environment's own moves. The steps of one wait, and one move for each toggle in
FreeRunning mode too, are the model's choices (logs 2, 3). -/
def Obligations.AcquireIsGrantedInTheEnd : Prop :=
  ∀ (s : State) (rest : List Input) (k : Nat),
    Live s → s.waiting = none → s.inputs = .command (encode (.acquire 0)) :: rest →
    GrantsBusAfter { s with world := World.moves (stirs false s) s.world } k →
      ∃ n t, Reaches s n t ∧ t.waiting = none ∧ t.inputs = rest ∧
        t.result = some { code := 0, toggles := some (BitVec.ofNat 16 (min k 65535)) } ∧
        t.block =
          { s.block with
            busrqOut := true
            ioackOut := false
            clkOut := levelAfter s k
            clockMode := modeAfter s k
            ctrlDir := .output
            addrDir := .output
            dataDir := .input
            ownership := .supervisorOwned } ∧
        t.memReply = s.memReply ∧
        Stirred s t
          (acquireRequestMoves s + k + (decide (s.block.ctrlDir = .input)).toNat
            + (decide (s.block.addrDir = .input)).toNat + (decide (s.block.dataDir = .output)).toNat)

/-- R81: RELEASE turns the three directions to Input, de-asserts `busrq` and gives the ownership back; the clock and
all else stay. -/
def Obligations.ReleaseGivesTheBusBack : Prop :=
  ∀ s : State, Live s →
    Completes .release s
      { s.block with
        ctrlDir := .input
        addrDir := .input
        dataDir := .input
        busrqOut := false
        ownership := .cpuOwned }
      { code := 0 }
      ((decide (s.block.ctrlDir = .output)).toNat + (decide (s.block.addrDir = .output)).toNat
        + (decide (s.block.dataDir = .output)).toNat + s.block.busrqOut.toNat)

/-- R84: `ownership` and `busrq_out` change in ACQUIRE and RELEASE only. -/
def Obligations.OwnershipChangesOnlyInTheArbiter : Prop :=
  ∀ (i : Instr) (s t : State), exec i s = .next t →
    (t.block.ownership ≠ s.block.ownership ∨ t.block.busrqOut ≠ s.block.busrqOut) →
      i = .release ∨ ∃ bound, i = .acquire bound

/-! ### Clock Generator -/

/-- R93: CLK_RUN gives the line to the waveform generator and changes nothing else. -/
def Obligations.ClkRunFreesTheClock : Prop :=
  ∀ s : State,
    (Live s →
      ∃ t, exec .clkRun s = .next t ∧
        t = { s with block := { s.block with clockMode := .freeRunning }, result := some { code := 0 } } ∧
        line t .clock = t.world.lines.waveClk) ∧
    (¬Live s → RefusedWith .clkRun s 4)

/-- R94: CLK_STOP stops the generator and parks the line low, which the environment sees as one edge if the line was
high or the generator ran. -/
def Obligations.ClkStopParksTheLineLow : Prop :=
  ∀ s : State,
    (Live s →
      exec .clkStop s = .next { s with
        block := { s.block with clockMode := .stopped, clkOut := false }
        world := World.moves (if isFree s ∨ s.block.clkOut then 1 else 0) s.world
        result := some { code := 0 } }) ∧
    (¬Live s → RefusedWith .clkStop s 4)

/-- R95: CLK_CYCLE makes one falling edge if the line was high, then exactly `n` rising and `n` falling edges, and
ends low. The two refusals are the spec's own decisions (D13 in R97, D9 in R178; the codes D33 in R175). -/
def Obligations.ClkCycleMakesItsEdges : Prop :=
  ∀ (n : BitVec 16) (s : State),
    (Live s → isFree s = false →
      exec (.clkCycle n) s = .next { s with
        block := { s.block with clkOut := false, clockMode := .singleStep }
        world := World.moves (s.block.clkOut.toNat + 2 * n.toNat) s.world
        result := some { code := 0 } }) ∧
    (Live s → isFree s = true → RefusedWith (.clkCycle n) s 6) ∧
    (¬Live s → RefusedWith (.clkCycle n) s 4)

/-- R96: CLK_STEP inverts the line: exactly one edge. -/
def Obligations.ClkStepInvertsTheLine : Prop :=
  ∀ s : State,
    (Live s → isFree s = false →
      exec .clkStep s = .next { s with
        block := { s.block with clkOut := !s.block.clkOut, clockMode := .singleStep }
        world := World.moves 1 s.world
        result := some { code := 0 } }) ∧
    (Live s → isFree s = true → RefusedWith .clkStep s 6) ∧
    (¬Live s → RefusedWith .clkStep s 4)

/-- R97: in FreeRunning mode CLK_CYCLE, CLK_STEP and TICK are refused with code 6 and change nothing; the wait loops
of ACQUIRE and IO_DISPATCH are not refused for it. -/
def Obligations.FreeRunningRefusesSoftwareEdges : Prop :=
  ∀ s : State, Live s → isFree s = true →
    (∀ n, RefusedWith (.clkCycle n) s 6) ∧ RefusedWith .clkStep s 6 ∧ (∀ bound, RefusedWith (.tick bound) s 6) ∧
    (∀ bound t, exec (.acquire bound) s = .next t ∨ exec (.ioDispatch bound) s = .next t →
      ∀ r, t.result = some r → r.code ≠ 6)

/-! ### Status sampler -/

/-- R15, R100: a snapshot shows every line as the direction registers resolve it. -/
def Obligations.SnapshotShowsTheResolvedLines : Prop :=
  ∀ s : State,
    sample s =
      { clock := if s.block.clockMode = .freeRunning then s.world.lines.waveClk else s.block.clkOut
        m1 := s.world.lines.m1
        mreq := if s.block.ctrlDir = .output then s.world.mst.mreq else s.world.lines.mreq
        iorq := if s.block.ctrlDir = .output then s.world.mst.iorq else s.world.lines.iorq
        ioack := s.block.ioackOut
        rd := if s.block.ctrlDir = .output then s.world.mst.rd else s.world.lines.rd
        wr := if s.block.ctrlDir = .output then s.world.mst.wr else s.world.lines.wr
        refresh := s.world.lines.refresh
        halt := s.world.lines.halt
        interrupt := s.block.intOut || s.world.lines.interrupt
        nmi := s.block.nmiOut || s.world.lines.nmi
        reset := s.block.resetOut || s.world.lines.reset
        busrq := s.block.busrqOut
        busack := s.world.lines.busack
        addr := if s.block.addrDir = .output then s.world.mst.addr else s.world.lines.addr
        data := if s.block.dataDir = .output then s.block.dataOut else s.world.lines.data
        bank := if Config.hasBank then s.world.mst.bank else 0 }

/-- R16, R66: the bit positions of the packed form. -/
def Obligations.PackedSnapshotHasItsBits : Prop :=
  ∀ st : Status,
    (packStatus st).getLsbD 0 = st.clock ∧ (packStatus st).getLsbD 1 = st.m1 ∧
    (packStatus st).getLsbD 2 = st.mreq ∧ (packStatus st).getLsbD 3 = st.iorq ∧
    (packStatus st).getLsbD 4 = st.ioack ∧ (packStatus st).getLsbD 5 = st.rd ∧
    (packStatus st).getLsbD 6 = st.wr ∧ (packStatus st).getLsbD 7 = st.refresh ∧
    (packStatus st).getLsbD 8 = st.halt ∧ (packStatus st).getLsbD 9 = st.interrupt ∧
    (packStatus st).getLsbD 10 = st.nmi ∧ (packStatus st).getLsbD 11 = st.reset ∧
    (packStatus st).getLsbD 12 = st.busrq ∧ (packStatus st).getLsbD 13 = st.busack ∧
    (packStatus st).extractLsb' 14 2 = 0 ∧ (packStatus st).extractLsb' 16 16 = st.addr ∧
    (packStatus st).extractLsb' 32 8 = st.data ∧ (packStatus st).extractLsb' 40 8 = st.bank

/-- R101: SAMPLE writes `last_status`, returns the snapshot, and changes nothing else: no line, no strobe history, no
memory. -/
def Obligations.SampleReturnsTheSnapshot : Prop :=
  ∀ s : State,
    (Live s →
      exec .sample s = .next { s with
        block := { s.block with lastStatus := packStatus (sample s) }
        result := some { code := 0, status := some (packStatus (sample s)) } }) ∧
    (¬Live s → RefusedWith .sample s 4)

/-- R103: LINE_SET writes the one register of its line; the environment reacts if the value changed, and only then. -/
def Obligations.LineSetDrivesItsLine : Prop :=
  ∀ (v : Bool) (s : State),
    (Live s →
      Completes (.lineSet .reset v) s { s.block with resetOut := v } { code := 0 } (s.block.resetOut ^^ v).toNat ∧
      Completes (.lineSet .int v) s { s.block with intOut := v } { code := 0 } (s.block.intOut ^^ v).toNat ∧
      Completes (.lineSet .nmi v) s { s.block with nmiOut := v } { code := 0 } (s.block.nmiOut ^^ v).toNat ∧
      Completes (.lineSet .ioack v) s { s.block with ioackOut := v } { code := 0 } (s.block.ioackOut ^^ v).toNat) ∧
    (¬Live s → ∀ l, RefusedWith (.lineSet l v) s 4)

/-! ### Cycle classifier and tick -/

/-- R104, R105, R106: the events of a tick. -/
def Obligations.ClassifierFiresOnStrobeEdges : Prop :=
  ∀ (st : Status) (prevRd prevWr : Bool),
    let f := firedBy st prevRd prevWr
    f.bus = true ∧
    (f.memrd = true ↔ st.mreq = true ∧ st.rd = true ∧ prevRd = false) ∧
    (f.memwr = true ↔ st.mreq = true ∧ st.wr = true ∧ prevWr = false) ∧
    (f.iord = true ↔ st.mreq = false ∧ st.iorq = true ∧ st.rd = true ∧ prevRd = false) ∧
    (f.iowr = true ↔ st.mreq = false ∧ st.iorq = true ∧ st.wr = true ∧ prevWr = false) ∧
    (f.opfetch = true ↔
      st.mreq = true ∧ st.rd = true ∧ prevRd = false ∧ st.m1 = true ∧ st.refresh = false)

/-- R107: if two ticks, with nothing between them that writes the block, see the same `rd` and the same `wr`, the
second fires BUS and nothing else. -/
def Obligations.HeldStrobesFireOnlyOnce : Prop :=
  ∀ (b₁ b₂ : BitVec 16) (s₁ t₁ s₂ t₂ : State) (r₁ r₂ : Result) (st₁ st₂ : Packed),
    TickReturns b₁ s₁ t₁ r₁ → r₁.status = some st₁ → s₂.block = t₁.block →
    TickReturns b₂ s₂ t₂ r₂ → r₂.status = some st₂ →
    st₁.getLsbD 5 = st₂.getLsbD 5 → st₁.getLsbD 6 = st₂.getLsbD 6 →
      r₂.fired = some 0x01

/-- R147: a tick whose snapshot has `mreq` never dispatches; one with `iorq` alone fires no memory category; one with
neither fires BUS alone and does not dispatch. -/
def Obligations.TickKindsExcludeEachOther : Prop :=
  ∀ (bound : BitVec 16) (s t : State) (r : Result) (st : Packed),
    TickReturns bound s t r → r.status = some st →
      (st.getLsbD 2 = true → r.ioDispatched = some false) ∧
      (st.getLsbD 2 = false → st.getLsbD 3 = true →
        ∃ f, r.fired = some f ∧ f.getLsbD 1 = false ∧ f.getLsbD 2 = false ∧ f.getLsbD 5 = false) ∧
      (st.getLsbD 2 = false → st.getLsbD 3 = false → r.fired = some 0x01 ∧ r.ioDispatched = some false)

/-- R140, R142: a tick that is no I/O cycle. It makes its edges, samples with the clock high, records the strobes and
feeds the detector on an opcode fetch; nothing else of the block, no port and, but for the CPU's own stores, no byte
of memory changes. -/
def Obligations.TickOutsideIoCompletes : Prop :=
  ∀ (bound : BitVec 16) (s : State), Live s → isFree s = false →
    kindOf (sample (atSample s)) ≠ .io →
      exec (.tick bound) s = .next { s with
        block := afterClassify s (sample (atSample s))
        world := World.moves (s.block.clkOut.toNat + 1) s.world
        result := some (tickResult s (sample (atSample s)) false 0) }

/-- R140, R143, R155: a tick that is an I/O cycle. Answered after `k` toggles within its bound it completes; without
a bound it goes on waiting while `iorq` stays, step by step (log 3), and completes once `iorq` goes, however many
toggles that takes (premise P3 of R28). That the byte driven is the port's input register, and that a read leaves the
peripherals as they are, is the model's reading of a handler (log 11). -/
def Obligations.TickInIoDispatches : Prop :=
  (∀ (bound : BitVec 16) (s : State), Live s → isFree s = false →
    let st := sample (atSample s)
    let s₁ : State := { atSample s with block := afterClassify s st }
    let served (t : State) (k : Nat) : Prop :=
      t.block =
        { afterClassify s st with
          clkOut := levelAfter s₁ k
          dataOut := if st.rd then dispatchByte s₁ st else s.block.dataOut
          dataDir := .input
          ioackOut := false } ∧
      t.result = some (tickResult s st true k) ∧
      DispatchedWorld s₁ t st k ∧ SameOutside s t
    kindOf st = .io →
      (∀ k, ReleasesIoAfter (ioOpen st s₁) k → WithinWait bound (ioOpen st s₁) k →
        ∃ t, exec (.tick bound) s = .next t ∧ served t k) ∧
      (bound = 0 → s.waiting = none → ∀ k, ReleasesIoAfter (ioOpen st s₁) k →
        ∃ n u t, exec (.tick bound) s = .next u ∧ Resumes n u t ∧ served t k) ∧
      (bound = 0 →
        (∀ j, j ≤ waitToggles (ioOpen st s₁) → line (clockEdges j (ioOpen st s₁)) .iorq = true) →
          exec (.tick bound) s = .next
            (stillWaiting (ioOpen st s₁)
              (.tick st (firedBy st s.block.prevRd s.block.prevWr)
                ((firedBy st s.block.prevRd s.block.prevWr).opfetch
                  && newInstruction st.data s.block.bdPrev s.block.bdPrev2)) 0))) ∧
  ∀ (s : State) (st : Status) (fired : CatFlags) (new : Bool) (k : Nat), s.waiting = some ⟨.tick st fired new, k⟩ →
    (∀ j, j ≤ waitToggles s → line (clockEdges j s) .iorq = true) →
      step s = .next (stillWaiting s (.tick st fired new) k)

/-- R142: every tick that returns has sampled with the clock high, and what it sampled is `last_status`. -/
def Obligations.TickSamplesWithTheClockHigh : Prop :=
  ∀ (bound : BitVec 16) (s t : State) (r : Result), TickReturns bound s t r →
    ∃ st, r.status = some st ∧ st.getLsbD 0 = true ∧ t.block.lastStatus = st

/-! ### Instruction-Boundary Detector -/

/-- R118: the verdict by the classes of the three bytes. -/
def Obligations.BoundaryVerdictFollowsTheTable : Prop :=
  ∀ cur p1 p2 : Byte, newInstruction cur p1 p2 = verdictTable (classOf p1) (classOf p2) (classOf cur)

/-- R115, R116: BD_CLASSIFY returns the verdict of the rule's four branches, makes the byte the previous one and the
previous one the previous-previous one whatever the verdict, and changes nothing else. The refusal of a faulted block
is the spec's own decision D9 (R178). -/
def Obligations.BdClassifyMovesTheBytesOn : Prop :=
  ∀ (cur : Byte) (s : State),
    let p1 := s.block.bdPrev
    let p2 := s.block.bdPrev2
    (Live s →
      ∃ new, exec (.bdClassify cur) s = .next { s with
          block := { s.block with bdPrev2 := p1, bdPrev := cur }
          result := some { code := 0, newInstr := some new } } ∧
        (p1 = 0xCB → (new = true ↔ p2 = 0xCB ∨ p2 = 0xDD ∨ p2 = 0xFD)) ∧
        (p1 = 0xED → (new = true ↔ p2 = 0xCB)) ∧
        (p1 = 0xDD ∨ p1 = 0xFD → (new = true ↔ p2 = 0xCB ∨ cur = 0xDD ∨ cur = 0xED ∨ cur = 0xFD)) ∧
        (p1 ≠ 0xCB → p1 ≠ 0xED → p1 ≠ 0xDD → p1 ≠ 0xFD → new = true)) ∧
    (¬Live s → RefusedWith (.bdClassify cur) s 4)

/-- R117: BD_RESET clears both bytes; the first byte classified after it is always a new instruction. -/
def Obligations.BdResetStartsAfresh : Prop :=
  ∀ s : State,
    (Live s →
      ∃ t, exec .bdReset s = .next t ∧
        t = { s with block := { s.block with bdPrev := 0x00, bdPrev2 := 0x00 }, result := some { code := 0 } } ∧
        ∀ byte, ∃ u, exec (.bdClassify byte) t = .next u ∧ u.result = some { code := 0, newInstr := some true }) ∧
    (¬Live s → RefusedWith .bdReset s 4)

/-- R119: a tick that returns has fed the detector with the snapshot's data byte if OPFETCH fired, and not otherwise. -/
def Obligations.TickFeedsTheDetectorOnFetches : Prop :=
  ∀ (bound : BitVec 16) (s t : State) (r : Result) (st : Packed) (f : BitVec 6),
    TickReturns bound s t r → r.status = some st → r.fired = some f →
      (f.getLsbD 5 = true → t.block.bdPrev = st.extractLsb' 32 8 ∧ t.block.bdPrev2 = s.block.bdPrev) ∧
      (f.getLsbD 5 = false →
        t.block.bdPrev = s.block.bdPrev ∧ t.block.bdPrev2 = s.block.bdPrev2 ∧ r.newInstr = some false)

/-! ### Range checker -/

/-- R125: both ends included, unsigned; an inverted pair is empty. -/
def Obligations.RangeIncludesBothEnds : Prop :=
  (∀ (r : Range 16) (v : BitVec 16),
    (inRange r v = true ↔ r.start.toNat ≤ v.toNat ∧ v.toNat ≤ r.last.toNat) ∧
    (r.last.toNat < r.start.toNat → inRange r v = false)) ∧
  (∀ (r : Range 8) (v : BitVec 8),
    (inRange r v = true ↔ r.start.toNat ≤ v.toNat ∧ v.toNat ≤ r.last.toNat) ∧
    (r.last.toNat < r.start.toNat → inRange r v = false))

/-- R128: SET_RANGE writes both halves of one range register and nothing else; bounds that a port range cannot hold
are refused with code 5. -/
def Obligations.SetRangeWritesOneRegister : Prop :=
  ∀ (kind : RangeKind) (cat : Cat) (start last : BitVec 16) (s : State),
    (Live s → cat.admits start last = true →
      ∃ bank,
        exec (.setRange kind cat start last) s = .next { s with
          block := (match kind with
            | .log => { s.block with logRanges := bank }
            | .brk => { s.block with brkRanges := bank })
          result := some { code := 0 } } ∧
        let old := (match kind with | .log => s.block.logRanges | .brk => s.block.brkRanges)
        bank.bus = (if cat = .bus then ⟨start, last⟩ else old.bus) ∧
        bank.memrd = (if cat = .memrd then ⟨start, last⟩ else old.memrd) ∧
        bank.memwr = (if cat = .memwr then ⟨start, last⟩ else old.memwr) ∧
        bank.iord = (if cat = .iord then ⟨start.setWidth 8, last.setWidth 8⟩ else old.iord) ∧
        bank.iowr = (if cat = .iowr then ⟨start.setWidth 8, last.setWidth 8⟩ else old.iowr) ∧
        bank.opfetch = (if cat = .opfetch then ⟨start, last⟩ else old.opfetch)) ∧
    (Live s → cat.admits start last = false → RefusedWith (.setRange kind cat start last) s 5) ∧
    (¬Live s → RefusedWith (.setRange kind cat start last) s 4)

/-- R129: CLR_RANGE sets one range register back to the unset pair and changes nothing else. -/
def Obligations.ClrRangeUnsetsOneRegister : Prop :=
  ∀ (kind : RangeKind) (cat : Cat) (s : State),
    (Live s →
      ∃ bank,
        exec (.clrRange kind cat) s = .next { s with
          block := (match kind with
            | .log => { s.block with logRanges := bank }
            | .brk => { s.block with brkRanges := bank })
          result := some { code := 0 } } ∧
        let old := (match kind with | .log => s.block.logRanges | .brk => s.block.brkRanges)
        bank.bus = (if cat = .bus then ⟨0xFFFF, 0x0000⟩ else old.bus) ∧
        bank.memrd = (if cat = .memrd then ⟨0xFFFF, 0x0000⟩ else old.memrd) ∧
        bank.memwr = (if cat = .memwr then ⟨0xFFFF, 0x0000⟩ else old.memwr) ∧
        bank.iord = (if cat = .iord then ⟨0xFF, 0x00⟩ else old.iord) ∧
        bank.iowr = (if cat = .iowr then ⟨0xFF, 0x00⟩ else old.iowr) ∧
        bank.opfetch = (if cat = .opfetch then ⟨0xFFFF, 0x0000⟩ else old.opfetch)) ∧
    (¬Live s → RefusedWith (.clrRange kind cat) s 4)

/-- R130, with R127 and R131 to R133: the comparator tree, category by category, with the two bits that it gives a
tick. That BUS suppresses its log test only, that there is one trace bit and which values are compared are the spec's
own decisions D21, D22, D23. -/
def Obligations.ComparatorTreeHits : Prop :=
  ∀ (log brk : RangeBank) (st : Status) (f : CatFlags),
    let port := st.addr.setWidth 8
    let l := logHits log st f
    let b := brkHits brk st f
    l.memrd = (f.memrd && inRange log.memrd st.addr) ∧ b.memrd = (f.memrd && inRange brk.memrd st.addr) ∧
    l.memwr = (f.memwr && inRange log.memwr st.addr) ∧ b.memwr = (f.memwr && inRange brk.memwr st.addr) ∧
    l.iord = (f.iord && inRange log.iord port) ∧ b.iord = (f.iord && inRange brk.iord port) ∧
    l.iowr = (f.iowr && inRange log.iowr port) ∧ b.iowr = (f.iowr && inRange brk.iowr port) ∧
    l.opfetch = (f.opfetch && inRange log.opfetch st.addr) ∧
    b.opfetch = (f.opfetch && inRange brk.opfetch st.addr) ∧
    l.bus = (!(l.memrd || l.memwr || l.iord || l.iowr || l.opfetch) && inRange log.bus st.addr) ∧
    b.bus = inRange brk.bus st.addr ∧
    anyHit l = (l.bus || l.memrd || l.memwr || l.iord || l.iowr || l.opfetch) ∧
    anyHit b = (b.bus || b.memrd || b.memwr || b.iord || b.iowr || b.opfetch)

/-- R132, R133: a tick that returns asks for a trace record exactly if some category logged, and reports a break
exactly if some category broke; a specific category hits only if it fired. -/
def Obligations.TickReportsItsHits : Prop :=
  ∀ (bound : BitVec 16) (s t : State) (r : Result), TickReturns bound s t r →
    ∃ f l b, r.fired = some f ∧ r.logHit = some l ∧ r.brkHit = some b ∧
      r.traceEmit = some (l != 0) ∧ r.breakHit = some (b != 0) ∧
      l &&& f = l ∧ b &&& f = b ∧
      (l.getLsbD 0 = true → l = 0x01)

/-- R126: with every range unset no tick hits anything. -/
def Obligations.UnsetRangesNeverHit : Prop :=
  ∀ (bound : BitVec 16) (s t : State) (r : Result),
    s.block.logRanges = RangeBank.unset → s.block.brkRanges = RangeBank.unset → TickReturns bound s t r →
      r.logHit = some 0 ∧ r.brkHit = some 0 ∧ r.traceEmit = some false ∧ r.breakHit = some false

/-! ### I/O dispatch -/

/-- R155: IO_DISPATCH in an I/O cycle. Answered after `k` toggles within its bound it completes; without a bound it
goes on waiting while `iorq` stays, step by step (log 3), and completes once `iorq` goes, however many toggles that
takes (premise P3 of R28). That the byte driven is the port's input register, and that a read leaves the peripherals
as they are, is the model's reading of a handler (log 11); in FreeRunning mode the byte is read after the one move
since the snapshot, the model's choice (log 2). -/
def Obligations.IoDispatchServesThePort : Prop :=
  (∀ (bound : BitVec 16) (s : State), Live s →
    let st := sample s
    let s₁ : State := { s with block := { s.block with lastStatus := packStatus st } }
    let served (t : State) (k : Nat) : Prop :=
      t.block =
        { s.block with
          lastStatus := packStatus st
          clkOut := levelAfter s k
          clockMode := modeAfter s k
          dataOut := if st.rd then dispatchByte s st else s.block.dataOut
          dataDir := .input
          ioackOut := false } ∧
      t.result =
        some { code := 0, status := some (packStatus st), toggles := some (BitVec.ofNat 16 (min k 65535)) } ∧
      DispatchedWorld s t st k ∧ SameOutside s t
    st.iorq = true → st.mreq = false →
      (∀ k, ReleasesIoAfter (ioOpen st s₁) k → WithinWait bound (ioOpen st s₁) k →
        ∃ t, exec (.ioDispatch bound) s = .next t ∧ served t k) ∧
      (bound = 0 → s.waiting = none → ∀ k, ReleasesIoAfter (ioOpen st s₁) k →
        ∃ n u t, exec (.ioDispatch bound) s = .next u ∧ Resumes n u t ∧ served t k) ∧
      (bound = 0 →
        (∀ j, j ≤ waitToggles (ioOpen st s₁) → line (clockEdges j (ioOpen st s₁)) .iorq = true) →
          exec (.ioDispatch bound) s = .next (stillWaiting (ioOpen st s₁) (.ioDispatch st) 0))) ∧
  ∀ (s : State) (st : Status) (k : Nat), s.waiting = some ⟨.ioDispatch st, k⟩ →
    (∀ j, j ≤ waitToggles s → line (clockEdges j s) .iorq = true) →
      step s = .next (stillWaiting s (.ioDispatch st) k)

/-- R155, R177: outside an I/O cycle IO_DISPATCH is refused with code 7, after the write of `last_status` and with no
other effect; on a faulted block with code 4. -/
def Obligations.IoDispatchRefusesOutsideIo : Prop :=
  ∀ (bound : BitVec 16) (s : State),
    (Live s → ¬((sample s).iorq = true ∧ (sample s).mreq = false) →
      exec (.ioDispatch bound) s = .next { s with
        block := { s.block with lastStatus := packStatus (sample s) }
        result := some { code := 7 } }) ∧
    (¬Live s → RefusedWith (.ioDispatch bound) s 4)

/-- R158: a dispatch wait that times out, in IO_DISPATCH and in TICK. The acknowledge stays asserted, the data
direction stays Output after a read, the data register keeps the handler's value, the handler has run and the
environment has moved for the changes of a line alone, and every later command is refused. What byte the handler gave
is the model's reading of a port (log 11), in FreeRunning mode after the one move since the snapshot (log 2). -/
def Obligations.DispatchTimeoutLeavesTheLines : Prop :=
  ∀ (bound : BitVec 16) (s : State), Live s → bound ≠ 0 →
    (let st := sample s
     let s₁ : State := { s with block := { s.block with lastStatus := packStatus st } }
     st.iorq = true → st.mreq = false →
     (∀ j, j ≤ bound.toNat → line (clockEdges j (ioOpen st s₁)) .iorq = true) →
      ∃ t, exec (.ioDispatch bound) s = .next t ∧
        t.block =
          { s.block with
            lastStatus := packStatus st
            clkOut := levelAfter s bound.toNat
            clockMode := modeAfter s bound.toNat
            dataOut := if st.rd then dispatchByte s st else s.block.dataOut
            dataDir := if st.rd then .output else s.block.dataDir
            ioackOut := true
            faultCode := 2 } ∧
        t.result = some { code := 2, toggles := some bound } ∧
        OpenedWorld s t st bound.toNat ∧ SameOutside s t ∧ ∀ i, RefusedWith i t 4) ∧
    (isFree s = false →
     let st := sample (atSample s)
     let s₁ : State := { atSample s with block := afterClassify s st }
     kindOf st = .io →
     (∀ j, j ≤ bound.toNat → line (clockEdges j (ioOpen st s₁)) .iorq = true) →
      ∃ t, exec (.tick bound) s = .next t ∧
        t.block =
          { afterClassify s st with
            clkOut := levelAfter s₁ bound.toNat
            dataOut := if st.rd then dispatchByte s₁ st else s.block.dataOut
            dataDir := if st.rd then .output else s.block.dataDir
            ioackOut := true
            faultCode := 2 } ∧
        t.result = some { code := 2, toggles := some bound } ∧
        OpenedWorld s₁ t st bound.toNat ∧ SameOutside s t ∧ ∀ i, RefusedWith i t 4)

/-- R155, R156: a read dispatch that returns drove 0xFF if its port has no handler, and a write dispatch to such a
port stored nothing. That every mapped port is an input register, which a read drives, and an output register, which a
write stores exactly its byte to, is the model's reading (log 11): R157 says it of port 0x81 alone. Outside
FreeRunning mode, where the ports are as they were at the snapshot. -/
def Obligations.PortsReadAndStoreExactly : Prop :=
  ∀ (bound : BitVec 16) (s t : State) (r : Result), isFree s = false → Returns (.ioDispatch bound) s t r →
      let st := sample s
      let port := st.addr.setWidth 8
      (st.rd = true →
        (∀ p ∈ s.world.ports, (∀ q ∈ s.world.ports, q.num = p.num → q = p) → p.num = port →
          t.block.dataOut = p.inReg) ∧
        (port ∉ mappedPorts s → t.block.dataOut = 0xFF)) ∧
      (∀ q ∈ t.world.ports, ∃ p ∈ s.world.ports, q.num = p.num ∧
        q.outReg = if st.rd = false ∧ st.wr = true ∧ p.num = port then st.data else p.outReg)

/-! ### Whole-machine rules -/

/-- R13, R17 to R20, R22 to R25, R176: who writes what, register by register; a step that goes on with the wait of a
command (log 3) writes nothing but what that command may still write after its wait began; and a step that runs no
command, goes on with no wait and is no block reset writes no register. -/
def Obligations.RegistersHaveTheirWriters : Prop :=
  (∀ (i : Instr) (s t : State), exec i s = .next t →
    (t.block.prevRd ≠ s.block.prevRd ∨ t.block.prevWr ≠ s.block.prevWr → ∃ bound, i = .tick bound) ∧
    (t.block.bdPrev ≠ s.block.bdPrev ∨ t.block.bdPrev2 ≠ s.block.bdPrev2 →
      (∃ bound, i = .tick bound) ∨ (∃ byte, i = .bdClassify byte) ∨ i = .bdReset) ∧
    (t.block.logRanges ≠ s.block.logRanges ∨ t.block.brkRanges ≠ s.block.brkRanges →
      (∃ kind cat start last, i = .setRange kind cat start last) ∨ ∃ kind cat, i = .clrRange kind cat) ∧
    (t.block.dataOut ≠ s.block.dataOut → (∃ bound, i = .tick bound) ∨ ∃ bound, i = .ioDispatch bound) ∧
    (t.block.resetOut ≠ s.block.resetOut → ∃ v, i = .lineSet .reset v) ∧
    (t.block.intOut ≠ s.block.intOut → ∃ v, i = .lineSet .int v) ∧
    (t.block.nmiOut ≠ s.block.nmiOut → ∃ v, i = .lineSet .nmi v) ∧
    (t.block.lastStatus ≠ s.block.lastStatus →
      i = .sample ∨ (∃ bound, i = .tick bound) ∨ ∃ bound, i = .ioDispatch bound) ∧
    (t.block.ioackOut ≠ s.block.ioackOut →
      (∃ bound, i = .acquire bound) ∨ (∃ bound, i = .tick bound) ∨ (∃ bound, i = .ioDispatch bound) ∨
        ∃ v, i = .lineSet .ioack v) ∧
    (t.block.addrDir ≠ s.block.addrDir ∨ t.block.ctrlDir ≠ s.block.ctrlDir →
      i = .release ∨ ∃ bound, i = .acquire bound) ∧
    (t.block.dataDir ≠ s.block.dataDir →
      i = .release ∨ (∃ bound, i = .acquire bound) ∨ (∃ bound, i = .tick bound) ∨ ∃ bound, i = .ioDispatch bound) ∧
    (t.block.ownership ≠ s.block.ownership ∨ t.block.busrqOut ≠ s.block.busrqOut →
      i = .release ∨ ∃ bound, i = .acquire bound) ∧
    (t.block.faultCode ≠ s.block.faultCode →
      (∃ bound, i = .acquire bound) ∨ (∃ bound, i = .tick bound) ∨ ∃ bound, i = .ioDispatch bound) ∧
    (t.block.clkOut ≠ s.block.clkOut ∨ t.block.clockMode ≠ s.block.clockMode →
      i = .clkRun ∨ i = .clkStop ∨ (∃ n, i = .clkCycle n) ∨ i = .clkStep ∨ (∃ bound, i = .acquire bound) ∨
        (∃ bound, i = .tick bound) ∨ ∃ bound, i = .ioDispatch bound)) ∧
  (∀ (s t : State) (w : Waiting), s.waiting = some w → step s = .next t →
    (w.job = .acquire →
      t.block =
        { s.block with
          clkOut := t.block.clkOut
          clockMode := t.block.clockMode
          addrDir := t.block.addrDir
          ctrlDir := t.block.ctrlDir
          dataDir := t.block.dataDir
          ownership := t.block.ownership }) ∧
    (w.job ≠ .acquire →
      t.block =
        { s.block with
          clkOut := t.block.clkOut
          clockMode := t.block.clockMode
          dataDir := t.block.dataDir
          ioackOut := t.block.ioackOut })) ∧
  ∀ s t : State, s.waiting = none → (∀ word rest, s.inputs ≠ .command word :: rest) →
    (∀ rest, s.inputs ≠ .blockReset :: rest) → step s = .next t → t.block = s.block

/-- R41: no command of the block writes the CPU's memory, in its own step or in a step that goes on with its wait (log
3). What is in memory afterwards, byte for byte, is what the CPU's own stores put there in the moves that the
environment made meanwhile; how many those were shows in the moves left (log 1). -/
def Obligations.NoCommandWritesMemory : Prop :=
  ∀ s t : State, (∃ i, exec i s = .next t) ∨ (s.waiting ≠ none ∧ step s = .next t) →
    ∃ n, t.world.reactions = s.world.reactions.drop n ∧
      t.world.choices = s.world.choices + (n - s.world.reactions.length) ∧
      t.world.mem = (World.moves n s.world).mem ∧
      ∀ a, Memory.read t.world.mem a = Memory.read (World.moves n s.world).mem a

/-- R41: no command of the block reads the CPU's memory, in its own step or in a step that goes on with its wait (log
3): two machines that differ in it alone answer alike. -/
def Obligations.NoCommandReadsMemory : Prop :=
  ∀ (s t : State) (m : List Host.Cell),
    let alike (u : State) : Prop :=
      u.block = t.block ∧ u.result = t.result ∧ u.waiting = t.waiting ∧ u.world.lines = t.world.lines ∧
        u.world.ports = t.world.ports
    (∀ i, exec i s = .next t → ∃ u, exec i { s with world := { s.world with mem := m } } = .next u ∧ alike u) ∧
    (s.waiting ≠ none → step s = .next t →
      ∃ u, step { s with world := { s.world with mem := m } } = .next u ∧ alike u)

/-! ### The memory path and the pseudo-instructions -/

/-- R160: under SupervisorOwned MemWrite stores its byte and no other, MemRead returns the byte at its address, and
neither changes a register of the block. The memory is as the environment has left it when the access comes: in
FreeRunning mode it has moved meanwhile, which the model shows as one move (log 2, the model's choice). That an access
leaves every other byte is the model's reading of R160 and R12 (log 14). -/
def Obligations.MemoryPathKeepsItsContract : Prop :=
  ∀ (s : State) (rest : List Input) (a : Addr), s.waiting = none → MemoryIsCanonical s →
    s.block.ownership = .supervisorOwned →
    let mem := (World.moves (stirs false s) s.world).mem
    (∀ v, s.inputs = .memWrite a v :: rest →
      ∃ t, step s = .next t ∧ t.block = s.block ∧ t.inputs = rest ∧
        ∀ c, Memory.read t.world.mem c = if c = a then v else Memory.read mem c) ∧
    (s.inputs = .memRead a :: rest →
      ∃ t, step s = .next t ∧ t.block = s.block ∧ t.inputs = rest ∧ t.world.mem = mem ∧
        t.memReply = some (Memory.read mem a))

/-- R162, R68: CPU_RESET with another target than the default vector first writes the three bytes of the jump, before
any command is sent; with the default vector it writes nothing. That the three accesses leave every other byte is the
model's reading of the memory path (log 14). -/
def Obligations.CpuResetInstallsTheJumpFirst : Prop :=
  (∀ (s : State) (target : Addr), target ≠ 0x0000 → s.waiting = none → MemoryIsCanonical s →
    s.block.ownership = .supervisorOwned → isFree s = false →
      ∃ t, Reaches (s.withActs (cpuReset target)) 3 t ∧ t.block = s.block ∧
        t.inputs = cpuReset 0x0000 ++ s.inputs ∧
        ∀ c, Memory.read t.world.mem c =
          if c = 0 then 0xC3 else if c = 1 then target.setWidth 8
          else if c = 2 then (target >>> 8).setWidth 8 else Memory.read s.world.mem c) ∧
  ∀ act ∈ cpuReset 0x0000, ∃ i, act = .command (encode i)

/-- R196: CPU_RESET changes no register of the block but `reset_out` and `ioack_out`, both 0 at its end, `clk_out`,
which ends 0, and `clock_mode`, which ends SingleStep. -/
def Obligations.CpuResetChangesOnlyItsRegisters : Prop :=
  ∀ (s : State) (target : Addr), Live s → s.waiting = none → isFree s = false →
    ∃ t, Reaches (s.withActs (cpuReset target)) (cpuReset target).length t ∧
      t.block = { s.block with resetOut := false, ioackOut := false, clkOut := false, clockMode := .singleStep } ∧
      t.inputs = s.inputs ∧ t.waiting = none

/-- R163: with `halt` asserted the trace loop ends at once, with no instruction counted. -/
def Obligations.HaltEndsTheTraceAtOnce : Prop :=
  ∀ (s : State) (limit : Nat), Live s → s.waiting = none →
    (World.moves (stirs false s) s.world).lines.halt = true →
      ∃ t, traceStep (Trace.start limit) s = .ended (Trace.start limit) ⟨true, false, false⟩ t

/-- R163: a trace starts within its limit; one that is within its limit and ends has the limit as a reason exactly if
it has counted that many opcode fetches, and has never counted more. The count goes up by one exactly at a tick of the
loop in which OPFETCH fired (bit 5), and the break flag is that tick's `break_hit`. A loop that ends has Break as a
reason exactly if the flag is set, and one whose flag is set ends at its next test. R207: no act ends the loop but
with one of its three conditions as a reason. The model's choices (log 16): no other act changes the count or the
flag, those of the disassembler's own ticks included; and a tick that came back refused is no break and no opcode
fetch. -/
def Obligations.TraceCountsUpToItsLimit : Prop :=
  (∀ limit, TraceWithinLimit (Trace.start limit)) ∧
  (∀ (n : Nat) (s u : State) (t₀ t : Trace) (why : TraceReasons),
    TraceWithinLimit t₀ → traceRun n t₀ s = .ended t why u →
      t.limit = t₀.limit ∧ (why.limit = true ↔ t.limit ≠ 0 ∧ t.count = t.limit) ∧
      (t.limit ≠ 0 → t.count ≤ t.limit)) ∧
  (∀ (s₀ s : State) (r : Result) (t : Trace),
    TickReturns 0 s₀ s r → s.waiting = none → t.phase = .ticking →
      ∃ f u s', r.fired = some f ∧ traceStep t s = .goOn u s' ∧ u.limit = t.limit ∧
        u.count = t.count + (f.getLsbD 5).toNat ∧ r.breakHit = some u.brk) ∧
  (∀ (s s' : State) (t u : Trace), traceStep t s = .goOn u s' → s.waiting ≠ none ∨ t.phase ≠ .ticking →
    u.limit = t.limit ∧ u.count = t.count ∧ u.brk = t.brk) ∧
  (∀ (s s' : State) (t u : Trace) (why : TraceReasons), traceStep t s = .ended u why s' →
    u = t ∧ (why.brk = true ↔ t.brk = true)) ∧
  (∀ (s : State) (t : Trace), Live s → s.waiting = none → t.phase = .testing → t.brk = true →
    ∃ why s', traceStep t s = .ended t why s' ∧ why.brk = true) ∧
  (∀ (s : State) (r : Result) (t : Trace),
    s.waiting = none → s.result = some r → r.code ≠ 0 → t.phase = .ticking →
      traceStep t s = .goOn { t with brk := false, phase := .testing } s) ∧
  (∀ (s : State) (t : Trace),
    (∃ u s', traceStep t s = .goOn u s') ∨
    ∃ why s', traceStep t s = .ended t why s' ∧ (why.halt = true ∨ why.limit = true ∨ why.brk = true))

/-! ### The detector's rule table -/

/-- R115: the verdict of `BdClassify(cur)` by the four branches of the rule, from the byte classified and the two
retained bytes; only the third branch looks at the byte classified; the update of the two bytes, whatever the
verdict. -/
def Obligations.DetectorFollowsItsFourBranches : Prop :=
  ∀ (cur : Byte) (b : Block),
    let p1 := b.bdPrev
    let p2 := b.bdPrev2
    (boundaryVerdict cur b = true ↔
      if p1 = 0xCB then p2 = 0xCB ∨ p2 = 0xDD ∨ p2 = 0xFD
      else if p1 = 0xED then p2 = 0xCB
      else if p1 = 0xDD ∨ p1 = 0xFD then p2 = 0xCB ∨ cur = 0xDD ∨ cur = 0xED ∨ cur = 0xFD
      else True) ∧
    (∀ other, p1 ≠ 0xDD → p1 ≠ 0xFD → boundaryVerdict other b = boundaryVerdict cur b) ∧
    boundaryShift cur b = { b with bdPrev2 := p1, bdPrev := cur }
end

