-- ==== Sys2Proof/Laws/Fields.lean ====
section
/-! SUPPORT. The fields of a command word (spec/30_encoding.md R60): a word is its four fields and they are read back
as written. -/

namespace Sys2Proof

/-- Which field each bit of a word belongs to (R60). -/
theorem CmdWord.getLsbD_ofFields (op sub : BitVec 4) (a b : BitVec 16) (j : Nat) :
    (CmdWord.ofFields op sub a b).getLsbD j =
      if j < 16 then b.getLsbD j else if j < 32 then a.getLsbD (j - 16)
      else if j < 36 then sub.getLsbD (j - 32) else op.getLsbD (j - 36) := by
  simp only [CmdWord.ofFields, BitVec.getLsbD_append]
  split
  · rfl
  · split
    · rw [if_pos (by omega)]
    · split
      · rw [if_neg (by omega), if_pos (by omega), show j - 16 - 16 = j - 32 by omega]
      · rw [if_neg (by omega), if_neg (by omega), show j - 16 - 16 - 4 = j - 36 by omega]

@[simp] theorem CmdWord.op_ofFields (op sub : BitVec 4) (a b : BitVec 16) :
    CmdWord.op (CmdWord.ofFields op sub a b) = op := by
  apply BitVec.eq_of_getLsbD_eq
  intro j hj
  rw [CmdWord.op, BitVec.getLsbD_extractLsb', CmdWord.getLsbD_ofFields, if_neg (by omega), if_neg (by omega),
    if_neg (by omega), show 36 + j - 36 = j by omega]
  simp [hj]

@[simp] theorem CmdWord.sub_ofFields (op sub : BitVec 4) (a b : BitVec 16) :
    CmdWord.sub (CmdWord.ofFields op sub a b) = sub := by
  apply BitVec.eq_of_getLsbD_eq
  intro j hj
  rw [CmdWord.sub, BitVec.getLsbD_extractLsb', CmdWord.getLsbD_ofFields, if_neg (by omega), if_neg (by omega),
    if_pos (by omega), show 32 + j - 32 = j by omega]
  simp [hj]

@[simp] theorem CmdWord.a_ofFields (op sub : BitVec 4) (a b : BitVec 16) :
    CmdWord.a (CmdWord.ofFields op sub a b) = a := by
  apply BitVec.eq_of_getLsbD_eq
  intro j hj
  rw [CmdWord.a, BitVec.getLsbD_extractLsb', CmdWord.getLsbD_ofFields, if_neg (by omega), if_pos (by omega),
    show 16 + j - 16 = j by omega]
  simp [hj]

@[simp] theorem CmdWord.b_ofFields (op sub : BitVec 4) (a b : BitVec 16) :
    CmdWord.b (CmdWord.ofFields op sub a b) = b := by
  apply BitVec.eq_of_getLsbD_eq
  intro j hj
  rw [CmdWord.b, BitVec.getLsbD_extractLsb', CmdWord.getLsbD_ofFields, if_pos (by omega), Nat.zero_add]
  simp [hj]

/-- A word is the word of its fields. -/
theorem CmdWord.ofFields_fields (w : CmdWord) :
    CmdWord.ofFields (CmdWord.op w) (CmdWord.sub w) (CmdWord.a w) (CmdWord.b w) = w := by
  apply BitVec.eq_of_getLsbD_eq
  intro j hj
  simp only [CmdWord.getLsbD_ofFields, CmdWord.op, CmdWord.sub, CmdWord.a, CmdWord.b, BitVec.getLsbD_extractLsb']
  split_ifs with h1 h2 h3
  · simp [h1]
  · rw [show 16 + (j - 16) = j by omega]; simp; omega
  · rw [show 32 + (j - 32) = j by omega]; simp; omega
  · rw [show 36 + (j - 36) = j by omega]; simp; omega

/-- Masking a word masks its fields. -/
theorem CmdWord.ofFields_and (op op' sub sub' : BitVec 4) (a a' b b' : BitVec 16) :
    CmdWord.ofFields op sub a b &&& CmdWord.ofFields op' sub' a' b' =
      CmdWord.ofFields (op &&& op') (sub &&& sub') (a &&& a') (b &&& b') := by
  apply BitVec.eq_of_getLsbD_eq
  intro j hj
  simp only [BitVec.getLsbD_and, CmdWord.getLsbD_ofFields]
  split_ifs <;> rfl

/-- Words with equal fields are equal, and no others. -/
theorem CmdWord.ofFields_inj (op op' sub sub' : BitVec 4) (a a' b b' : BitVec 16) :
    CmdWord.ofFields op sub a b = CmdWord.ofFields op' sub' a' b' ↔ op = op' ∧ sub = sub' ∧ a = a' ∧ b = b' := by
  constructor
  · intro h
    exact ⟨by simpa using congrArg CmdWord.op h, by simpa using congrArg CmdWord.sub h,
      by simpa using congrArg CmdWord.a h, by simpa using congrArg CmdWord.b h⟩
  · rintro ⟨rfl, rfl, rfl, rfl⟩
    rfl

/-- A word has the pattern of a mask exactly if its fields do. -/
theorem CmdWord.and_eq_iff (w : CmdWord) (op op' sub sub' : BitVec 4) (a a' b b' : BitVec 16) :
    w &&& CmdWord.ofFields op' sub' a' b' = CmdWord.ofFields op sub a b ↔
      CmdWord.op w &&& op' = op ∧ CmdWord.sub w &&& sub' = sub ∧ CmdWord.a w &&& a' = a ∧ CmdWord.b w &&& b' = b := by
  conv_lhs => rw [← CmdWord.ofFields_fields w]
  rw [CmdWord.ofFields_and, CmdWord.ofFields_inj]

end Sys2Proof
end

