-- ==== Sys2Proof/Laws/State.lean ====
section
/-! SUPPORT. What each named update of the state does to each field, and what a move of the environment does to each
field of the world: all true by unfolding. -/

namespace Sys2Proof.Machine

@[simp] theorem State.setBlock_block (s : State) (b : Block) : (s.setBlock b).block = b := rfl
@[simp] theorem State.setBlock_world (s : State) (b : Block) : (s.setBlock b).world = s.world := rfl
@[simp] theorem State.setBlock_inputs (s : State) (b : Block) : (s.setBlock b).inputs = s.inputs := rfl
@[simp] theorem State.setBlock_waiting (s : State) (b : Block) : (s.setBlock b).waiting = s.waiting := rfl
@[simp] theorem State.setBlock_result (s : State) (b : Block) : (s.setBlock b).result = s.result := rfl
@[simp] theorem State.setBlock_memReply (s : State) (b : Block) : (s.setBlock b).memReply = s.memReply := rfl

@[simp] theorem State.stir_block (s : State) (n : Nat) : (s.stir n).block = s.block := rfl
@[simp] theorem State.stir_world (s : State) (n : Nat) : (s.stir n).world = World.moves n s.world := rfl
@[simp] theorem State.stir_inputs (s : State) (n : Nat) : (s.stir n).inputs = s.inputs := rfl
@[simp] theorem State.stir_waiting (s : State) (n : Nat) : (s.stir n).waiting = s.waiting := rfl
@[simp] theorem State.stir_result (s : State) (n : Nat) : (s.stir n).result = s.result := rfl
@[simp] theorem State.stir_memReply (s : State) (n : Nat) : (s.stir n).memReply = s.memReply := rfl

@[simp] theorem State.setPorts_block (s : State) (p : List PortReg) : (s.setPorts p).block = s.block := rfl
@[simp] theorem State.setPorts_world (s : State) (p : List PortReg) : (s.setPorts p).world = { s.world with ports := p } := rfl
@[simp] theorem State.setPorts_inputs (s : State) (p : List PortReg) : (s.setPorts p).inputs = s.inputs := rfl
@[simp] theorem State.setPorts_waiting (s : State) (p : List PortReg) : (s.setPorts p).waiting = s.waiting := rfl
@[simp] theorem State.setPorts_result (s : State) (p : List PortReg) : (s.setPorts p).result = s.result := rfl
@[simp] theorem State.setPorts_memReply (s : State) (p : List PortReg) : (s.setPorts p).memReply = s.memReply := rfl

@[simp] theorem State.answer_block (s : State) (r : Result) : (s.answer r).block = s.block := rfl
@[simp] theorem State.answer_world (s : State) (r : Result) : (s.answer r).world = s.world := rfl
@[simp] theorem State.answer_inputs (s : State) (r : Result) : (s.answer r).inputs = s.inputs := rfl
@[simp] theorem State.answer_waiting (s : State) (r : Result) : (s.answer r).waiting = s.waiting := rfl
@[simp] theorem State.answer_result (s : State) (r : Result) : (s.answer r).result = some r := rfl
@[simp] theorem State.answer_memReply (s : State) (r : Result) : (s.answer r).memReply = s.memReply := rfl

@[simp] theorem State.suspend_block (s : State) (w : Waiting) : (s.suspend w).block = s.block := rfl
@[simp] theorem State.suspend_world (s : State) (w : Waiting) : (s.suspend w).world = s.world := rfl
@[simp] theorem State.suspend_inputs (s : State) (w : Waiting) : (s.suspend w).inputs = s.inputs := rfl
@[simp] theorem State.suspend_waiting (s : State) (w : Waiting) : (s.suspend w).waiting = some w := rfl
@[simp] theorem State.suspend_result (s : State) (w : Waiting) : (s.suspend w).result = none := rfl
@[simp] theorem State.suspend_memReply (s : State) (w : Waiting) : (s.suspend w).memReply = s.memReply := rfl

@[simp] theorem State.unsuspend_block (s : State) : (s.unsuspend).block = s.block := rfl
@[simp] theorem State.unsuspend_world (s : State) : (s.unsuspend).world = s.world := rfl
@[simp] theorem State.unsuspend_inputs (s : State) : (s.unsuspend).inputs = s.inputs := rfl
@[simp] theorem State.unsuspend_waiting (s : State) : (s.unsuspend).waiting = none := rfl
@[simp] theorem State.unsuspend_result (s : State) : (s.unsuspend).result = s.result := rfl
@[simp] theorem State.unsuspend_memReply (s : State) : (s.unsuspend).memReply = s.memReply := rfl

@[simp] theorem World.moves_zero (w : World) : World.moves 0 w = w := rfl

@[simp] theorem World.moves_succ (n : Nat) (w : World) : World.moves (n + 1) w = World.moves n w.move := rfl

theorem World.moves_add (m n : Nat) (w : World) : World.moves (m + n) w = World.moves n (World.moves m w) := by
  induction m generalizing w with
  | zero => simp
  | succ m ih => rw [Nat.succ_add]; simp [ih]

@[simp] theorem World.apply_reactions (w : World) (m : EnvMove) : (w.apply m).reactions = w.reactions := rfl
@[simp] theorem World.apply_choices (w : World) (m : EnvMove) : (w.apply m).choices = w.choices := rfl
@[simp] theorem World.apply_lines (w : World) (m : EnvMove) : (w.apply m).lines = m.lines := rfl
@[simp] theorem World.apply_mst (w : World) (m : EnvMove) : (w.apply m).mst = m.mst := rfl
@[simp] theorem World.apply_mem (w : World) (m : EnvMove) : (w.apply m).mem = Memory.store w.mem m.writes := rfl
@[simp] theorem World.apply_ports (w : World) (m : EnvMove) :
    (w.apply m).ports = portsReceive w.ports m.portIn := rfl

/-- A listed move is the one the environment makes. -/
theorem World.move_listed (w : World) (m : EnvMove) (rest : List EnvMove) (h : w.reactions = m :: rest) :
    w.move = World.apply { w with reactions := rest } m := by
  simp [World.move, h]

/-- After the last listed move the environment's moves are free. -/
theorem World.move_free (w : World) (h : w.reactions = []) :
    w.move = World.apply { w with choices := w.choices + 1 } (Config.envMove w.choices) := by
  simp [World.move, h]

/-- A move uses up one listed move, if there is one. -/
theorem World.move_reactions (w : World) : w.move.reactions = w.reactions.tail := by
  cases h : w.reactions with
  | nil => simp [World.move_free w h, h]
  | cons m rest => simp [World.move_listed w m rest h]

/-- `n` moves use up the first `n` listed moves. -/
theorem World.moves_reactions (n : Nat) (w : World) : (World.moves n w).reactions = w.reactions.drop n := by
  induction n generalizing w with
  | zero => simp
  | succ n ih => simp [ih, World.move_reactions]

end Sys2Proof.Machine
end

