-- ==== Sys2Proof/Laws/Memory.lean ====
section
/-! SUPPORT. The laws of the external CPU's memory: what a store leaves at every address, and that every operation
on memory keeps the canonical form, so that equal memories are equal data. -/

namespace Sys2Proof.Machine

theorem Memory.get_put (m : List Host.Cell) (lo a c : Nat) (v : Byte) (h : Memory.wfFrom lo m = true) :
    Memory.get (Memory.put m a v) c = if c = a then v else Memory.get m c := by
  induction m generalizing lo with
  | nil => by_cases hv : v = Memory.unlisted <;> by_cases hc : c = a <;> simp_all [Memory.put, Memory.get]
  | cons cell rest ih =>
    obtain ⟨b, u⟩ := cell
    simp only [Memory.wfFrom, Bool.and_eq_true, decide_eq_true_eq] at h
    obtain ⟨⟨⟨-, -⟩, -⟩, hrest⟩ := h
    have hlow : ∀ d, d ≤ b → Memory.get rest d = Memory.unlisted := by
      clear ih
      intro d hd
      generalize hlo' : b + 1 = lo' at hrest
      have hd' : d < lo' := by omega
      clear hlo' hd
      induction rest generalizing lo' with
      | nil => rfl
      | cons cell rest ih =>
        obtain ⟨e, x⟩ := cell
        simp only [Memory.wfFrom, Bool.and_eq_true, decide_eq_true_eq] at hrest
        obtain ⟨⟨⟨he, -⟩, -⟩, hr⟩ := hrest
        have : d ≠ e := by omega
        simpa [Memory.get, this] using ih (e + 1) hr (by omega)
    simp only [Memory.put]
    split
    · rename_i hab
      split
      · rename_i hv
        subst hv
        by_cases hc : c = a
        · subst hc
          have : c ≠ b := by omega
          simp [Memory.get, this, hlow c (by omega)]
        · simp [hc]
      · by_cases hc : c = a <;> simp [Memory.get, hc]
    · split
      · rename_i hab
        subst hab
        split
        · rename_i hv
          subst hv
          by_cases hc : c = a
          · simp [hc, hlow a (Nat.le_refl a)]
          · simp [Memory.get, hc]
        · by_cases hc : c = a <;> simp [Memory.get, hc]
      · rename_i hab
        by_cases hcb : c = b
        · have : c ≠ a := by omega
          simp [Memory.get, hcb]
          intro h; omega
        · simp [Memory.get, hcb, ih (b + 1) hrest]

theorem Memory.wfFrom_mono {lo lo' : Nat} (hle : lo' ≤ lo) {m : List Host.Cell} (h : Memory.wfFrom lo m = true) :
    Memory.wfFrom lo' m = true := by
  cases m with
  | nil => rfl
  | cons cell rest =>
    simp only [Memory.wfFrom, Bool.and_eq_true, decide_eq_true_eq] at h ⊢
    exact ⟨⟨⟨by omega, h.1.1.2⟩, h.1.2⟩, h.2⟩

theorem Memory.wfFrom_put (m : List Host.Cell) (lo a : Nat) (v : Byte) (hlo : lo ≤ a) (ha : a < 65536)
    (h : Memory.wfFrom lo m = true) : Memory.wfFrom lo (Memory.put m a v) = true := by
  induction m generalizing lo with
  | nil => by_cases hv : v = Memory.unlisted <;> simp [Memory.put, Memory.wfFrom, hv, hlo, ha]
  | cons cell rest ih =>
    obtain ⟨b, u⟩ := cell
    have h0 := h
    simp only [Memory.wfFrom, Bool.and_eq_true, decide_eq_true_eq] at h
    obtain ⟨⟨⟨h1, h2⟩, h3⟩, h4⟩ := h
    simp only [Memory.put]
    split
    · split
      · exact h0
      · rename_i hab hv
        simp [Memory.wfFrom, hlo, ha, hv, h2, h4]
        exact ⟨by omega, by simpa using h3⟩
    · split
      · rename_i hab
        subst hab
        split
        · exact Memory.wfFrom_mono (by omega) h4
        · rename_i hv
          simp [Memory.wfFrom, hlo, ha, hv, h4]
      · rename_i h5 h6
        simp only [Memory.wfFrom, Bool.and_eq_true, decide_eq_true_eq]
        exact ⟨⟨⟨h1, h2⟩, h3⟩, ih (b + 1) (by omega) h4⟩

/-- What a stored byte leaves at every address of the memory space. -/
theorem Memory.read_write (m : List Host.Cell) (a c : Addr) (v : Byte) (h : Memory.wf m = true) :
    Memory.read (Memory.write m a v) c = if c = a then v else Memory.read m c := by
  have := Memory.get_put m 0 a.toNat c.toNat v h
  simpa [Memory.read, Memory.write, BitVec.toNat_inj] using this

/-- A store keeps the canonical form. -/
theorem Memory.wf_write (m : List Host.Cell) (a : Addr) (v : Byte) (h : Memory.wf m = true) :
    Memory.wf (Memory.write m a v) = true :=
  Memory.wfFrom_put m 0 a.toNat v (Nat.zero_le _) a.isLt h

/-- Any number of stores keeps the canonical form. -/
theorem Memory.wf_store (m : List Host.Cell) (ws : List (Addr × Byte)) (h : Memory.wf m = true) :
    Memory.wf (Memory.store m ws) = true := by
  induction ws generalizing m with
  | nil => exact h
  | cons w ws ih => exact ih _ (Memory.wf_write m w.1 w.2 h)

/-- Two memories in canonical form that read alike are the same list. -/
theorem Memory.wfFrom_ext (m₁ m₂ : List Host.Cell) (lo : Nat) (h₁ : Memory.wfFrom lo m₁ = true)
    (h₂ : Memory.wfFrom lo m₂ = true) (h : ∀ a, a < 65536 → Memory.get m₁ a = Memory.get m₂ a) : m₁ = m₂ := by
  have low : ∀ (m : List Host.Cell) (lo a : Nat), Memory.wfFrom lo m = true → a < lo →
      Memory.get m a = Memory.unlisted := by
    intro m
    induction m with
    | nil => intros; rfl
    | cons cell rest ih =>
      obtain ⟨b, u⟩ := cell
      intro lo a hw ha
      simp only [Memory.wfFrom, Bool.and_eq_true, decide_eq_true_eq] at hw
      obtain ⟨⟨⟨h1, -⟩, -⟩, h4⟩ := hw
      have : a ≠ b := by omega
      simpa [Memory.get, this] using ih (b + 1) a h4 (by omega)
  induction m₁ generalizing m₂ lo with
  | nil =>
    cases m₂ with
    | nil => rfl
    | cons cell rest =>
      obtain ⟨b, u⟩ := cell
      simp only [Memory.wfFrom, Bool.and_eq_true, decide_eq_true_eq] at h₂
      obtain ⟨⟨⟨-, hb⟩, hu⟩, -⟩ := h₂
      have := h b hb
      simp [Memory.get] at this
      simp [this] at hu
  | cons cell rest ih =>
    obtain ⟨b, u⟩ := cell
    have w₁ := h₁
    simp only [Memory.wfFrom, Bool.and_eq_true, decide_eq_true_eq] at h₁
    obtain ⟨⟨⟨hlo, hb⟩, hu⟩, hrest⟩ := h₁
    have hu' : u ≠ Memory.unlisted := by simpa using hu
    cases m₂ with
    | nil =>
      have := h b hb
      simp [Memory.get] at this
      exact absurd this hu'
    | cons cell₂ rest₂ =>
      obtain ⟨b₂, u₂⟩ := cell₂
      have w₂ := h₂
      simp only [Memory.wfFrom, Bool.and_eq_true, decide_eq_true_eq] at h₂
      obtain ⟨⟨⟨hlo₂, hb₂⟩, hu₂⟩, hrest₂⟩ := h₂
      have hu₂' : u₂ ≠ Memory.unlisted := by simpa using hu₂
      have hbb : b = b₂ := by
        rcases Nat.lt_trichotomy b b₂ with hlt | heq | hgt
        · have e := h b hb
          have hne : b ≠ b₂ := by omega
          simp only [Memory.get, if_true, hne, if_false] at e
          exact absurd (e.trans (low rest₂ _ b hrest₂ (by omega))) hu'
        · exact heq
        · have e := h b₂ hb₂
          have hne : b₂ ≠ b := by omega
          simp only [Memory.get, if_true, hne, if_false] at e
          exact absurd (e.symm.trans (low rest _ b₂ hrest (by omega))) hu₂'
      subst hbb
      have huu : u = u₂ := by simpa [Memory.get] using h b hb
      subst huu
      congr 1
      refine ih rest₂ (b + 1) hrest hrest₂ fun a ha => ?_
      by_cases hab : a = b
      · subst hab
        rw [low rest _ a hrest (by omega), low rest₂ _ a hrest₂ (by omega)]
      · simpa [Memory.get, hab] using h a ha

/-- A move of the environment keeps the canonical form of the memory. -/
theorem World.wf_move (w : World) (h : Memory.wf w.mem = true) : Memory.wf w.move.mem = true := by
  unfold World.move
  split <;> exact Memory.wf_store _ _ h

/-- Any number of moves of the environment keeps the canonical form of the memory. -/
theorem World.wf_moves (n : Nat) (w : World) (h : Memory.wf w.mem = true) :
    Memory.wf (World.moves n w).mem = true := by
  induction n generalizing w with
  | zero => exact h
  | succ n ih => exact ih _ (World.wf_move w h)

/-- MemWrite keeps the canonical form, owned or not. -/
theorem memWrite_wf (a : Addr) (v : Byte) (s : State) (h : Memory.wf s.world.mem = true) :
    Memory.wf (memWrite a v s).world.mem = true := Memory.wf_write _ _ _ h

/-- The memory at reset is in canonical form. -/
theorem reset_memory_wf : Memory.wf State.reset.world.mem = true := rfl

end Sys2Proof.Machine
end

