-- ==== Sys2Proof/Laws/Ops.lean ====
section
/-! SUPPORT. One lemma for each shared operation and each field of the state: what it leaves there. Every operation
changes named registers of the block and lets the environment make a stated number of moves, and nothing else. -/

namespace Sys2Proof.Machine

theorem isFree_iff (s : State) : isFree s = true ↔ s.block.clockMode = .freeRunning := by simp [isFree]

theorem isFree_congr {s t : State} (h : s.block.clockMode = t.block.clockMode) : isFree s = isFree t := by
  simp [isFree, h]

theorem stirs_congr {s t : State} (h : s.block.clockMode = t.block.clockMode) (c : Bool) : stirs c s = stirs c t := by
  simp [stirs, isFree, h]

@[simp] theorem isFree_stir (s : State) (n : Nat) : isFree (s.stir n) = isFree s := rfl
@[simp] theorem isFree_answer (s : State) (r : Result) : isFree (s.answer r) = isFree s := rfl
@[simp] theorem isFree_unsuspend (s : State) : isFree s.unsuspend = isFree s := rfl
@[simp] theorem isFree_setPorts (s : State) (p : List PortReg) : isFree (s.setPorts p) = isFree s := rfl

/-! ### settle -/

@[simp] theorem settle_block (c : Bool) (s : State) : (settle c s).block = s.block := rfl
@[simp] theorem settle_world (c : Bool) (s : State) : (settle c s).world = World.moves (stirs c s) s.world := rfl
@[simp] theorem settle_inputs (c : Bool) (s : State) : (settle c s).inputs = s.inputs := rfl
@[simp] theorem settle_waiting (c : Bool) (s : State) : (settle c s).waiting = s.waiting := rfl
@[simp] theorem settle_result (c : Bool) (s : State) : (settle c s).result = s.result := rfl
@[simp] theorem settle_memReply (c : Bool) (s : State) : (settle c s).memReply = s.memReply := rfl

/-- Outside FreeRunning the environment moves only when a line has changed (R12). -/
theorem settle_false_of_clocked (s : State) (h : isFree s = false) : settle false s = s := by
  simp [settle, stirs, h, State.stir]

/-! ### Drive -/

@[simp] theorem setOutReg_clockMode (b : Block) (l : OutLine) (v : Bool) :
    (setOutReg b l v).clockMode = b.clockMode := by cases l <;> rfl
@[simp] theorem setOutReg_faultCode (b : Block) (l : OutLine) (v : Bool) :
    (setOutReg b l v).faultCode = b.faultCode := by cases l <;> rfl
@[simp] theorem outReg_setOutReg (b : Block) (l : OutLine) (v : Bool) : outReg (setOutReg b l v) l = v := by
  cases l <;> rfl

/-- Writing the value a register already holds changes nothing (R13). -/
theorem setOutReg_same (b : Block) (l : OutLine) : setOutReg b l (outReg b l) = b := by cases l <;> rfl

@[simp] theorem drive_block (l : OutLine) (v : Bool) (s : State) : (drive l v s).block = setOutReg s.block l v := rfl
@[simp] theorem drive_world (l : OutLine) (v : Bool) (s : State) :
    (drive l v s).world = World.moves (stirs (outReg s.block l != v) s) s.world := by
  simp [drive, stirs, isFree]
@[simp] theorem drive_inputs (l : OutLine) (v : Bool) (s : State) : (drive l v s).inputs = s.inputs := rfl
@[simp] theorem drive_waiting (l : OutLine) (v : Bool) (s : State) : (drive l v s).waiting = s.waiting := rfl
@[simp] theorem drive_result (l : OutLine) (v : Bool) (s : State) : (drive l v s).result = s.result := rfl
@[simp] theorem drive_memReply (l : OutLine) (v : Bool) (s : State) : (drive l v s).memReply = s.memReply := rfl
@[simp] theorem isFree_drive (l : OutLine) (v : Bool) (s : State) : isFree (drive l v s) = isFree s := by
  simp [isFree]

/-- A line driven to the value it already has produces no reaction (R13, R103). -/
theorem drive_same_of_clocked (l : OutLine) (s : State) (h : isFree s = false) :
    drive l (outReg s.block l) s = s := by
  simp [drive, setOutReg_same, settle_false_of_clocked, State.setBlock, h]

/-! ### The data lines -/

@[simp] theorem driveData_block (v : Byte) (s : State) :
    (driveData v s).block = { s.block with dataOut := v } := rfl
@[simp] theorem driveData_world (v : Byte) (s : State) :
    (driveData v s).world =
      World.moves (stirs (decide (s.block.dataDir = .output) && s.block.dataOut != v) s) s.world := rfl
@[simp] theorem driveData_inputs (v : Byte) (s : State) : (driveData v s).inputs = s.inputs := rfl
@[simp] theorem driveData_waiting (v : Byte) (s : State) : (driveData v s).waiting = s.waiting := rfl
@[simp] theorem driveData_result (v : Byte) (s : State) : (driveData v s).result = s.result := rfl
@[simp] theorem driveData_memReply (v : Byte) (s : State) : (driveData v s).memReply = s.memReply := rfl
@[simp] theorem isFree_driveData (v : Byte) (s : State) : isFree (driveData v s) = isFree s := rfl

/-! ### SetDir -/

@[simp] theorem setDirReg_clockMode (b : Block) (g : LineGroup) (d : Dir) :
    (setDirReg b g d).clockMode = b.clockMode := by cases g <;> rfl
@[simp] theorem setDirReg_faultCode (b : Block) (g : LineGroup) (d : Dir) :
    (setDirReg b g d).faultCode = b.faultCode := by cases g <;> rfl
@[simp] theorem dirReg_setDirReg (b : Block) (g : LineGroup) (d : Dir) : dirReg (setDirReg b g d) g = d := by
  cases g <;> rfl

@[simp] theorem setDir_block (g : LineGroup) (d : Dir) (s : State) : (setDir g d s).block = setDirReg s.block g d := rfl
@[simp] theorem setDir_world (g : LineGroup) (d : Dir) (s : State) :
    (setDir g d s).world = World.moves (stirs (!decide (dirReg s.block g = d)) s) s.world := by
  simp [setDir, stirs, isFree]
@[simp] theorem setDir_inputs (g : LineGroup) (d : Dir) (s : State) : (setDir g d s).inputs = s.inputs := rfl
@[simp] theorem setDir_waiting (g : LineGroup) (d : Dir) (s : State) : (setDir g d s).waiting = s.waiting := rfl
@[simp] theorem setDir_result (g : LineGroup) (d : Dir) (s : State) : (setDir g d s).result = s.result := rfl
@[simp] theorem setDir_memReply (g : LineGroup) (d : Dir) (s : State) : (setDir g d s).memReply = s.memReply := rfl
@[simp] theorem isFree_setDir (g : LineGroup) (d : Dir) (s : State) : isFree (setDir g d s) = isFree s := by
  simp [isFree]

/-! ### The clock -/

@[simp] theorem setClk_block (v : Bool) (s : State) :
    (setClk v s).block = { s.block with clkOut := v, clockMode := .singleStep } := rfl
@[simp] theorem setClk_world (v : Bool) (s : State) :
    (setClk v s).world = World.moves (stirs (s.block.clkOut != v) s) s.world := by
  simp [setClk, outReg]
@[simp] theorem setClk_inputs (v : Bool) (s : State) : (setClk v s).inputs = s.inputs := rfl
@[simp] theorem setClk_waiting (v : Bool) (s : State) : (setClk v s).waiting = s.waiting := rfl
@[simp] theorem setClk_result (v : Bool) (s : State) : (setClk v s).result = s.result := rfl
@[simp] theorem setClk_memReply (v : Bool) (s : State) : (setClk v s).memReply = s.memReply := rfl

/-- A software edge leaves the line inverted and the mode SingleStep (R90, R91). -/
theorem clockEdge_clocked (s : State) (h : isFree s = false) : clockEdge s = setClk (!s.block.clkOut) s := by
  simp [clockEdge, h]

/-- In FreeRunning mode a toggle writes nothing; the environment moves (R91). -/
theorem clockEdge_free (s : State) (h : isFree s = true) : clockEdge s = s.stir 1 := by
  simp [clockEdge, h, settle, stirs]

/-- Each toggle is one move of the environment, in every mode. -/
@[simp] theorem clockEdge_world (s : State) : (clockEdge s).world = s.world.move := by
  cases h : isFree s
  · simp [clockEdge_clocked s h, stirs]
  · simp [clockEdge_free s h]

@[simp] theorem clockEdge_inputs (s : State) : (clockEdge s).inputs = s.inputs := by
  cases h : isFree s <;> simp [clockEdge, h]
@[simp] theorem clockEdge_waiting (s : State) : (clockEdge s).waiting = s.waiting := by
  cases h : isFree s <;> simp [clockEdge, h]
@[simp] theorem clockEdge_result (s : State) : (clockEdge s).result = s.result := by
  cases h : isFree s <;> simp [clockEdge, h]
@[simp] theorem clockEdge_memReply (s : State) : (clockEdge s).memReply = s.memReply := by
  cases h : isFree s <;> simp [clockEdge, h]

/-- A toggle's effect on the block (R90, R91). -/
theorem clockEdge_block (s : State) :
    (clockEdge s).block =
      if isFree s then s.block else { s.block with clkOut := !s.block.clkOut, clockMode := .singleStep } := by
  cases h : isFree s <;> simp [clockEdge, h]

/-- A toggle neither enters nor leaves FreeRunning mode. -/
@[simp] theorem isFree_clockEdge (s : State) : isFree (clockEdge s) = isFree s := by
  cases h : isFree s
  · rw [clockEdge_clocked s h]; simp [isFree]
  · rw [clockEdge_free s h]; simpa using h

@[simp] theorem clockEdges_zero (s : State) : clockEdges 0 s = s := rfl
@[simp] theorem clockEdges_succ (n : Nat) (s : State) : clockEdges (n + 1) s = clockEdges n (clockEdge s) := rfl

/-- `n` toggles are `n` moves of the environment, in every mode. -/
theorem clockEdges_world (n : Nat) (s : State) : (clockEdges n s).world = World.moves n s.world := by
  induction n generalizing s with
  | zero => rfl
  | succ n ih => simp [ih]

/-! ### How commands end -/

@[simp] theorem refuse_block (r : Reason) (s : State) : (refuse r s).block = s.block := rfl
@[simp] theorem refuse_world (r : Reason) (s : State) : (refuse r s).world = s.world := rfl
@[simp] theorem refuse_result (r : Reason) (s : State) : (refuse r s).result = some { code := reasonCode r } := rfl
@[simp] theorem raise_world (f : BlockFault) (k : Nat) (s : State) : (raise f k s).world = s.world := rfl
@[simp] theorem raise_block (f : BlockFault) (k : Nat) (s : State) :
    (raise f k s).block = { s.block with faultCode := faultNumber f } := rfl
@[simp] theorem complete_block (s : State) : (complete s).block = s.block := rfl
@[simp] theorem complete_world (s : State) : (complete s).world = s.world := rfl
@[simp] theorem complete_result (s : State) : (complete s).result = some { code := codeOk } := rfl

/-- Every command answers a next state: a refusal and a fault of the block are results, not stops (R175 to R177). -/
theorem whenLive_next (body : State → State) (s : State) : ∃ t, whenLive body s = .next t := ⟨_, rfl⟩

/-- A live block carries the command out. -/
theorem whenLive_live (body : State → State) (s : State) (h : s.block.faultCode = 0) :
    whenLive body s = .next (body s) := by simp [whenLive, h]

/-- A faulted block refuses the command (R178). -/
theorem whenLive_faulted (body : State → State) (s : State) (h : s.block.faultCode ≠ 0) :
    whenLive body s = .next (refuse .faulted s) := by
  rw [whenLive, if_neg h]

/-! ### The wait loop -/

/-- All that a pass of the wait loop can do: it has made some number `n` of toggles, its condition failed before
each of them, and it stands at the first of: the condition holds, the bound is reached, the pass is used up (R92). -/
theorem waitLoop_cases (cond : State → Bool) (bound : BitVec 16) (fuel k : Nat) (s : State) :
    ∃ n, n ≤ fuel ∧ (∀ j, j < n → cond (clockEdges j s) = false) ∧
      ((cond (clockEdges n s) = true ∧ waitLoop cond bound fuel k s = (.done (k + n), clockEdges n s)) ∨
       (cond (clockEdges n s) = false ∧ bound ≠ 0 ∧ k + n = bound.toNat ∧
          waitLoop cond bound fuel k s = (.timeout (k + n), clockEdges n s)) ∨
       (cond (clockEdges n s) = false ∧ n = fuel ∧ ¬(bound ≠ 0 ∧ k + n = bound.toNat) ∧
          waitLoop cond bound fuel k s = (.running (k + n), clockEdges n s))) := by
  induction fuel generalizing k s with
  | zero =>
    refine ⟨0, Nat.le_refl _, by simp, ?_⟩
    cases hc : cond s
    · by_cases hb : bound ≠ 0 ∧ k = bound.toNat
      · exact .inr (.inl ⟨hc, hb.1, hb.2, by rw [waitLoop, if_neg (by simp [hc]), if_pos hb]; rfl⟩)
      · exact .inr (.inr ⟨hc, rfl, hb, by rw [waitLoop, if_neg (by simp [hc]), if_neg hb]; rfl⟩)
    · exact .inl ⟨hc, by simp [waitLoop, hc]⟩
  | succ fuel ih =>
    cases hc : cond s
    · by_cases hb : bound ≠ 0 ∧ k = bound.toNat
      · exact ⟨0, Nat.zero_le _, by simp,
          .inr (.inl ⟨hc, hb.1, hb.2, by rw [waitLoop, if_neg (by simp [hc]), if_pos hb]; rfl⟩)⟩
      · have step : waitLoop cond bound (fuel + 1) k s = waitLoop cond bound fuel (k + 1) (clockEdge s) := by
          rw [waitLoop, if_neg (by simp [hc]), if_neg hb]
        obtain ⟨n, hn, hj, h⟩ := ih (k + 1) (clockEdge s)
        have e : k + 1 + n = k + (n + 1) := by omega
        refine ⟨n + 1, by omega, ?_, ?_⟩
        · intro j hjn
          cases j with
          | zero => exact hc
          | succ j => exact hj j (by omega)
        · rw [step, clockEdges_succ, ← e]
          rcases h with h | h | h
          · exact .inl h
          · exact .inr (.inl h)
          · exact .inr (.inr ⟨h.1, by omega, h.2.2⟩)
    · exact ⟨0, Nat.zero_le _, by simp, .inl ⟨hc, by simp [waitLoop, hc]⟩⟩

/-- The loop returns `Done` at the first toggle count at which its condition holds, if the pass and the bound reach
that far (R92). -/
theorem waitLoop_done (cond : State → Bool) (bound : BitVec 16) (fuel k n : Nat) (s : State) (hn : n ≤ fuel)
    (hbound : bound = 0 ∨ k + n ≤ bound.toNat) (hnot : ∀ j, j < n → cond (clockEdges j s) = false)
    (hcond : cond (clockEdges n s) = true) :
    waitLoop cond bound fuel k s = (.done (k + n), clockEdges n s) := by
  obtain ⟨m, hm, hj, h⟩ := waitLoop_cases cond bound fuel k s
  have hle : m ≤ n := by
    by_contra hlt
    have := hj n (by omega)
    simp [hcond] at this
  rcases Nat.lt_or_eq_of_le hle with hlt | rfl
  · have hf := hnot m hlt
    rcases h with ⟨h, -⟩ | ⟨-, hb, heq, -⟩ | ⟨-, hfuel, -, -⟩
    · simp [hf] at h
    · rcases hbound with h0 | h1
      · exact absurd h0 hb
      · omega
    · omega
  · rcases h with ⟨-, h⟩ | ⟨h, -⟩ | ⟨h, -⟩
    · exact h
    · simp [hcond] at h
    · simp [hcond] at h

/-- A bounded wait whose condition fails at every test times out after exactly `bound` toggles (R92). -/
theorem waitLoop_timeout (cond : State → Bool) (bound : BitVec 16) (s : State) (hb : bound ≠ 0)
    (hnot : ∀ j, j ≤ bound.toNat → cond (clockEdges j s) = false) :
    waitLoop cond bound bound.toNat 0 s = (.timeout bound.toNat, clockEdges bound.toNat s) := by
  obtain ⟨m, hm, hj, h⟩ := waitLoop_cases cond bound bound.toNat 0 s
  have hf := hnot m hm
  rcases h with ⟨h, -⟩ | ⟨-, -, heq, h⟩ | ⟨-, hfuel, hnb, -⟩
  · simp [hf] at h
  · have : m = bound.toNat := by omega
    subst this
    simpa using h
  · exact absurd ⟨hb, by omega⟩ hnb

/-- A bounded wait is never left unfinished. -/
theorem awaitLine_bounded (cond : State → Bool) (bound : BitVec 16) (s : State) (hb : bound ≠ 0) (k : Nat) (t : State) :
    awaitLine cond bound 0 s ≠ (.running k, t) := by
  intro he
  obtain ⟨m, hm, -, h⟩ := waitLoop_cases cond bound bound.toNat 0 s
  simp only [awaitLine, waitFuel, hb, if_false] at he
  rcases h with ⟨-, h⟩ | ⟨-, -, -, h⟩ | ⟨-, hfuel, hnb, -⟩
  · rw [h] at he; cases he
  · rw [h] at he; cases he
  · exact hnb ⟨hb, by omega⟩

end Sys2Proof.Machine
end

