-- ==== Sys2Proof/Laws/PerInstr.lean ====
section
/-! SUPPORT. Families of statements about every command, one lemma for each constructor of Instr. -/

namespace Sys2Proof.Laws

/-- The command's word has the pattern and the mask of its own row of the opcode map (spec/30_encoding.md R62). -/
def OwnRow.Statement (i : Instr) : Prop := ∃ r ∈ opcodeMap, r.mnemonic = i.mnemonic ∧ r.selects (encode i) = true

/-- The word of the given fields has the pattern of a row whose mask and pattern are given by fields too. -/
theorem selects_fields (n : String) (op op' sub sub' m : BitVec 4) (a a' b b' k l : BitVec 16)
    (hop : op &&& 0xF = op') (hsub : sub &&& m = sub') (ha : a &&& k = a') (hb : b &&& l = b') :
    OpcodeRow.selects ⟨n, CmdWord.ofFields op' sub' a' b', CmdWord.ofFields 0xF m k l⟩
      (CmdWord.ofFields op sub a b) = true := by
  rw [OpcodeRow.selects, CmdWord.ofFields_and, hop, hsub, ha, hb]
  exact beq_self_eq_true _

theorem OwnRow.acquire (bound : BitVec 16) : OwnRow.Statement (.acquire bound) :=
  ⟨⟨"ACQUIRE", 0x1000000000, 0xFFFFFF0000⟩, by decide, rfl,
    selects_fields "ACQUIRE" 1 1 0 0 0xF 0 0 bound 0 0xFFFF 0 rfl rfl rfl (by simp)⟩

theorem OwnRow.release : OwnRow.Statement .release := by unfold OwnRow.Statement; decide

theorem OwnRow.clkRun : OwnRow.Statement .clkRun := by unfold OwnRow.Statement; decide

theorem OwnRow.clkStop : OwnRow.Statement .clkStop := by unfold OwnRow.Statement; decide

theorem OwnRow.clkCycle (n : BitVec 16) : OwnRow.Statement (.clkCycle n) :=
  ⟨⟨"CLK_CYCLE", 0x5000000000, 0xFFFFFF0000⟩, by decide, rfl,
    selects_fields "CLK_CYCLE" 5 5 0 0 0xF 0 0 n 0 0xFFFF 0 rfl rfl rfl (by simp)⟩

theorem OwnRow.clkStep : OwnRow.Statement .clkStep := by unfold OwnRow.Statement; decide

theorem OwnRow.sample : OwnRow.Statement .sample := by unfold OwnRow.Statement; decide

theorem OwnRow.tick (bound : BitVec 16) : OwnRow.Statement (.tick bound) :=
  ⟨⟨"TICK", 0x8000000000, 0xFFFFFF0000⟩, by decide, rfl,
    selects_fields "TICK" 8 8 0 0 0xF 0 0 bound 0 0xFFFF 0 rfl rfl rfl (by simp)⟩

theorem OwnRow.bdClassify (byte : Byte) : OwnRow.Statement (.bdClassify byte) :=
  ⟨⟨"BD_CLASSIFY", 0x9000000000, 0xFFFFFFFF00⟩, by decide, rfl,
    selects_fields "BD_CLASSIFY" 9 9 0 0 0xF 0 0 (byte.setWidth 16) 0 0xFFFF 0xFF00 rfl rfl rfl (by
      revert byte; decide)⟩

theorem OwnRow.bdReset : OwnRow.Statement .bdReset := by unfold OwnRow.Statement; decide

theorem OwnRow.setRange (kind : RangeKind) (cat : Cat) (start last : BitVec 16) :
    OwnRow.Statement (.setRange kind cat start last) :=
  ⟨⟨"SET_RANGE", 0xB000000000, 0xF000000000⟩, by decide, rfl,
    selects_fields "SET_RANGE" 0xB 0xB (rangeIndex kind cat) 0 0 start 0 last 0 0 0 rfl (by simp) (by simp)
      (by simp)⟩

theorem OwnRow.clrRange (kind : RangeKind) (cat : Cat) : OwnRow.Statement (.clrRange kind cat) := by
  cases kind <;> cases cat <;> unfold OwnRow.Statement <;> decide

theorem OwnRow.ioDispatch (bound : BitVec 16) : OwnRow.Statement (.ioDispatch bound) :=
  ⟨⟨"IO_DISPATCH", 0xD000000000, 0xFFFFFF0000⟩, by decide, rfl,
    selects_fields "IO_DISPATCH" 0xD 0xD 0 0 0xF 0 0 bound 0 0xFFFF 0 rfl rfl rfl (by simp)⟩

theorem OwnRow.lineSet (line : SetLine) (value : Bool) : OwnRow.Statement (.lineSet line value) := by
  cases line <;> cases value <;> unfold OwnRow.Statement <;> decide

end Sys2Proof.Laws
end

