-- ==== Sys2Proof/Laws/Ports.lean ====
section
/-! SUPPORT. The laws of the port map: which ports have a handler never changes (spec R156), a read returns the
input register, a write stores exactly its byte. -/

namespace Sys2Proof.Machine

@[simp] theorem portWrite_nums (ports : List PortReg) (p v : Byte) :
    (portWrite ports p v).map PortReg.num = ports.map PortReg.num := by
  induction ports with
  | nil => rfl
  | cons r rest ih => simp [portWrite, ih]; split <;> rfl

@[simp] theorem portReceive_nums (ports : List PortReg) (p v : Byte) :
    (portReceive ports p v).map PortReg.num = ports.map PortReg.num := by
  induction ports with
  | nil => rfl
  | cons r rest ih => simp [portReceive, ih]; split <;> rfl

@[simp] theorem portsReceive_nums (ports : List PortReg) (ws : List (Byte × Byte)) :
    (portsReceive ports ws).map PortReg.num = ports.map PortReg.num := by
  induction ws generalizing ports with
  | nil => rfl
  | cons w ws ih => simp [portsReceive, ih]

@[simp] theorem World.move_nums (w : World) : w.move.ports.map PortReg.num = w.ports.map PortReg.num := by
  unfold World.move
  split <;> simp

@[simp] theorem World.moves_nums (n : Nat) (w : World) :
    (World.moves n w).ports.map PortReg.num = w.ports.map PortReg.num := by
  induction n generalizing w with
  | zero => rfl
  | succ n ih => simp [ih]

/-- A port without a handler reads as OPEN_BUS (R156). -/
theorem portRead_unmapped (ports : List PortReg) (p : Byte) (h : p ∉ ports.map PortReg.num) :
    portRead ports p = openBus := by
  induction ports with
  | nil => rfl
  | cons r rest ih =>
    simp only [List.map_cons, List.mem_cons, not_or] at h
    simp [portRead, Ne.symm h.1, ih h.2]

/-- A write to a port without a handler is discarded (R156). -/
theorem portWrite_unmapped (ports : List PortReg) (p v : Byte) (h : p ∉ ports.map PortReg.num) :
    portWrite ports p v = ports := by
  induction ports with
  | nil => rfl
  | cons r rest ih =>
    simp only [List.map_cons, List.mem_cons, not_or] at h
    simp [portWrite, Ne.symm h.1, ih h.2]

/-- A write from the block's side changes no input register: a later read is not affected by it (R157). -/
theorem portRead_portWrite (ports : List PortReg) (p q v : Byte) :
    portRead (portWrite ports p v) q = portRead ports q := by
  induction ports with
  | nil => rfl
  | cons r rest ih =>
    by_cases hr : r.num = p <;> by_cases hq : r.num = q <;> simp_all [portWrite, portRead]

/-- What the peripheral's side wrote to an input register is what a read returns (R46, R157). -/
theorem portRead_portReceive (ports : List PortReg) (p v : Byte) (h : p ∈ ports.map PortReg.num) :
    portRead (portReceive ports p v) p = v := by
  induction ports with
  | nil => simp at h
  | cons r rest ih =>
    by_cases hr : r.num = p
    · simp [portReceive, portRead, hr]
    · have : p ∈ rest.map PortReg.num := by
        simp only [List.map_cons, List.mem_cons] at h
        exact h.resolve_left (Ne.symm hr)
      simp [portReceive, portRead, hr, ih this]

end Sys2Proof.Machine
end

