-- ==== Sys2Proof/Laws/Snapshot.lean ====
section
/-! SUPPORT. The packed form of a snapshot, bit by bit (spec/10_state.md R16): which field each bit belongs to. -/

namespace Sys2Proof.Machine

/-- Bits 15:0 are the flags, 31:16 the address, 39:32 the data byte, 47:40 the bank index. -/
theorem packStatus_getLsbD (st : Status) (i : Nat) :
    (packStatus st).getLsbD i =
      if i < 16 then (flagBits st).getLsbD i else if i < 32 then st.addr.getLsbD (i - 16)
      else if i < 40 then st.data.getLsbD (i - 32) else st.bank.getLsbD (i - 40) := by
  simp only [packStatus, BitVec.getLsbD_append]
  split
  · rfl
  · split
    · rw [if_pos (by omega)]
    · split
      · rw [if_neg (by omega), if_pos (by omega), show i - 16 - 16 = i - 32 by omega]
      · rw [if_neg (by omega), if_neg (by omega), show i - 16 - 16 - 8 = i - 40 by omega]

end Sys2Proof.Machine
end

