-- ==== Sys2Proof/Laws/Waits.lean ====
section
/-! SUPPORT. What a run of clock edges leaves in each field, what the commands that wait do before their wait begins
(spec/40_bus_arbiter.md R80, spec/46_surrounding_interfaces.md R155), and all that the steps of a wait without a bound
can do (spec/41_clock_generator.md R92; log 3). -/

namespace Sys2Proof.Machine

/-! ### Runs of clock edges -/

@[simp] theorem clockEdges_inputs (n : Nat) (s : State) : (clockEdges n s).inputs = s.inputs := by
  induction n generalizing s with
  | zero => rfl
  | succ n ih => simp [ih]

@[simp] theorem clockEdges_waiting (n : Nat) (s : State) : (clockEdges n s).waiting = s.waiting := by
  induction n generalizing s with
  | zero => rfl
  | succ n ih => simp [ih]

@[simp] theorem clockEdges_result (n : Nat) (s : State) : (clockEdges n s).result = s.result := by
  induction n generalizing s with
  | zero => rfl
  | succ n ih => simp [ih]

@[simp] theorem clockEdges_memReply (n : Nat) (s : State) : (clockEdges n s).memReply = s.memReply := by
  induction n generalizing s with
  | zero => rfl
  | succ n ih => simp [ih]

@[simp] theorem isFree_clockEdges (n : Nat) (s : State) : isFree (clockEdges n s) = isFree s := by
  induction n generalizing s with
  | zero => rfl
  | succ n ih => simp [ih]

/-- `n` toggles write the clock register and the clock mode, and nothing else of the block (R90, R91). -/
theorem clockEdges_block (n : Nat) (s : State) :
    (clockEdges n s).block = { s.block with clkOut := levelAfter s n, clockMode := modeAfter s n } := by
  induction n generalizing s with
  | zero => simp [levelAfter, modeAfter]
  | succ n ih =>
    rw [clockEdges_succ, ih]
    cases h : isFree s
    · have h' : isFree (setClk (!s.block.clkOut) s) = false := by simp [isFree]
      have hpar : (n + 1) % 2 = 1 - n % 2 := by omega
      rcases Nat.mod_two_eq_zero_or_one n with e | e <;>
        simp [levelAfter, modeAfter, h, h', clockEdge_clocked s h, hpar, e]
    · simp [levelAfter, modeAfter, h, clockEdge_free s h]

/-! ### ACQUIRE before its wait -/

@[simp] theorem acquireRequest_block (s : State) :
    (acquireRequest s).block = { s.block with busrqOut := true, ioackOut := false } := rfl
@[simp] theorem acquireRequest_inputs (s : State) : (acquireRequest s).inputs = s.inputs := rfl
@[simp] theorem acquireRequest_waiting (s : State) : (acquireRequest s).waiting = s.waiting := rfl
@[simp] theorem acquireRequest_result (s : State) : (acquireRequest s).result = s.result := rfl
@[simp] theorem acquireRequest_memReply (s : State) : (acquireRequest s).memReply = s.memReply := rfl
@[simp] theorem isFree_acquireRequest (s : State) : isFree (acquireRequest s) = isFree s := rfl

/-- The environment has answered the request and the pulse (R13, R80). -/
theorem acquireRequest_world (s : State) :
    (acquireRequest s).world = World.moves (acquireRequestMoves s) s.world := by
  have h₁ : isFree (drive .busrq true s) = isFree s := by simp
  have h₂ : isFree (drive .ioack true (drive .busrq true s)) = isFree s := by simp
  simp only [acquireRequest, drive_world, ← World.moves_add, acquireRequestMoves]
  congr 1
  simp [stirs, outReg, setOutReg, h₁, h₂]

/-! ### A dispatch before and after its wait -/

@[simp] theorem ioHandler_block (st : Status) (s : State) :
    (ioHandler st s).block =
      if st.rd then
        { s.block with
          dataOut := portRead (World.moves (stirs false s) s.world).ports (portOf st.addr), dataDir := .output }
      else s.block := by
  unfold ioHandler
  cases st.rd <;> cases st.wr <;> rfl

@[simp] theorem ioHandler_inputs (st : Status) (s : State) : (ioHandler st s).inputs = s.inputs := by
  unfold ioHandler
  cases st.rd <;> cases st.wr <;> rfl
@[simp] theorem ioHandler_waiting (st : Status) (s : State) : (ioHandler st s).waiting = s.waiting := by
  unfold ioHandler
  cases st.rd <;> cases st.wr <;> rfl
@[simp] theorem ioHandler_result (st : Status) (s : State) : (ioHandler st s).result = s.result := by
  unfold ioHandler
  cases st.rd <;> cases st.wr <;> rfl
@[simp] theorem ioHandler_memReply (st : Status) (s : State) : (ioHandler st s).memReply = s.memReply := by
  unfold ioHandler
  cases st.rd <;> cases st.wr <;> rfl

@[simp] theorem ioOpen_block (st : Status) (s : State) :
    (ioOpen st s).block = { (ioHandler st s).block with ioackOut := true } := rfl
@[simp] theorem ioOpen_inputs (st : Status) (s : State) : (ioOpen st s).inputs = s.inputs := by simp [ioOpen]
@[simp] theorem ioOpen_waiting (st : Status) (s : State) : (ioOpen st s).waiting = s.waiting := by simp [ioOpen]
@[simp] theorem ioOpen_result (st : Status) (s : State) : (ioOpen st s).result = s.result := by simp [ioOpen]
@[simp] theorem ioOpen_memReply (st : Status) (s : State) : (ioOpen st s).memReply = s.memReply := by simp [ioOpen]

@[simp] theorem ioClose_block (s : State) :
    (ioClose s).block = { s.block with dataDir := .input, ioackOut := false } := rfl
@[simp] theorem ioClose_inputs (s : State) : (ioClose s).inputs = s.inputs := rfl
@[simp] theorem ioClose_waiting (s : State) : (ioClose s).waiting = s.waiting := rfl
@[simp] theorem ioClose_result (s : State) : (ioClose s).result = s.result := rfl
@[simp] theorem ioClose_memReply (s : State) : (ioClose s).memReply = s.memReply := rfl

/-! ### A wait without a bound, step by step -/

theorem clockEdges_add (m n : Nat) (s : State) : clockEdges (m + n) s = clockEdges n (clockEdges m s) := by
  induction m generalizing s with
  | zero => simp
  | succ m ih => rw [Nat.succ_add, clockEdges_succ, clockEdges_succ, ih]

/-- The clock does not look at the wait in progress, nor at the last result. -/
theorem clockEdges_withWait (n : Nat) (s : State) (w : Option Waiting) (r : Option Result) :
    clockEdges n { s with waiting := w, result := r } = { clockEdges n s with waiting := w, result := r } := by
  induction n generalizing s with
  | zero => rfl
  | succ n ih =>
    have h : clockEdge { s with waiting := w, result := r } = { clockEdge s with waiting := w, result := r } := by
      have hf : isFree { s with waiting := w, result := r } = isFree s := rfl
      unfold clockEdge
      cases h : isFree s <;> simp only [hf, h, if_true, Bool.false_eq_true, if_false] <;> rfl
    rw [clockEdges_succ, clockEdges_succ, h, ih]

theorem clockEdges_unsuspend (n : Nat) (s : State) : clockEdges n s.unsuspend = (clockEdges n s).unsuspend := by
  refine (clockEdges_withWait n s none s.result).trans ?_
  exact congrArg (fun r => { clockEdges n s with waiting := none, result := r }) (clockEdges_result n s).symm

/-- The lines do not depend on the wait in progress. -/
@[simp] theorem iorqGone_unsuspend (s : State) : iorqGone s.unsuspend = iorqGone s := rfl
@[simp] theorem busackAsserted_unsuspend (s : State) : busackAsserted s.unsuspend = busackAsserted s := rfl

/-- A step with a wait in progress goes on with it. -/
theorem step_waiting (s : State) (w : Waiting) (h : s.waiting = some w) : step s = .next (resumeWait w s) := by
  rw [step, h]

/-- A wait without a bound that stays unanswered for the toggles of one step. -/
theorem suspend_clockEdges (s : State) (job : WaitJob) (k : Nat) :
    (clockEdges (waitToggles s) s).suspend ⟨job, k + waitToggles s⟩ = stillWaiting s job k := by
  simp [State.suspend, stillWaiting, clockEdges_block, clockEdges_world]

/-- All that one step's pass of a wait without a bound can do: it ends at the first toggle count at which its
condition holds, or it has made all its toggles in vain (R92; log 3). -/
theorem awaitLine_unbounded (cond : State → Bool) (k : Nat) (s : State) :
    (∃ n, n ≤ waitToggles s ∧ cond (clockEdges n s) = true ∧ (∀ j, j < n → cond (clockEdges j s) = false) ∧
      awaitLine cond 0 k s = (.done (k + n), clockEdges n s)) ∨
    ((∀ j, j ≤ waitToggles s → cond (clockEdges j s) = false) ∧
      awaitLine cond 0 k s = (.running (k + waitToggles s), clockEdges (waitToggles s) s)) := by
  obtain ⟨n, hn, hj, h⟩ := waitLoop_cases cond 0 (waitToggles s) k s
  rcases h with ⟨hc, h⟩ | ⟨-, hb, -⟩ | ⟨hc, rfl, -, h⟩
  · exact .inl ⟨n, hn, hc, hj, h⟩
  · exact absurd rfl hb
  · refine .inr ⟨fun j hle => ?_, h⟩
    rcases Nat.lt_or_eq_of_le hle with hlt | rfl
    · exact hj j hlt
    · exact hc

/-- A wait without a bound whose condition fails for all the toggles of one step goes on. -/
theorem awaitLine_unanswered (cond : State → Bool) (k : Nat) (s : State)
    (h : ∀ j, j ≤ waitToggles s → cond (clockEdges j s) = false) :
    awaitLine cond 0 k s = (.running (k + waitToggles s), clockEdges (waitToggles s) s) := by
  rcases awaitLine_unbounded cond k s with ⟨n, hn, hc, -⟩ | ⟨-, h'⟩
  · rw [h n hn] at hc; cases hc
  · exact h'

/-- The clock goes on where the last step of an unanswered wait has left it. -/
theorem clockEdges_suspend (j w : Nat) (s : State) (x : Waiting) (hr : s.result = none) :
    clockEdges j ((clockEdges w s.unsuspend).suspend x).unsuspend = clockEdges (w + j) s.unsuspend := by
  have h : ((clockEdges w s.unsuspend).suspend x).unsuspend = clockEdges w s.unsuspend := by
    have h₁ : (clockEdges w s.unsuspend).waiting = none := by simp [State.unsuspend]
    have h₂ : (clockEdges w s.unsuspend).result = none := by simpa [State.unsuspend] using hr
    exact congrArg₂ (fun a b => { clockEdges w s.unsuspend with waiting := a, result := b }) h₁.symm h₂.symm
  rw [h, clockEdges_add]

/-- The line `iorq` in a wait, told from the state in which the wait stands. -/
theorem iorq_clockEdges_suspend (j w : Nat) (s : State) (x : Waiting) (hr : s.result = none) :
    line (clockEdges j ((clockEdges w s.unsuspend).suspend x)) .iorq = line (clockEdges (w + j) s) .iorq := by
  have h := congrArg (line · .iorq) (clockEdges_suspend j w s x hr)
  simp only [clockEdges_unsuspend j, clockEdges_unsuspend (w + j)] at h
  exact h

/-- The test of a dispatch wait, told from the state in which the wait stands. -/
theorem iorqGone_clockEdges (j : Nat) (s : State) :
    iorqGone (clockEdges j s.unsuspend) = !line (clockEdges j s) .iorq := by
  rw [clockEdges_unsuspend]; rfl

/-- All that the steps of a dispatch wait can lead to, for either command that dispatches: the wait still goes on, or
the first toggle count at which `iorq` is gone has closed the dispatch and given its result. -/
theorem resumes_ioFinish (job : WaitJob) (report : Nat → State → State)
    (hres : ∀ k s, resumeWait ⟨job, k⟩ s = ioFinish job report (awaitLine iorqGone 0 k s.unsuspend))
    (hrep : ∀ k s, (report k s).waiting = s.waiting) (n k : Nat) (s t : State)
    (hw : s.waiting = some ⟨job, k⟩) (hr : s.result = none) (h : Resumes n s t) :
    (∃ m, ReleasesIoAfter s m ∧ t = report (k + m) (ioClose (clockEdges m s.unsuspend))) ∨
    (∃ m, (∀ j, j < m → line (clockEdges j s) .iorq = true) ∧
      t = (clockEdges m s.unsuspend).suspend ⟨job, k + m⟩) := by
  induction n generalizing k s with
  | zero =>
    refine .inr ⟨0, fun j hj => absurd hj (Nat.not_lt_zero j), ?_⟩
    subst h
    exact congrArg₂ (fun a b => { s with waiting := a, result := b }) hw hr
  | succ n ih =>
    obtain ⟨-, u, hu, ht⟩ := h
    rw [step_waiting s _ hw, hres] at hu
    obtain rfl := Host.Outcome.next.inj hu
    rcases awaitLine_unbounded iorqGone k s.unsuspend with ⟨m, -, hc, hj, ha⟩ | ⟨hj, ha⟩
    · rw [ha] at ht
      cases n with
      | zero =>
        exact .inl ⟨m, ⟨by simpa [iorqGone_clockEdges] using hc,
          fun j hjm => by simpa [iorqGone_clockEdges] using hj j hjm⟩, ht.symm⟩
      | succ n => exact absurd ((hrep _ _).trans (by simp [State.unsuspend])) ht.1
    · rw [ha] at ht
      generalize waitToggles s.unsuspend = w at ht hj
      replace ht : Resumes n ((clockEdges w s.unsuspend).suspend ⟨job, k + w⟩) t := ht
      have earlier : ∀ m j, (∀ i, i < m → line (clockEdges (w + i) s) .iorq = true) → j < w + m →
          line (clockEdges j s) .iorq = true := fun m j hm hjm => by
        rcases Nat.lt_or_ge j w with hlt | hge
        · simpa [iorqGone_clockEdges] using hj j (Nat.le_of_lt hlt)
        · obtain ⟨i, rfl⟩ := Nat.exists_eq_add_of_le hge
          exact hm i (by omega)
      rcases ih (k + w) _ rfl rfl ht with ⟨m, ⟨hm, hm'⟩, e⟩ | ⟨m, hm, e⟩
      · simp only [iorq_clockEdges_suspend _ _ _ _ hr] at hm hm'
        exact .inl ⟨w + m, ⟨hm, fun j hjm => earlier m j hm' hjm⟩, by
          rw [e, clockEdges_suspend _ _ _ _ hr, Nat.add_assoc]⟩
      · simp only [iorq_clockEdges_suspend _ _ _ _ hr] at hm
        exact .inr ⟨w + m, fun j hjm => earlier m j hm hjm, by
          rw [e, clockEdges_suspend _ _ _ _ hr, Nat.add_assoc]⟩

/-- A dispatch wait is answered in the end: if `iorq` is gone after `m` more toggles, some number of steps closes the
dispatch there and gives its result (premise P3 of R28). -/
theorem ioFinish_resumes (job : WaitJob) (report : Nat → State → State)
    (hres : ∀ k s, resumeWait ⟨job, k⟩ s = ioFinish job report (awaitLine iorqGone 0 k s.unsuspend))
    (m k : Nat) (s : State) (hw : s.waiting = some ⟨job, k⟩) (hr : s.result = none) (h : ReleasesIoAfter s m) :
    ∃ n, Resumes n s (report (k + m) (ioClose (clockEdges m s.unsuspend))) := by
  induction m using Nat.strong_induction_on generalizing k s with
  | _ m ih =>
    rcases Nat.lt_or_ge (waitToggles s.unsuspend) m with hlt | hge
    · have ha := awaitLine_unanswered iorqGone k s.unsuspend fun j hj => by
        rw [iorqGone_clockEdges, h.2 j (Nat.lt_of_le_of_lt hj hlt)]; rfl
      have hpos : 0 < waitToggles s.unsuspend := Nat.lt_of_lt_of_le Nat.zero_lt_one (Nat.le_max_left _ _)
      generalize waitToggles s.unsuspend = w at ha hlt hpos
      obtain ⟨d, rfl⟩ := Nat.exists_eq_add_of_lt hlt
      have hrel : ReleasesIoAfter ((clockEdges w s.unsuspend).suspend ⟨job, k + w⟩) (d + 1) :=
        ⟨by rw [iorq_clockEdges_suspend _ _ _ _ hr]; exact h.1,
          fun j hj => by rw [iorq_clockEdges_suspend _ _ _ _ hr]; exact h.2 _ (by omega)⟩
      obtain ⟨n, hn⟩ := ih (d + 1) (by omega) (k + w) _ rfl rfl hrel
      rw [clockEdges_suspend _ _ _ _ hr, Nat.add_assoc] at hn
      exact ⟨n + 1, by simp [hw], _, by rw [step_waiting s _ hw, hres, ha]; rfl, hn⟩
    · have ha : awaitLine iorqGone 0 k s.unsuspend = (.done (k + m), clockEdges m s.unsuspend) :=
        waitLoop_done _ _ _ _ _ _ hge (.inl rfl) (fun j hj => by rw [iorqGone_clockEdges, h.2 j hj]; rfl)
          (by rw [iorqGone_clockEdges, h.1]; rfl)
      exact ⟨1, by simp [hw], _, by rw [step_waiting s _ hw, hres, ha]; rfl, rfl⟩

end Sys2Proof.Machine
end

