-- ==== Sys2Proof/Tests/Slice0.lean ====
section
/-! SUPPORT. The model's own tests. Expected values are those of spec/95_test_vectors.md (section named at each) or of
the rule named; then, for each statement of Obligations.lean that has hypotheses, a state and operands that meet
them. -/

namespace Sys2Proof.Tests

open Sys2Proof Sys2Proof.Machine

/-! ### Helpers: the reset state with an environment in front of it -/

/-- Every line of the environment 0. -/
def quiet : CpuLines := World.atRest.lines

/-- A move of the environment that leaves these lines, and nothing else. -/
def shows (l : CpuLines) : EnvMove := { lines := l, mst := World.atRest.mst, writes := [], portIn := [] }

/-- The reset state with these lines now and these later, one entry for each move of the environment. -/
def seeing (l : CpuLines) (later : List CpuLines) : State :=
  { State.reset with world := { World.atRest with lines := l, reactions := later.map shows } }

/-- The same with other block registers. -/
def withBlock (s : State) (b : Block) : State := { s with block := b }

/-- The same with the supervisor's acts in front of it. -/
def sending (s : State) (acts : List Input) : State := { s with inputs := acts }

/-- The state a command or a step leaves; the reset state if it stops. -/
def after : Host.Outcome State Fault Refusal → State
  | .next t => t
  | .fault _ => State.reset
  | .refused _ => State.reset

/-- The external CPU has granted the bus. -/
def granted : CpuLines := { quiet with busack := true }

/-- An opcode fetch of 0x3E at 0x0100 (section 1.4). -/
def fetching : CpuLines := { quiet with m1 := true, mreq := true, rd := true, addr := 0x0100, data := 0x3E }

/-- An I/O read of port 0x81 (section 1.3). -/
def readingPort : CpuLines := { quiet with iorq := true, rd := true, addr := 0x0081 }

/-- An I/O write of 0x41 to port 0x81 (section 1.3). -/
def writingPort : CpuLines := { quiet with iorq := true, wr := true, addr := 0x0081, data := 0x41 }

/-- The external CPU reads port 0x81, whose input register holds 0x41. -/
def readingState (later : List CpuLines) : State :=
  (seeing readingPort later).setPorts [⟨0x81, 0x41, 0x00⟩]

/-- A block that a bus-acquire timeout has faulted (section 2.9). -/
def faulted : State :=
  withBlock State.reset
    { Block.reset with busrqOut := true, clkOut := true, clockMode := .singleStep, faultCode := 1 }

/-- A block in FreeRunning mode. -/
def running (s : State) : State := withBlock s { s.block with clockMode := .freeRunning }

/-- A block whose supervisor owns the bus. -/
def owner (s : State) : State :=
  withBlock s
    { s.block with busrqOut := true, ctrlDir := .output, addrDir := .output, ownership := .supervisorOwned }

/-! ### Operands that no word admits (R62, section 2.6) -/

theorem test_illFormed_iord : Instr.wellFormed (.setRange .log .iord 0x0100 0x01FF) = false := by decide

theorem test_illFormed_iowr_last : Instr.wellFormed (.setRange .brk .iowr 0x0000 0x0100) = false := by decide

theorem test_wellFormed_bounds :
    Instr.wellFormed (.setRange .brk .iord 0x00 0xFF) = true ∧
    Instr.wellFormed (.setRange .log .bus 0xFFFF 0x0000) = true := by decide

/-! ### Words (section 2.1) -/

theorem test_decode_acquire : decode 0x10000003E8 = .ok (.acquire 1000) := by decide

theorem test_decode_release : decode 0x2000000000 = .ok .release := by decide

theorem test_decode_clkRun : decode 0x3000000000 = .ok .clkRun := by decide

theorem test_decode_clkStop : decode 0x4000000000 = .ok .clkStop := by decide

theorem test_decode_clkCycle : decode 0x5000000003 = .ok (.clkCycle 3) := by decide

theorem test_decode_clkStep : decode 0x6000000000 = .ok .clkStep := by decide

theorem test_decode_sample : decode 0x7000000000 = .ok .sample := by decide

theorem test_decode_tick : decode 0x8000000008 = .ok (.tick 8) := by decide

theorem test_decode_bdClassify : decode 0x90000000CB = .ok (.bdClassify 0xCB) := by decide

theorem test_decode_bdReset : decode 0xA000000000 = .ok .bdReset := by decide

theorem test_decode_setRange :
    decode 0xB9100010FF = .ok (.setRange .brk .memrd 0x1000 0x10FF) ∧
    decode 0xB400810081 = .ok (.setRange .log .iowr 0x81 0x81) ∧
    decode 0xBD01060106 = .ok (.setRange .brk .opfetch 0x0106 0x0106) := by decide

theorem test_decode_clrRange :
    decode 0xC000000000 = .ok (.clrRange .log .bus) ∧ decode 0xCD00000000 = .ok (.clrRange .brk .opfetch) := by
  decide

theorem test_decode_ioDispatch : decode 0xD000000010 = .ok (.ioDispatch 16) := by decide

theorem test_decode_lineSet :
    decode 0xE000000001 = .ok (.lineSet .reset true) ∧ decode 0xE100000001 = .ok (.lineSet .int true) ∧
    decode 0xE200000000 = .ok (.lineSet .nmi false) ∧ decode 0xE300000001 = .ok (.lineSet .ioack true) := by
  decide

theorem test_decode_refuses :
    decode 0x0000000000 = .error .reservedOp ∧ decode 0xFFFFFFFFFF = .error .reservedOp ∧
    decode 0x1100000000 = .error .nonzeroSub ∧ decode 0x5000010003 = .error .nonzeroA ∧
    decode 0x9000000100 = .error .nonzeroB ∧ decode 0xB700000000 = .error .reservedCategory ∧
    decode 0xB3010001FF = .error .portBound ∧ decode 0xBC00000100 = .error .portBound ∧
    decode 0xE400000000 = .error .nonzeroSub ∧ decode 0xE000000002 = .error .nonzeroB := by decide

theorem test_tableWord :
    decodeTableWord 40 0x8000000008 = some (.tick 8) ∧ decodeTableWord 40 0x8000010000 = none ∧
    decodeTableWord 32 0x8000000008 = none ∧ decodeTableWord 48 0x018000000008 = none := by decide

/-! ### Commands, one step each -/

/-- Section 2.2, `busack_after = 1`. -/
theorem test_acquire_granted :
    let t := after (exec (.acquire 0) (seeing quiet [quiet, quiet, quiet, granted, granted, granted]))
    t.block =
      { Block.reset with
        busrqOut := true, clkOut := true, clockMode := .singleStep, ctrlDir := .output, addrDir := .output
        ownership := .supervisorOwned } ∧
    t.result = some { code := 0, toggles := some 1 } := by decide

/-- Section 2.2, `ACQUIRE 1`, `busack_after = never`. -/
theorem test_acquire_timeout :
    let t := after (exec (.acquire 1) (seeing quiet [quiet, quiet, quiet, quiet]))
    t.block = faulted.block ∧ t.result = some { code := 1, toggles := some 1 } := by decide

/-- Section 3, P1. -/
theorem test_release :
    let t := after (exec .release (owner (seeing granted [quiet, quiet, quiet])))
    t.block = Block.reset ∧ t.result = some { code := 0 } ∧ t.world.reactions = [] := by decide

/-- Section 2.3. -/
theorem test_clkRun :
    let t := after (exec .clkRun State.reset)
    t.block.clockMode = .freeRunning ∧ t.block.clkOut = false ∧ t.result = some { code := 0 } := by decide

/-- Section 2.3, CLK_STEP then CLK_STOP. -/
theorem test_clkStop :
    let t := after (exec .clkStop (after (exec .clkStep (seeing quiet [quiet, quiet]))))
    t.block = Block.reset ∧ t.world.reactions = [] := by decide

/-- Section 2.3, `CLK_CYCLE 2` from high: five edges. -/
theorem test_clkCycle_high :
    let s := withBlock (seeing quiet [quiet, quiet, quiet, quiet, quiet, granted]) { Block.reset with clkOut := true }
    let t := after (exec (.clkCycle 2) s)
    t.block.clkOut = false ∧ t.block.clockMode = .singleStep ∧ t.world.reactions = [shows granted] := by decide

/-- Section 2.3, `CLK_CYCLE 0` from low: no edge, and SingleStep. -/
theorem test_clkCycle_zero :
    let t := after (exec (.clkCycle 0) (seeing quiet [granted]))
    t.block.clockMode = .singleStep ∧ t.world.reactions = [shows granted] := by decide

/-- Section 2.3. -/
theorem test_clkStep :
    let t := after (exec .clkStep (seeing quiet [granted]))
    t.block.clkOut = true ∧ t.block.clockMode = .singleStep ∧ t.world.lines = granted := by decide

/-- Section 2.3, `CLK_RUN; CLK_STEP [6]`. -/
theorem test_clkStep_refused :
    (after (exec .clkStep (running State.reset))).result = some { code := 6 } := by decide

/-- Section 2.4: `env: m1,mreq,rd`, address 0x0100, data 0x3E gives flags 0x0026. -/
theorem test_sample_flags :
    let st := sample (seeing fetching [])
    flagBits st = 0x0026 ∧ st.addr = 0x0100 ∧ st.data = 0x3E := by decide

/-- Section 2.4: `env: interrupt,nmi,reset` gives flags 0x0E00; R66: the other fields are at 31:16 and 39:32. -/
theorem test_sample_packed :
    let st := { sample (seeing { quiet with interrupt := true, nmi := true, reset := true } []) with
      addr := 0x1234, data := 0xAB, bank := 0x00 }
    packStatus st = 0x00AB12340E00 := by decide

/-- Section 1.4, the first tick. -/
theorem test_tick_fetch :
    let t := after (exec (.tick 0) (seeing quiet [fetching]))
    t.result.bind Result.fired = some 0x23 ∧ t.result.bind Result.newInstr = some true ∧
    t.result.bind Result.ioDispatched = some false ∧ t.block.prevRd = true ∧ t.block.bdPrev = 0x3E ∧
    t.block.clkOut = true := by decide

/-- Section 2.7, an I/O read of port 0x81, `io_release_after = 3`. -/
theorem test_tick_dispatch :
    let s := (seeing quiet [readingPort, readingPort, readingPort, readingPort, readingPort, quiet, quiet, quiet])
    let t := after (exec (.tick 0) (s.setPorts [⟨0x81, 0x41, 0x00⟩]))
    t.result.bind Result.fired = some 0x09 ∧ t.result.bind Result.ioDispatched = some true ∧
    t.result.bind Result.toggles = some 3 ∧ t.block.dataOut = 0x41 ∧ t.block.dataDir = .input ∧
    t.block.ioackOut = false ∧ t.block.clkOut = false := by decide

/-- Section 1.2: CB, then 07. -/
theorem test_bdClassify :
    let t := after (exec (.bdClassify 0xCB) State.reset)
    let u := after (exec (.bdClassify 0x07) t)
    t.result = some { code := 0, newInstr := some true } ∧ u.result = some { code := 0, newInstr := some false } ∧
    (u.block.bdPrev, u.block.bdPrev2) = (0x07, 0xCB) := by decide

/-- R115, R118, branch 2: previous ED with previous-previous CB, and with previous-previous ED. -/
theorem test_bdClassify_ed :
    let s (p2 : Byte) := withBlock State.reset { Block.reset with bdPrev := 0xED, bdPrev2 := p2 }
    (after (exec (.bdClassify 0x44) (s 0xCB))).result = some { code := 0, newInstr := some true } ∧
    (after (exec (.bdClassify 0x44) (s 0xED))).result = some { code := 0, newInstr := some false } := by decide

/-- Section 1.2, branch 3: previous FD, previous-previous ED, current FD; previous FD, previous-previous DD,
current 09. -/
theorem test_boundary_branch3 :
    newInstruction 0xFD 0xFD 0xED = true ∧ newInstruction 0x09 0xFD 0xDD = false ∧
    newInstruction 0xCB 0xDD 0x00 = false := by decide

/-- Section 2.5. -/
theorem test_bdReset :
    let s := withBlock State.reset { Block.reset with bdPrev := 0xED, bdPrev2 := 0x07 }
    (after (exec .bdReset s)).block = Block.reset := by decide

/-- Section 2.6. -/
theorem test_setRange :
    let t := after (exec (.setRange .log .iord 0x80 0x8F) State.reset)
    t.block = { Block.reset with logRanges := { RangeBank.unset with iord := ⟨0x80, 0x8F⟩ } } ∧
    (after (exec (.setRange .log .iord 0x0100 0x01FF) t)).result = some { code := 5 } := by decide

/-- Section 2.6. -/
theorem test_clrRange :
    let s := withBlock State.reset
      { Block.reset with brkRanges := { RangeBank.unset with memrd := ⟨0x1000, 0x10FF⟩ } }
    (after (exec (.clrRange .brk .memrd) s)).block = Block.reset := by decide

/-- Section 1.3: a write of 0x41 to port 0x81 from a high clock, `io_release_after = 2`. -/
theorem test_ioDispatch_write :
    let s := withBlock (seeing writingPort [writingPort, writingPort, quiet, quiet])
      { Block.reset with clkOut := true, clockMode := .singleStep }
    let t := after (exec (.ioDispatch 0) s)
    t.world.ports = [⟨0x81, 0x00, 0x41⟩] ∧ t.result.bind Result.toggles = some 2 ∧ t.block.clkOut = true ∧
    t.block.ioackOut = false := by decide

/-- Section 2.8: `mreq` and `iorq` both 1 is no I/O cycle. -/
theorem test_ioDispatch_refused :
    (after (exec (.ioDispatch 0) (seeing { readingPort with mreq := true } []))).result = some { code := 7 } := by
  decide

/-- Section 2.4: a value that the line already has makes no reaction. -/
theorem test_lineSet :
    let t := after (exec (.lineSet .nmi true) (seeing quiet [granted, quiet]))
    t.block = { Block.reset with nmiOut := true } ∧ t.world.lines = granted ∧
    (after (exec (.lineSet .nmi true) t)).world = t.world := by decide

/-- Section 2.6, two rows of the table: a read at 0x1000 logs as MEMRD only; `mreq` alone at 0x4000 breaks on BUS. -/
theorem test_hits :
    let log := { RangeBank.unset with bus := ⟨0x0000, 0xFFFF⟩, memrd := ⟨0x1000, 0x1FFF⟩ }
    let brk := { RangeBank.unset with bus := ⟨0x4000, 0x4000⟩ }
    let rd := { sample State.reset with mreq := true, rd := true, addr := 0x1000 }
    let idle := { sample State.reset with mreq := true, addr := 0x4000 }
    packCats (logHits log rd (firedBy rd false false)) = 0x02 ∧
    packCats (brkHits brk idle (firedBy idle false false)) = 0x01 ∧
    packCats (logHits log idle (firedBy idle false false)) = 0x01 := by decide

/-- R17, R18, R19: the codes of the enumerations. -/
theorem test_enumeration_codes :
    dirBits .output = 1 ∧ ownershipBits .supervisorOwned = 1 ∧ clockModeBits .singleStep = 2 := by decide

/-- Section 2.9: a faulted block refuses a malformed word with code 4; a live one with code 5. -/
theorem test_refused_words :
    (after (step (sending faulted [.command 0x0000000000]))).result = some { code := 4 } ∧
    (after (step (sending State.reset [.command 0x0000000000]))).result = some { code := 5 } := by decide

/-- The word that `withFetchWord` places is the next one run. -/
theorem test_withFetchWord :
    (after (step (State.reset.withFetchWord 40 0x90000000CB))).block.bdPrev = 0xCB := by decide

/-- R195: block reset leaves the faulted state. -/
theorem test_blockReset : (after (step (sending faulted [.blockReset]))).block = Block.reset := by decide

/-- Section 1.6: the bytes of `CPU_RESET 0x8000`, and none for the default vector. -/
theorem test_cpuReset :
    jumpBytes 0x8000 = [0xC3, 0x00, 0x80] ∧ jumpBytes 0x1234 = [0xC3, 0x34, 0x12] ∧
    (cpuReset 0x8000).take 4 =
      [.memWrite 0 0xC3, .memWrite 1 0x00, .memWrite 2 0x80, .command 0xE000000001] ∧
    cpuReset 0x0000 =
      [.command 0xE000000001, .command 0x5000000003, .command 0xE000000000, .command 0xE300000001,
        .command 0xE300000000] := by decide

/-- R160: what the supervisor writes it reads back. -/
theorem test_memoryPath :
    let s := sending (owner State.reset) (memWriteAct 0x8000 0x5A ++ memReadAct 0x8000)
    (after (step (after (step s)))).memReply = some 0x5A := by decide

/-! ### The hypotheses of the statements can be met

One theorem for each statement of Obligations.lean that has hypotheses, named after it; one for each of its clauses
where it has several. -/

theorem witness_EncodedCommandDecodesToItself : Instr.wellFormed (.setRange .brk .iord 0x00 0xFF) = true := by decide

theorem witness_DecodedWordIsTheCommandsWord : decode 0xBB000000FF = .ok (.setRange .brk .iord 0x00 0xFF) := by decide

theorem witness_WordSelectsExactlyItsTableRow :
    (⟨"SET_RANGE", 0xB000000000, 0xF000000000⟩ : OpcodeRow) ∈ opcodeMap ∧
    RowConstraints ⟨"SET_RANGE", 0xB000000000, 0xF000000000⟩ 0xBB000000FF ∧
    ¬RowConstraints ⟨"SET_RANGE", 0xB000000000, 0xF000000000⟩ 0xBB00000100 := by
  unfold RowConstraints
  decide

theorem witness_ReservedWordsAreRefusedWithoutEffect (w : CmdWord) :
    let s := sending State.reset [.command w]
    s.waiting = none ∧ s.inputs = .command w :: [] ∧ Live s := ⟨rfl, rfl, rfl⟩

theorem witness_ReservedWord :
    ReservedWord 0xBB00000100 ∧ ReservedWord 0xE000000002 ∧ ¬ReservedWord 0xBB000000FF := by
  refine ⟨?_, ?_, ?_⟩ <;> (unfold ReservedWord; decide)

theorem witness_StepRunsTheDecodedCommand :
    let s := sending State.reset [.command 0x8000000008]
    s.waiting = none ∧ s.inputs = .command 0x8000000008 :: [] ∧ decode 0x8000000008 = .ok (.tick 8) :=
  ⟨rfl, rfl, by decide⟩

/-- Every statement whose hypothesis is that the block is live, or that it is faulted: of ClkRunFreesTheClock,
ClkStopParksTheLineLow, SampleReturnsTheSnapshot, LineSetDrivesItsLine, BdClassifyMovesTheBytesOn,
BdResetStartsAfresh, ClrRangeUnsetsOneRegister, ReleaseGivesTheBusBack. -/
theorem witness_live_and_faulted : Live State.reset ∧ ¬Live faulted := by
  unfold Live
  decide

/-- ClkCycleMakesItsEdges, ClkStepInvertsTheLine, FreeRunningRefusesSoftwareEdges: a live block in each mode. -/
theorem witness_clocked_and_free :
    (Live State.reset ∧ isFree State.reset = false) ∧
    (Live (running State.reset) ∧ isFree (running State.reset) = true) := by
  unfold Live
  decide

theorem witness_FreeRunningRefusesSoftwareEdges :
    let s := running (seeing readingPort [granted, granted, granted, granted, granted, granted])
    ∃ t r, (exec (.acquire 1) s = .next t ∨ exec (.ioDispatch 1) s = .next t) ∧ t.result = some r :=
  ⟨_, _, .inl rfl, rfl⟩

theorem witness_FaultedBlockRefusesEveryCommand :
    let s := sending faulted [.command 0xF000000000]
    ¬Live s ∧ s.waiting = none ∧ s.inputs = .command 0xF000000000 :: [] := by
  unfold Live
  decide

theorem witness_OnlyBlockResetLeavesAFault :
    let s := sending faulted [.blockReset]
    ¬Live s ∧ s.waiting = none ∧ step s = .next (after (step s)) := ⟨by unfold Live; decide, rfl, rfl⟩

theorem witness_OnlyTimeoutsRaiseFaults_acquire :
    let s := seeing quiet [quiet, quiet, quiet, quiet]
    let o := exec (.acquire 1) s
    Live s ∧ o = .next (after o) ∧ ¬Live (after o) := ⟨rfl, rfl, by unfold Live; decide⟩

theorem witness_OnlyTimeoutsRaiseFaults_tick :
    let s := seeing quiet [readingPort, readingPort, readingPort, readingPort]
    let o := exec (.tick 1) s
    Live s ∧ o = .next (after o) ∧ ¬Live (after o) := ⟨rfl, rfl, by unfold Live; decide⟩

theorem witness_OnlyTimeoutsRaiseFaults_ioDispatch :
    let s := seeing readingPort [readingPort, readingPort, readingPort]
    let o := exec (.ioDispatch 1) s
    Live s ∧ o = .next (after o) ∧ ¬Live (after o) := ⟨rfl, rfl, by unfold Live; decide⟩

/-- Between commands. -/
theorem witness_EveryStepKeepsTheBusInvariant :
    let s := sending (owner (seeing granted [])) [.command 0x2000000000]
    BusInvariant s ∧ step s = .next (after (step s)) := by
  refine ⟨⟨fun _ => rfl, fun _ => ⟨⟨rfl, rfl⟩, rfl, ?_⟩, fun h => absurd rfl h⟩, rfl⟩
  exact ⟨fun _ => rfl, fun _ => rfl⟩

/-- Inside an unbounded ACQUIRE. -/
theorem witness_EveryStepKeepsTheBusInvariant_waiting :
    let s := { withBlock (seeing quiet [quiet]) { Block.reset with busrqOut := true } with
      waiting := some ⟨.acquire, 0⟩ }
    BusInvariant s ∧ step s = .next (after (step s)) :=
  ⟨⟨fun _ => rfl, fun _ => ⟨⟨rfl, rfl⟩, rfl, rfl, rfl⟩, fun _ => rfl⟩, rfl⟩

theorem witness_ReachableBoundariesHaveTheBusInvariants :
    let s := after (step (sending (seeing quiet []) [.command 0xE200000001]))
    Reachable s ∧ s.waiting = none ∧ Live s := ⟨⟨[.command 0xE200000001], [], 1, rfl⟩, rfl, rfl⟩

theorem witness_EveryStepKeepsTheCodesDefined :
    let s := sending faulted [.command 0xF000000000]
    CodesAreDefined s ∧ step s = .next (after (step s)) := ⟨⟨.inr (.inl rfl), fun _ h => nomatch h⟩, rfl⟩

theorem witness_EveryStepKeepsMemoryCanonical :
    let s := sending (owner State.reset) [.memWrite 0x8000 0x5A]
    MemoryIsCanonical s ∧ step s = .next (after (step s)) := ⟨rfl, rfl⟩

theorem witness_EveryStepKeepsThePortMap :
    let s := sending (seeing writingPort []) [.command 0xD000000001]
    step s = .next (after (step s)) := rfl

theorem witness_BlockResetGivesTheTable :
    let s := sending faulted [.blockReset]
    s.waiting = none ∧ s.inputs = .blockReset :: [] := ⟨rfl, rfl⟩

/-- Granted at once, and after one toggle, without a bound (section 2.2). -/
theorem witness_AcquireGrantedTakesTheBus_unbounded :
    let s := seeing quiet [quiet, quiet, granted]
    let s' := seeing quiet [quiet, quiet, quiet, granted]
    (Live s ∧ GrantsBusAfter s 0 ∧ WithinWait 0 { s with world := World.moves (acquireRequestMoves s) s.world } 0) ∧
    (Live s' ∧ GrantsBusAfter s' 1 ∧
      WithinWait 0 { s' with world := World.moves (acquireRequestMoves s') s'.world } 1) := by
  unfold Live GrantsBusAfter WithinWait
  decide

/-- `ACQUIRE 3` with `busack_after = 3`, the last toggle of the bound (section 2.2). -/
theorem witness_AcquireGrantedTakesTheBus_bounded :
    let s := seeing quiet [quiet, quiet, quiet, quiet, quiet, granted]
    Live s ∧ GrantsBusAfter s 3 ∧ WithinWait 3 { s with world := World.moves (acquireRequestMoves s) s.world } 3 := by
  unfold Live GrantsBusAfter WithinWait
  decide

theorem witness_AcquireTimesOutAtItsBound :
    let s := seeing quiet [quiet, quiet, quiet, quiet, granted]
    Live s ∧ (1#16 ≠ 0) ∧
      ∀ j, j ≤ (1#16).toNat → (linesAfter s (acquireRequestMoves s + j)).busack = false := by
  unfold Live
  decide

/-- The command's own step, with two moves listed after the request; the second clause is the next theorem's. -/
theorem witness_UnansweredAcquireDoesNotReturn_entry :
    let s := seeing quiet [quiet, quiet, quiet, quiet, quiet]
    let asked : State :=
      { s with
        block := { s.block with busrqOut := true, ioackOut := false }
        world := World.moves (acquireRequestMoves s) s.world }
    Live s ∧ ∀ j, j ≤ waitToggles asked → (linesAfter asked j).busack = false := by
  unfold Live
  decide

theorem witness_UnansweredAcquireDoesNotReturn :
    let s := { withBlock (seeing quiet [quiet, quiet]) { Block.reset with busrqOut := true } with
      waiting := some ⟨.acquire, 5⟩ }
    s.waiting = some ⟨.acquire, 5⟩ ∧
      ∀ j, j ≤ waitToggles s → (linesAfter s j).busack = false := by decide

theorem witness_AcquireIsGrantedInTheEnd :
    let s := sending (seeing quiet [quiet, quiet, quiet, quiet, granted]) [.command (encode (.acquire 0))]
    Live s ∧ s.waiting = none ∧ s.inputs = .command (encode (.acquire 0)) :: [] ∧
      GrantsBusAfter { s with world := World.moves (stirs false s) s.world } 2 := by
  unfold Live GrantsBusAfter
  decide

theorem witness_OwnershipChangesOnlyInTheArbiter :
    let s := owner (seeing granted [])
    let o := exec .release s
    o = .next (after o) ∧ ((after o).block.ownership ≠ s.block.ownership ∨ (after o).block.busrqOut ≠ s.block.busrqOut) :=
  ⟨rfl, by decide⟩

/-- BdClassifyMovesTheBytesOn, each of its four branches: previous CB, ED, DD, FD and another byte; and
DetectorFollowsItsFourBranches, whose second clause is about the last of them. -/
theorem witness_BdClassifyMovesTheBytesOn :
    let s (p1 : Byte) := withBlock State.reset { Block.reset with bdPrev := p1 }
    (Live (s 0xCB) ∧ (s 0xCB).block.bdPrev = 0xCB) ∧ (Live (s 0xED) ∧ (s 0xED).block.bdPrev = 0xED) ∧
    (Live (s 0xDD) ∧ (s 0xDD).block.bdPrev = 0xDD) ∧ (Live (s 0xFD) ∧ (s 0xFD).block.bdPrev = 0xFD) ∧
    (Live (s 0x3E) ∧ (s 0x3E).block.bdPrev ≠ 0xCB ∧ (s 0x3E).block.bdPrev ≠ 0xED ∧ (s 0x3E).block.bdPrev ≠ 0xDD ∧
      (s 0x3E).block.bdPrev ≠ 0xFD) := by
  unfold Live
  decide

/-! A tick that returns, its snapshot and its events, for each kind of cycle. -/

/-- Bit 5, 6, 2 and 3 of a packed snapshot (R16). -/
theorem packed_strobes (st : Status) :
    (packStatus st).getLsbD 5 = st.rd ∧ (packStatus st).getLsbD 6 = st.wr ∧
    (packStatus st).getLsbD 2 = st.mreq ∧ (packStatus st).getLsbD 3 = st.iorq := by
  refine ⟨?_, ?_, ?_, ?_⟩ <;>
    (rw [packStatus_getLsbD]; simp only [flagBits, BitVec.getLsbD_append, BitVec.getLsbD_ofBool]; simp)

theorem witness_HeldStrobesFireOnlyOnce :
    let s₁ := seeing quiet [fetching]
    let t₁ := after (exec (.tick 0) s₁)
    let s₂ := withBlock (seeing fetching [fetching, fetching]) t₁.block
    let t₂ := after (exec (.tick 0) s₂)
    ∃ r₁ r₂ st₁ st₂, TickReturns 0 s₁ t₁ r₁ ∧ r₁.status = some st₁ ∧ s₂.block = t₁.block ∧
      TickReturns 0 s₂ t₂ r₂ ∧ r₂.status = some st₂ ∧
      st₁.getLsbD 5 = st₂.getLsbD 5 ∧ st₁.getLsbD 6 = st₂.getLsbD 6 :=
  ⟨_, _, _, _, ⟨0, _, rfl, rfl, fun h => absurd rfl h, rfl, rfl⟩, rfl, rfl,
    ⟨0, _, rfl, rfl, fun h => absurd rfl h, rfl, rfl⟩, rfl,
    (packed_strobes _).1.trans (packed_strobes _).1.symm,
    (packed_strobes _).2.1.trans (packed_strobes _).2.1.symm⟩

/-- A fetch: TickKindsExcludeEachOther, first clause; TickFeedsTheDetectorOnFetches, first clause;
TickSamplesWithTheClockHigh; TickReportsItsHits. -/
theorem witness_tick_fetch :
    let s := seeing quiet [fetching]
    let t := after (exec (.tick 0) s)
    ∃ r st f, TickReturns 0 s t r ∧ r.status = some st ∧ r.fired = some f ∧ st.getLsbD 2 = true ∧ f.getLsbD 5 = true :=
  ⟨_, _, 0x23, ⟨0, _, rfl, rfl, fun h => absurd rfl h, rfl, rfl⟩, rfl, rfl, (packed_strobes _).2.2.1, rfl⟩

/-- An I/O read: TickKindsExcludeEachOther, second clause; TickFeedsTheDetectorOnFetches, second clause. -/
theorem witness_tick_io :
    let s := seeing quiet [readingPort, readingPort, quiet]
    let t := after (exec (.tick 0) s)
    ∃ r st f, TickReturns 0 s t r ∧ r.status = some st ∧ r.fired = some f ∧
      st.getLsbD 2 = false ∧ st.getLsbD 3 = true ∧ f.getLsbD 5 = false :=
  ⟨_, _, 0x09, ⟨0, _, rfl, rfl, fun h => absurd rfl h, rfl, rfl⟩, rfl, rfl, (packed_strobes _).2.2.1, (packed_strobes _).2.2.2, rfl⟩

/-- An idle cycle: TickKindsExcludeEachOther, third clause; UnsetRangesNeverHit. -/
theorem witness_tick_idle :
    let s := seeing quiet [quiet]
    let t := after (exec (.tick 0) s)
    s.block.logRanges = RangeBank.unset ∧ s.block.brkRanges = RangeBank.unset ∧
    ∃ r st, TickReturns 0 s t r ∧ r.status = some st ∧ st.getLsbD 2 = false ∧ st.getLsbD 3 = false :=
  ⟨rfl, rfl, _, _, ⟨0, _, rfl, rfl, fun h => absurd rfl h, rfl, rfl⟩, rfl, (packed_strobes _).2.2.1, (packed_strobes _).2.2.2⟩

theorem witness_TickOutsideIoCompletes :
    let s := seeing quiet [fetching]
    Live s ∧ isFree s = false ∧ kindOf (sample (atSample s)) ≠ .io := by
  unfold Live
  decide

/-- A read, released in reaction to the first toggle; without a bound and at the bound. -/
theorem witness_TickInIoDispatches :
    let s := seeing quiet [readingPort, readingPort, readingPort, quiet]
    let st := sample (atSample s)
    let s₁ : State := { atSample s with block := afterClassify s st }
    Live s ∧ isFree s = false ∧ kindOf st = .io ∧ ReleasesIoAfter (ioOpen st s₁) 1 ∧
      WithinWait 0 (ioOpen st s₁) 1 ∧ WithinWait 1 (ioOpen st s₁) 1 := by
  unfold Live ReleasesIoAfter WithinWait
  decide

/-- Without a bound: released in reaction to the first toggle, and not released in the command's own step. -/
theorem witness_TickInIoDispatches_unbounded :
    (let s := seeing quiet [readingPort, readingPort, readingPort, quiet]
     let st := sample (atSample s)
     let s₁ : State := { atSample s with block := afterClassify s st }
     s.waiting = none ∧ kindOf st = .io ∧ ReleasesIoAfter (ioOpen st s₁) 1) ∧
    (let s := seeing quiet [readingPort, readingPort, readingPort, readingPort]
     let st := sample (atSample s)
     let s₁ : State := { atSample s with block := afterClassify s st }
     Live s ∧ isFree s = false ∧ kindOf st = .io ∧
       ∀ j, j ≤ waitToggles (ioOpen st s₁) → line (clockEdges j (ioOpen st s₁)) .iorq = true) := by
  unfold Live ReleasesIoAfter
  decide

/-- The wait of a tick and of an IO_DISPATCH that goes on unanswered in a step. -/
theorem witness_dispatchWaits :
    let st := sample (seeing readingPort [])
    let t : State := { seeing readingPort [readingPort] with waiting := some ⟨.tick st (firedBy st false false) false, 4⟩ }
    let d : State := { seeing readingPort [readingPort] with waiting := some ⟨.ioDispatch st, 4⟩ }
    (t.waiting = some ⟨.tick st (firedBy st false false) false, 4⟩ ∧
      ∀ j, j ≤ waitToggles t → line (clockEdges j t) .iorq = true) ∧
    (d.waiting = some ⟨.ioDispatch st, 4⟩ ∧ ∀ j, j ≤ waitToggles d → line (clockEdges j d) .iorq = true) :=
  ⟨⟨rfl, by decide⟩, rfl, by decide⟩

theorem witness_SetRangeWritesOneRegister :
    Live State.reset ∧ Cat.iord.admits 0x00 0xFF = true ∧ Cat.iord.admits 0x00 0x0100 = false := by
  unfold Live
  decide

/-- A write, released in reaction to `ioack` itself, and a read, released at the bound. -/
theorem witness_IoDispatchServesThePort :
    (let s := seeing writingPort [quiet]
     let st := sample s
     let s₁ : State := { s with block := { s.block with lastStatus := packStatus st } }
     Live s ∧ st.iorq = true ∧ st.mreq = false ∧ ReleasesIoAfter (ioOpen st s₁) 0 ∧
       WithinWait 0 (ioOpen st s₁) 0) ∧
    (let s := readingState [readingPort, readingPort, readingPort, quiet]
     let st := sample s
     let s₁ : State := { s with block := { s.block with lastStatus := packStatus st } }
     Live s ∧ st.iorq = true ∧ st.mreq = false ∧ ReleasesIoAfter (ioOpen st s₁) 2 ∧
       WithinWait 2 (ioOpen st s₁) 2) := by
  unfold Live ReleasesIoAfter WithinWait
  decide

/-- Without a bound: released in reaction to the second toggle, and not released in the command's own step; the wait
that goes on is in `witness_dispatchWaits`. -/
theorem witness_IoDispatchServesThePort_unbounded :
    (let s := readingState [readingPort, readingPort, readingPort, quiet]
     let st := sample s
     let s₁ : State := { s with block := { s.block with lastStatus := packStatus st } }
     s.waiting = none ∧ ReleasesIoAfter (ioOpen st s₁) 2) ∧
    (let s := readingState [readingPort, readingPort, readingPort]
     let st := sample s
     let s₁ : State := { s with block := { s.block with lastStatus := packStatus st } }
     Live s ∧ st.iorq = true ∧ st.mreq = false ∧
       ∀ j, j ≤ waitToggles (ioOpen st s₁) → line (clockEdges j (ioOpen st s₁)) .iorq = true) := by
  unfold Live ReleasesIoAfter
  decide

theorem witness_IoDispatchRefusesOutsideIo :
    let s := seeing { readingPort with mreq := true } []
    Live s ∧ ¬((sample s).iorq = true ∧ (sample s).mreq = false) := by
  unfold Live
  decide

theorem witness_DispatchTimeoutLeavesTheLines_ioDispatch :
    let s := readingState [readingPort, readingPort, readingPort]
    let st := sample s
    let s₁ : State := { s with block := { s.block with lastStatus := packStatus st } }
    Live s ∧ (1#16 ≠ 0) ∧ st.iorq = true ∧ st.mreq = false ∧
      ∀ j, j ≤ (1#16).toNat → line (clockEdges j (ioOpen st s₁)) .iorq = true := by
  unfold Live
  decide

theorem witness_DispatchTimeoutLeavesTheLines_tick :
    let s := seeing quiet [readingPort, readingPort, readingPort, readingPort]
    let st := sample (atSample s)
    let s₁ : State := { atSample s with block := afterClassify s st }
    Live s ∧ (1#16 ≠ 0) ∧ isFree s = false ∧ kindOf st = .io ∧
      ∀ j, j ≤ (1#16).toNat → line (clockEdges j (ioOpen st s₁)) .iorq = true := by
  unfold Live
  decide

/-- A read of the mapped port, the only one. -/
theorem witness_PortsReadAndStoreExactly_mapped :
    let s := readingState [readingPort, quiet]
    ∃ r, isFree s = false ∧ Returns (.ioDispatch 0) s (after (exec (.ioDispatch 0) s)) r ∧ (sample s).rd = true ∧
      (⟨0x81, 0x41, 0x00⟩ : PortReg) ∈ s.world.ports ∧ (sample s).addr.setWidth 8 = 0x81#8 :=
  ⟨_, rfl, ⟨0, _, rfl, rfl, fun h => absurd rfl h, rfl, rfl⟩, by decide, by decide, by decide⟩

/-- A read of port 0x7F, which has no handler (section 1.3). -/
theorem witness_PortsReadAndStoreExactly_unmapped :
    let s := seeing { readingPort with addr := 0x127F } [quiet, quiet]
    ∃ r, isFree s = false ∧ Returns (.ioDispatch 0) s (after (exec (.ioDispatch 0) s)) r ∧ (sample s).rd = true ∧
      (sample s).addr.setWidth 8 ∉ mappedPorts s :=
  ⟨_, rfl, ⟨0, _, rfl, rfl, fun h => absurd rfl h, rfl, rfl⟩, by decide, by decide⟩

/-- A write to the mapped port. -/
theorem witness_PortsReadAndStoreExactly_write :
    let s := seeing writingPort [quiet, quiet]
    ∃ r, isFree s = false ∧ Returns (.ioDispatch 0) s (after (exec (.ioDispatch 0) s)) r ∧
      (sample s).rd = false ∧ (sample s).wr = true ∧ (sample s).addr.setWidth 8 = 0x81#8 :=
  ⟨_, rfl, ⟨0, _, rfl, rfl, fun h => absurd rfl h, rfl, rfl⟩, by decide, by decide, by decide⟩

/-- A tick writes the strobe registers and the detector's bytes; a dispatch the data register. -/
theorem witness_RegistersHaveTheirWriters_tick :
    let s := seeing quiet [fetching]
    let o := exec (.tick 0) s
    o = .next (after o) ∧ (after o).block.prevRd ≠ s.block.prevRd ∧ (after o).block.bdPrev ≠ s.block.bdPrev :=
  ⟨rfl, by decide, by decide⟩

theorem witness_RegistersHaveTheirWriters_setRange :
    let o := exec (.setRange .log .bus 0x0000 0xFFFF) State.reset
    o = .next (after o) ∧ (after o).block.logRanges ≠ State.reset.block.logRanges := ⟨rfl, by decide⟩

theorem witness_RegistersHaveTheirWriters_ioDispatch :
    let s := readingState [readingPort, quiet]
    let o := exec (.ioDispatch 0) s
    o = .next (after o) ∧ (after o).block.dataOut ≠ s.block.dataOut := ⟨rfl, by decide⟩

theorem witness_RegistersHaveTheirWriters_lineSet :
    let o := exec (.lineSet .reset true) State.reset
    o = .next (after o) ∧ (after o).block.resetOut ≠ State.reset.block.resetOut := ⟨rfl, by decide⟩

theorem witness_RegistersHaveTheirWriters_sample :
    let s := seeing readingPort []
    let o := exec .sample s
    o = .next (after o) ∧ (after o).block.lastStatus ≠ s.block.lastStatus := by
  refine ⟨rfl, fun h => ?_⟩
  have := congrArg (BitVec.getLsbD · 5) h
  exact absurd ((packed_strobes _).1.symm.trans this) (by decide)

theorem witness_RegistersHaveTheirWriters_acquire :
    let s := seeing quiet [quiet, quiet, quiet, granted]
    let o := exec (.acquire 0) s
    o = .next (after o) ∧ (after o).block.addrDir ≠ s.block.addrDir ∧ (after o).block.clkOut ≠ s.block.clkOut :=
  ⟨rfl, by decide, by decide⟩

theorem witness_RegistersHaveTheirWriters_ioack :
    let o := exec (.lineSet .ioack true) State.reset
    o = .next (after o) ∧ (after o).block.ioackOut ≠ State.reset.block.ioackOut := ⟨rfl, by decide⟩

theorem witness_RegistersHaveTheirWriters_int :
    let o := exec (.lineSet .int true) State.reset
    let n := exec (.lineSet .nmi true) State.reset
    (o = .next (after o) ∧ (after o).block.intOut ≠ State.reset.block.intOut) ∧
    (n = .next (after n) ∧ (after n).block.nmiOut ≠ State.reset.block.nmiOut) :=
  ⟨⟨rfl, by decide⟩, rfl, by decide⟩

/-- A release turns the ownership; a dispatch that times out leaves the data direction turned and the block faulted. -/
theorem witness_RegistersHaveTheirWriters_release :
    let s := owner State.reset
    let o := exec .release s
    o = .next (after o) ∧ (after o).block.ownership ≠ s.block.ownership := ⟨rfl, by decide⟩

theorem witness_RegistersHaveTheirWriters_timeout :
    let s := readingState [readingPort, readingPort, readingPort]
    let o := exec (.ioDispatch 1) s
    o = .next (after o) ∧ (after o).block.dataDir ≠ s.block.dataDir ∧ (after o).block.faultCode ≠ s.block.faultCode :=
  ⟨rfl, by decide, by decide⟩

theorem witness_RegistersHaveTheirWriters_wait :
    let a := { seeing quiet [granted] with waiting := some ⟨.acquire, 0⟩ }
    let d := { seeing readingPort [quiet] with waiting := some ⟨.ioDispatch (sample State.reset), 0⟩ }
    step a = .next (after (step a)) ∧ step d = .next (after (step d)) := ⟨rfl, rfl⟩

/-- An idle step, and an access without ownership. -/
theorem witness_RegistersHaveTheirWriters_noCommand :
    let s := sending State.reset [.memWrite 0x0000 0x5A]
    (∀ word rest, State.reset.inputs ≠ .command word :: rest) ∧ (∀ rest, State.reset.inputs ≠ .blockReset :: rest) ∧
    (∀ word rest, s.inputs ≠ .command word :: rest) ∧ (∀ rest, s.inputs ≠ .blockReset :: rest) ∧
    s.waiting = none ∧ step State.reset = .next (after (step State.reset)) ∧ step s = .next (after (step s)) :=
  ⟨nofun, nofun, nofun, nofun, rfl, rfl, rfl⟩

/-- A command's own step, and the answered step of an ACQUIRE. -/
theorem witness_NoCommandWritesMemory :
    let o := exec (.tick 0) (seeing quiet [fetching])
    let s := { seeing quiet [granted] with waiting := some ⟨.acquire, 0⟩ }
    o = .next (after o) ∧ s.waiting ≠ none ∧ step s = .next (after (step s)) := ⟨rfl, nofun, rfl⟩

theorem witness_NoCommandReadsMemory :
    let s := seeing quiet [fetching]
    let o := exec (.tick 0) s
    let w := { seeing quiet [granted] with waiting := some ⟨.acquire, 0⟩ }
    o = .next (after o) ∧ w.waiting ≠ none ∧ step w = .next (after (step w)) := ⟨rfl, nofun, rfl⟩

theorem witness_MemoryPathKeepsItsContract :
    let s := owner State.reset
    let w := sending s [.memWrite 0xFFFF 0x5A]
    let r := sending s [.memRead 0xFFFF]
    (w.waiting = none ∧ MemoryIsCanonical w ∧ w.block.ownership = .supervisorOwned ∧
      w.inputs = .memWrite 0xFFFF 0x5A :: []) ∧
    (r.waiting = none ∧ MemoryIsCanonical r ∧ r.block.ownership = .supervisorOwned ∧
      r.inputs = .memRead 0xFFFF :: []) :=
  ⟨⟨rfl, rfl, rfl, rfl⟩, rfl, rfl, rfl, rfl⟩

theorem witness_CpuResetInstallsTheJumpFirst :
    let s := owner State.reset
    (0x8000#16 ≠ 0x0000) ∧ s.waiting = none ∧ MemoryIsCanonical s ∧ s.block.ownership = .supervisorOwned ∧
      isFree s = false :=
  ⟨by decide, rfl, rfl, rfl, rfl⟩

theorem witness_CpuResetChangesOnlyItsRegisters :
    let s := owner State.reset
    Live s ∧ s.waiting = none ∧ isFree s = false := ⟨rfl, rfl, rfl⟩

theorem witness_HaltEndsTheTraceAtOnce :
    let s := seeing { quiet with halt := true } []
    Live s ∧ s.waiting = none ∧ (World.moves (stirs false s) s.world).lines.halt = true := ⟨rfl, rfl, rfl⟩

/-- Bit 8 of a packed snapshot (R16). -/
theorem packed_halt (st : Status) : (packStatus st).getLsbD 8 = st.halt := by
  rw [packStatus_getLsbD]
  simp only [flagBits, BitVec.getLsbD_append, BitVec.getLsbD_ofBool]
  simp

/-- A trace loop at rest in front of a live block ends at once if a reason holds. -/
theorem traceRun_ends (t : Trace) (s u : State) (st : Status) (hw : s.waiting = none) (hp : t.phase = .testing)
    (hs : step (s.withActs [sendCommand .sample]) = .next u)
    (hr : u.result = some { code := 0, status := some (packStatus st) })
    (hend : (st.halt || decide (t.limit ≠ 0 ∧ t.limit ≤ t.count) || t.brk) = true) :
    traceRun 1 t s = .ended t ⟨st.halt, decide (t.limit ≠ 0 ∧ t.limit ≤ t.count), t.brk⟩ u := by
  have h : traceStep t s = .ended t ⟨st.halt, decide (t.limit ≠ 0 ∧ t.limit ≤ t.count), t.brk⟩ u := by
    simp only [traceStep, hw, hp, traceTest, issue, hs, hr, okStatus, codeOk, traceSampled, packed_halt,
      Option.isSome_none, Bool.false_eq_true, if_false, if_true, hend]
  rw [traceRun, h]

/-- A trace that ends because of its limit, and (section 1.5) one that ends because of `halt`. -/
theorem witness_TraceCountsUpToItsLimit :
    (let t : Trace := { Trace.start 4 with count := 4 }
     TraceWithinLimit t ∧ ∃ u, traceRun 1 t (seeing quiet []) = .ended t ⟨false, true, false⟩ u) ∧
    (TraceWithinLimit (Trace.start 4) ∧
      ∃ u, traceRun 1 (Trace.start 4) (seeing { quiet with halt := true } []) =
        .ended (Trace.start 4) ⟨true, false, false⟩ u) :=
  ⟨⟨fun _ => ⟨by decide, fun h => nomatch h⟩, _,
      traceRun_ends _ (seeing quiet []) _ (sample (seeing quiet [])) rfl rfl rfl rfl rfl⟩,
    fun _ => ⟨by decide, fun h => nomatch h⟩, _,
      traceRun_ends _ (seeing { quiet with halt := true } []) _ (sample (seeing { quiet with halt := true } []))
        rfl rfl rfl rfl rfl⟩

/-- A tick of the loop that came back, in front of the loop. -/
theorem witness_TraceCountsUpToItsLimit_tick :
    let s := seeing quiet [fetching]
    let u := after (exec (.tick 0) s)
    ∃ r, TickReturns 0 s u r ∧ u.waiting = none ∧ ({ Trace.start 4 with phase := .ticking } : Trace).phase = .ticking :=
  ⟨_, ⟨0, _, rfl, rfl, fun h => absurd rfl h, rfl, rfl⟩, rfl, rfl⟩

/-- Another act of the loop; the end of a loop whose last tick broke. -/
theorem witness_TraceCountsUpToItsLimit_break :
    (let t : Trace := { Trace.start 4 with phase := .disassembling [] none }
     ∃ u s', traceStep t State.reset = .goOn u s' ∧ (State.reset.waiting ≠ none ∨ t.phase ≠ .ticking)) ∧
    (let t : Trace := { Trace.start 0 with brk := true }
     Live State.reset ∧ State.reset.waiting = none ∧ t.phase = .testing ∧ t.brk = true ∧
       ∃ why s', traceRun 1 t (seeing quiet []) = .ended t why s') :=
  ⟨⟨_, _, rfl, .inr (fun h => nomatch h)⟩, rfl, rfl, rfl, rfl, _, _,
    traceRun_ends _ (seeing quiet []) _ (sample (seeing quiet [])) rfl rfl rfl rfl rfl⟩

/-- A tick of the loop that came back refused, in FreeRunning mode. -/
theorem witness_TraceCountsUpToItsLimit_refused :
    let u := after (exec (.tick 0) (running State.reset))
    let t : Trace := { Trace.start 4 with phase := .ticking }
    ∃ r, u.waiting = none ∧ u.result = some r ∧ r.code ≠ 0 ∧ t.phase = .ticking := ⟨_, rfl, rfl, by decide, rfl⟩

end Sys2Proof.Tests
end

section
/-! PROOFS. The dispatch of an I/O cycle (spec/46_surrounding_interfaces.md R155), which TICK and IO_DISPATCH share:
what it leaves once it is answered, how its wait goes on and ends in either command, and the two statements about
the commands that make it. -/

namespace Sys2Proof.Machine

/-! ### What a dispatch leaves -/

/-- The handler, then its moves: outside FreeRunning mode one for the data direction of a read, none before the
handler (R12, R155). -/
theorem ioHandler_world (st : Status) (s : State) :
    ∃ m, (ioHandler st s).world = World.moves m (handled st (World.moves (stirs false s) s.world)) ∧
      (isFree s = false → DataIsInput s.block → m = st.rd.toNat) := by
  cases hr : st.rd
  · refine ⟨0, ?_, fun _ _ => rfl⟩
    cases hw : st.wr <;> simp [ioHandler, handled, hr, hw]
  · have hread : ioHandler st s = setDir .data .output
        (driveData (portRead (settle false s).world.ports (portOf st.addr)) (settle false s)) := by
      simp [ioHandler, hr]
    refine ⟨_, by rw [hread, setDir_world, driveData_world, ← World.moves_add, handled, if_pos hr]; rfl,
      fun hfree hdata => ?_⟩
    have hdir : s.block.dataDir = .input := hdata
    have hmode : s.block.clockMode ≠ .freeRunning := by simpa [isFree] using hfree
    simp [stirs, isFree, dirReg, hdir, hmode]

@[simp] theorem isFree_ioHandler (st : Status) (s : State) : isFree (ioHandler st s) = isFree s := by
  cases hr : st.rd <;> simp [isFree, hr]

@[simp] theorem isFree_ioOpen (st : Status) (s : State) : isFree (ioOpen st s) = isFree s := by
  simp [ioOpen]

/-- The toggles of a dispatch wait leave the world of an open dispatch (R12, R155). -/
theorem openedWorld_clockEdges (st : Status) (s : State) (k : Nat) :
    OpenedWorld s (clockEdges k (ioOpen st s)) st k := by
  obtain ⟨m, hworld, hm⟩ := ioHandler_world st s
  refine ⟨stirs false s, _, by rw [clockEdges_world, ioOpen, drive_world, hworld, ← World.moves_add,
    ← World.moves_add], fun hfree => by simp [stirs, hfree], fun hfree hdata => ?_⟩
  have hack : outReg (ioHandler st s).block .ioack = s.block.ioackOut := by
    cases hr : st.rd <;> simp [outReg, hr]
  rw [hm hfree hdata, hack]
  cases s.block.ioackOut <;> simp [stirs, hfree, Nat.add_assoc]

/-- The state of a dispatch that was opened at `s` and answered after `k` toggles, before its result is given. -/
def dispatched (st : Status) (s : State) (k : Nat) : State := ioClose (clockEdges k (ioOpen st s))

@[simp] theorem dispatched_inputs (st : Status) (s : State) (k : Nat) : (dispatched st s k).inputs = s.inputs := by
  simp [dispatched]
@[simp] theorem dispatched_waiting (st : Status) (s : State) (k : Nat) : (dispatched st s k).waiting = s.waiting := by
  simp [dispatched]
@[simp] theorem dispatched_memReply (st : Status) (s : State) (k : Nat) :
    (dispatched st s k).memReply = s.memReply := by
  simp [dispatched]

/-- The handler's byte stays in the data register, the direction and the acknowledge are back, the clock stands where
the last toggle left it (R155). -/
theorem dispatched_block (st : Status) (s : State) (k : Nat) :
    (dispatched st s k).block =
      { s.block with
        clkOut := levelAfter s k
        clockMode := modeAfter s k
        dataOut := if st.rd then dispatchByte s st else s.block.dataOut
        dataDir := .input
        ioackOut := false } := by
  cases hr : st.rd <;> simp [dispatched, clockEdges_block, levelAfter, modeAfter, dispatchByte, hr]

/-- Closing a dispatch moves the environment for the data direction, if that was turned, and for the acknowledge. -/
theorem ioClose_world (s : State) (hack : s.block.ioackOut = true) :
    (ioClose s).world = World.moves (stirs (decide (s.block.dataDir = .output)) s + 1) s.world := by
  have hdir : (!decide (dirReg s.block .data = .input)) = decide (s.block.dataDir = .output) := by
    cases h : s.block.dataDir <;> simp [dirReg, h]
  have hlast : stirs (outReg (setDir .data .input s).block .ioack != false) (setDir .data .input s) = 1 := by
    simp [stirs, outReg, setDirReg, hack]
  rw [ioClose, drive_world, setDir_world, hlast, hdir, ← World.moves_add]

theorem dispatched_world (st : Status) (s : State) (k : Nat) : DispatchedWorld s (dispatched st s k) st k := by
  obtain ⟨n, m, hworld, hn, hm⟩ := openedWorld_clockEdges st s k
  refine ⟨n, _, by rw [dispatched, ioClose_world _ (by simp [clockEdges_block]), hworld, ← World.moves_add], hn,
    fun hfree hdata => ?_⟩
  have hdir : decide ((clockEdges k (ioOpen st s)).block.dataDir = .output) = st.rd := by
    have hin : s.block.dataDir = .input := hdata
    cases hr : st.rd <;> simp [clockEdges_block, hr, hin]
  have hturn : stirs st.rd (clockEdges k (ioOpen st s)) = st.rd.toNat := by cases st.rd <;> simp [stirs, hfree]
  rw [hm hfree hdata, hdir, hturn]
  omega

/-! ### How a dispatch wait ends, for either command -/

/-- A wait answered within its own pass closes the dispatch and gives its result (R92, R155). -/
theorem ioFinish_answered (job : WaitJob) (report : Nat → State → State) (bound : BitVec 16) (k : Nat) (s : State)
    (hrel : ReleasesIoAfter s k) (hwithin : WithinWait bound s k) :
    ioFinish job report (awaitLine iorqGone bound 0 s) = report k (ioClose (clockEdges k s)) := by
  have hfuel : k ≤ waitFuel bound s := by
    rcases hwithin with ⟨hb, hk⟩ | ⟨hb, hk⟩
    · rwa [waitFuel, if_pos hb]
    · rwa [waitFuel, if_neg hb]
  have hbound : bound = 0 ∨ 0 + k ≤ bound.toNat := hwithin.imp And.left fun h => by simpa using h.2
  have hdone : awaitLine iorqGone bound 0 s = (.done (0 + k), clockEdges k s) :=
    waitLoop_done _ _ _ _ _ _ hfuel hbound (fun j hj => by simp [iorqGone, hrel.2 j hj]) (by simp [iorqGone, hrel.1])
  rw [hdone, Nat.zero_add]
  rfl

/-- A wait without a bound that `iorq` outlasts goes on, its dispatch open (R92; log 3). -/
theorem ioFinish_unanswered (job : WaitJob) (report : Nat → State → State) (k : Nat) (s : State)
    (hheld : ∀ j, j ≤ waitToggles s → line (clockEdges j s) .iorq = true) :
    ioFinish job report (awaitLine iorqGone 0 k s) = stillWaiting s job k := by
  rw [awaitLine_unanswered iorqGone k s fun j hj => by simp [iorqGone, hheld j hj]]
  exact suspend_clockEdges s job k

theorem clockEdges_suspend_comm (n : Nat) (s : State) (w : Waiting) :
    clockEdges n (s.suspend w) = (clockEdges n s).suspend w :=
  clockEdges_withWait n s (some w) none

/-- The rest of a wait, told from the end of a step that has made `n` of its toggles. -/
theorem releasesIoAfter_suspend (n m : Nat) (s : State) (w : Waiting) (h : ReleasesIoAfter s (n + m)) :
    ReleasesIoAfter ((clockEdges n s).suspend w) m := by
  have hline : ∀ j, line (clockEdges j ((clockEdges n s).suspend w)) .iorq = line (clockEdges (n + j) s) .iorq :=
    fun j => by rw [clockEdges_suspend_comm, ← clockEdges_add]; rfl
  exact ⟨(hline m).trans h.1, fun j hj => (hline j).trans (h.2 _ (Nat.add_lt_add_left hj n))⟩

/-- A step that stops in the middle of a wait costs the last result and nothing else. -/
theorem clockEdges_unsuspend_suspend (n m : Nat) (s : State) (w : Waiting) (hw : s.waiting = none) :
    clockEdges m ((clockEdges n s).suspend w).unsuspend = { clockEdges (n + m) s with result := none } := by
  rw [clockEdges_unsuspend, clockEdges_suspend_comm, ← clockEdges_add]
  have hnone : (clockEdges (n + m) s).waiting = none := by simp [hw]
  exact congrArg (fun w => { clockEdges (n + m) s with waiting := w, result := none }) hnone.symm

/-- A wait without a bound ends however many toggles the environment takes, in the first step or in a later one, and
in the same state up to what its report overwrites (premise P3 of R28). -/
theorem ioFinish_answered_in_the_end (job : WaitJob) (report : Nat → State → State)
    (hres : ∀ k s, resumeWait ⟨job, k⟩ s = ioFinish job report (awaitLine iorqGone 0 k s.unsuspend))
    (hrep : ∀ k s r, report k (ioClose { s with result := r }) = report k (ioClose s))
    (k : Nat) (s : State) (hw : s.waiting = none) (hrel : ReleasesIoAfter s k) :
    ∃ n, Resumes n (ioFinish job report (awaitLine iorqGone 0 0 s)) (report k (ioClose (clockEdges k s))) := by
  rcases Nat.lt_or_ge (waitToggles s) k with hlate | hsoon
  · obtain ⟨m, rfl⟩ := Nat.exists_eq_add_of_le (Nat.le_of_lt hlate)
    have hstill : ioFinish job report (awaitLine iorqGone 0 0 s) =
        (clockEdges (waitToggles s) s).suspend ⟨job, 0 + waitToggles s⟩ := by
      rw [ioFinish_unanswered job report 0 s fun j hj => hrel.2 j (Nat.lt_of_le_of_lt hj hlate), suspend_clockEdges]
    obtain ⟨n, hn⟩ := ioFinish_resumes job report hres m _ _ rfl rfl (releasesIoAfter_suspend _ m s _ hrel)
    rw [clockEdges_unsuspend_suspend _ m s _ hw, hrep, ← hstill, Nat.zero_add] at hn
    exact ⟨n, hn⟩
  · exact ⟨0, ioFinish_answered job report 0 k s hrel (.inl ⟨rfl, hsoon⟩)⟩

/-- A step with an unanswered dispatch wait only makes its toggles (R92; log 3). -/
theorem step_unanswered (job : WaitJob) (report : Nat → State → State)
    (hres : ∀ k s, resumeWait ⟨job, k⟩ s = ioFinish job report (awaitLine iorqGone 0 k s.unsuspend))
    (k : Nat) (s : State) (hw : s.waiting = some ⟨job, k⟩)
    (hheld : ∀ j, j ≤ waitToggles s → line (clockEdges j s) .iorq = true) :
    step s = .next (stillWaiting s job k) := by
  rw [step_waiting s _ hw, hres, ioFinish_unanswered job report k s.unsuspend fun j hj => by
    rw [clockEdges_unsuspend]; exact hheld j hj]
  rfl

/-! ### IO_DISPATCH -/

/-- IO_DISPATCH in an I/O cycle writes `last_status` and dispatches (R155). -/
theorem exec_ioDispatch_io (bound : BitVec 16) (s : State) (hlive : Live s) (hiorq : (sample s).iorq = true)
    (hmreq : (sample s).mreq = false) :
    exec (.ioDispatch bound) s =
      .next (ioDispatchFinish (sample s) (awaitLine iorqGone bound 0
        (ioOpen (sample s) (s.setBlock { s.block with lastStatus := packStatus (sample s) })))) := by
  refine (whenLive_live (ioDispatchBody bound) s hlive).trans ?_
  simp [ioDispatchBody, hiorq, hmreq]

/-- The state in which IO_DISPATCH comes back complete: every register of the block, the result, the world (R155). -/
theorem ioReport_dispatched (st : Status) (s : State) (k : Nat) :
    let t := ioReport st k (dispatched st (s.setBlock { s.block with lastStatus := packStatus st }) k)
    t.block =
      { s.block with
        lastStatus := packStatus st
        clkOut := levelAfter s k
        clockMode := modeAfter s k
        dataOut := if st.rd then dispatchByte s st else s.block.dataOut
        dataDir := .input
        ioackOut := false } ∧
    t.result =
      some { code := 0, status := some (packStatus st), toggles := some (BitVec.ofNat 16 (min k 65535)) } ∧
    DispatchedWorld s t st k ∧ SameOutside s t := by
  refine ⟨(dispatched_block st _ k).trans rfl, rfl, dispatched_world st (s.setBlock _) k, ?_, ?_, ?_⟩ <;>
    simp [ioReport]

/-- Settles O48: the command is the dispatch of its own snapshot, and the dispatch wait is answered in its pass, in a
later step, or not yet. -/
theorem ioDispatchServesThePort : Obligations.IoDispatchServesThePort := by
  refine ⟨fun bound s hlive => ?_, fun s st k hw hheld =>
    step_unanswered _ (ioReport st) (fun _ _ => rfl) k s hw hheld⟩
  intro st s₁ served hiorq hmreq
  have hexec := exec_ioDispatch_io bound s hlive hiorq hmreq
  refine ⟨fun k hrel hwithin => ?_, ?_, ?_⟩
  · exact ⟨_, hexec.trans (congrArg _ (ioFinish_answered _ _ bound k _ hrel hwithin)), ioReport_dispatched st s k⟩
  · rintro rfl hw k hrel
    obtain ⟨n, hn⟩ := ioFinish_answered_in_the_end (.ioDispatch st) (ioReport st) (fun _ _ => rfl)
      (fun _ _ _ => rfl) k (ioOpen st s₁) ((ioOpen_waiting st s₁).trans hw) hrel
    exact ⟨n, _, _, hexec, hn, ioReport_dispatched st s k⟩
  · rintro rfl hheld
    exact hexec.trans (congrArg _ (ioFinish_unanswered _ _ 0 _ hheld))

/-! ### TICK in an I/O cycle -/

/-- The two clock edges before a tick's sample (R140, R142). -/
theorem tickEdges_eq_atSample (s : State) (hfree : isFree s = false) : setClk true (setClk false s) = atSample s := by
  have hlow : isFree (setClk false s) = false := by simp [isFree]
  have hworld : (setClk true (setClk false s)).world = World.moves (s.block.clkOut.toNat + 1) s.world := by
    rw [setClk_world, setClk_world, ← World.moves_add]
    cases hc : s.block.clkOut <;> simp [stirs, hfree, hlow]
  exact congrArg
    (fun w : World => { s with block := { s.block with clkOut := true, clockMode := .singleStep }, world := w }) hworld

/-- The block's registers after the ClassifyCycle state (R140). -/
theorem recordCycle_atSample (s : State) (st : Status) :
    recordCycle st (firedBy st s.block.prevRd s.block.prevWr) (atSample s).block = afterClassify s st := by
  cases h : (firedBy st s.block.prevRd s.block.prevWr).opfetch <;>
    simp [recordCycle, afterClassify, boundaryShift, atSample, h]

/-- A tick that is an I/O cycle makes its edges, classifies its snapshot and dispatches (R140, R143). -/
theorem exec_tick_io (bound : BitVec 16) (s : State) (hlive : Live s) (hfree : isFree s = false)
    (hio : kindOf (sample (atSample s)) = .io) :
    let st := sample (atSample s)
    let fired := firedBy st s.block.prevRd s.block.prevWr
    exec (.tick bound) s =
      .next (tickFinish st fired (fired.opfetch && newInstruction st.data s.block.bdPrev s.block.bdPrev2)
        (awaitLine iorqGone bound 0 (ioOpen st ((atSample s).setBlock (afterClassify s st))))) := by
  intro st fired
  refine (whenLive_live (unlessFree (tickBody bound)) s hlive).trans (congrArg _ ?_)
  rw [unlessFree, hfree, if_neg Bool.false_ne_true, tickBody, tickEdges_eq_atSample s hfree, ← recordCycle_atSample]
  exact if_pos hio

/-- The or of the six bits, BUS first. -/
theorem anyHit_eq (f : CatFlags) :
    anyHit f = (f.bus || f.memrd || f.memwr || f.iord || f.iowr || f.opfetch) := by
  simp only [anyHit, anySpecific, Bool.or_comm _ f.bus, Bool.or_assoc]

/-- The state in which a tick that dispatched comes back complete: every register of the block, the result, the world
(R140, R144, R155). -/
theorem tickReport_dispatched (s : State) (st : Status) (k : Nat) :
    let s₁ := (atSample s).setBlock (afterClassify s st)
    let fired := firedBy st s.block.prevRd s.block.prevWr
    let t := tickReport st fired (fired.opfetch && newInstruction st.data s.block.bdPrev s.block.bdPrev2) true k
      (dispatched st s₁ k)
    t.block =
      { afterClassify s st with
        clkOut := levelAfter s₁ k
        dataOut := if st.rd then dispatchByte s₁ st else s.block.dataOut
        dataDir := .input
        ioackOut := false } ∧
    t.result = some (tickResult s st true k) ∧ DispatchedWorld s₁ t st k ∧ SameOutside s t := by
  intro s₁ fired t
  have hmode : modeAfter s₁ k = .singleStep := by exact ite_self _
  refine ⟨(dispatched_block st s₁ k).trans (by rw [hmode]; rfl), ?_, dispatched_world st s₁ k, ?_, ?_, ?_⟩
  · simp [t, tickReport, tickResult, dispatched_block, anyHit_eq, s₁, fired, afterClassify, codeOk, togglesField]
  all_goals simp [t, tickReport, s₁, atSample]

/-- Settles O36: the tick is the dispatch of the snapshot it has classified, and the dispatch wait is answered in its
pass, in a later step, or not yet. -/
theorem tickInIoDispatches : Obligations.TickInIoDispatches := by
  refine ⟨fun bound s hlive hfree => ?_, fun s st fired new k hw hheld =>
    step_unanswered _ (tickReport st fired new true) (fun _ _ => rfl) k s hw hheld⟩
  intro st s₁ served hio
  have hexec := exec_tick_io bound s hlive hfree hio
  refine ⟨fun k hrel hwithin => ?_, ?_, ?_⟩
  · exact ⟨_, hexec.trans (congrArg _ (ioFinish_answered _ _ bound k _ hrel hwithin)), tickReport_dispatched s st k⟩
  · rintro rfl hw k hrel
    obtain ⟨n, hn⟩ := ioFinish_answered_in_the_end (.tick st _ _) (tickReport st _ _ true) (fun _ _ => rfl)
      (fun _ _ _ => rfl) k (ioOpen st s₁) ((ioOpen_waiting st s₁).trans hw) hrel
    exact ⟨n, _, _, hexec, hn, tickReport_dispatched s st k⟩
  · rintro rfl hheld
    exact hexec.trans (congrArg _ (ioFinish_unanswered _ _ 0 _ hheld))

end Sys2Proof.Machine
end

section
/-! PROOFS. The edges that CLK_CYCLE makes by software (spec/41_clock_generator.md R95, R97), and how a command that
makes clock edges by software is carried out or refused. -/

namespace Sys2Proof.Machine

/-! ### Commands that make clock edges by software -/

/-- Outside FreeRunning mode a live block carries the command out (R97, R178). -/
theorem whenLive_unlessFree_clocked (body : State → State) (s : State) (hlive : Live s) (hfree : isFree s = false) :
    whenLive (unlessFree body) s = .next (body s) := by
  rw [whenLive_live _ s hlive, unlessFree, hfree, if_neg Bool.false_ne_true]

/-- In FreeRunning mode a live block refuses the command (R97). -/
theorem whenLive_unlessFree_free (body : State → State) (s : State) (hlive : Live s) (hfree : isFree s = true) :
    whenLive (unlessFree body) s = .next (refuse .mode s) := by
  rw [whenLive_live _ s hlive, unlessFree, if_pos hfree]

/-! ### Edge pairs -/

/-- Outside FreeRunning mode the environment moves exactly when a line has changed (R12). -/
theorem stirs_of_clocked (changed : Bool) (s : State) (hfree : isFree s = false) : stirs changed s = changed.toNat := by
  cases changed <;> simp [stirs, hfree]

/-- `SetClk(v)` outside FreeRunning mode: the level, the mode, one move if the level changed (R90). -/
theorem setClk_clocked (v : Bool) (s : State) (hfree : isFree s = false) :
    setClk v s =
      { s with
        block := { s.block with clkOut := v, clockMode := .singleStep }
        world := World.moves (s.block.clkOut != v).toNat s.world } := by
  have hworld : (setClk v s).world = World.moves (s.block.clkOut != v).toNat s.world := by
    rw [setClk_world, stirs_of_clocked _ s hfree]
  exact congrArg
    (fun w : World => { s with block := { s.block with clkOut := v, clockMode := .singleStep }, world := w }) hworld

/-- A rising and a falling edge from a line that is already low and stepped: two moves of the environment, and the
block is as it was (R90, R95). -/
theorem setClk_pair (s : State) (hlow : s.block.clkOut = false) (hmode : s.block.clockMode = .singleStep) :
    setClk false (setClk true s) = s.stir 2 := by
  have hfree : isFree s = false := by simp [isFree, hmode]
  have hblock : { s.block with clkOut := false, clockMode := .singleStep } = s.block := by rw [← hlow, ← hmode]
  rw [setClk_clocked false _ (by simp [isFree]), setClk_clocked true s hfree]
  simp [State.stir, hlow, hblock]

/-- `n` edge pairs are `2 * n` moves of the environment (R95). -/
theorem clockPairs_eq_stir (n : Nat) (s : State) (hlow : s.block.clkOut = false)
    (hmode : s.block.clockMode = .singleStep) : clockPairs n s = s.stir (2 * n) := by
  induction n generalizing s with
  | zero => rfl
  | succ n ih =>
    calc clockPairs (n + 1) s
      _ = clockPairs n (s.stir 2) := by rw [clockPairs, setClk_pair s hlow hmode]
      _ = (s.stir 2).stir (2 * n) := ih (s.stir 2) hlow hmode
      _ = s.stir (2 * (n + 1)) := by simp only [State.stir, ← World.moves_add]; rw [Nat.mul_succ, Nat.add_comm]

/-- The line made low once, then `n` edge pairs (R95). -/
theorem clockPairs_setClk_low (n : Nat) (s : State) (hfree : isFree s = false) :
    clockPairs n (setClk false s) =
      { s with
        block := { s.block with clkOut := false, clockMode := .singleStep }
        world := World.moves (s.block.clkOut.toNat + 2 * n) s.world } := by
  rw [clockPairs_eq_stir n (setClk false s) rfl rfl, setClk_clocked false s hfree, Bool.bne_false, World.moves_add]
  rfl

/-- Settles O25: the line is made low first, and from there each pair of edges is two moves of the environment. -/
theorem clkCycleMakesItsEdges : Obligations.ClkCycleMakesItsEdges := by
  refine fun n s => ⟨fun hlive hfree => ?_, whenLive_unlessFree_free _ s, whenLive_faulted _ s⟩
  calc exec (.clkCycle n) s
    _ = .next (complete (clockPairs n.toNat (setClk false s))) := whenLive_unlessFree_clocked _ s hlive hfree
    _ = _ := by rw [clockPairs_setClk_low n.toNat s hfree]; rfl

end Sys2Proof.Machine
end

section
/-! PROOFS. The four branches of the boundary detector's verdict (spec/43_boundary_detector.md R115), one lemma each,
and the two statements about them. -/

namespace Sys2Proof.Machine

/-! ### The verdict, branch by branch -/

/-- The first branch: the byte before is the `CB` prefix (R115). -/
theorem newInstruction_prev_cb (cur p2 : Byte) :
    newInstruction cur 0xCB#8 p2 = true ↔ p2 = 0xCB#8 ∨ p2 = 0xDD#8 ∨ p2 = 0xFD#8 := by
  simp [newInstruction, or_assoc]

/-- The second branch: the byte before is the `ED` prefix (R115). -/
theorem newInstruction_prev_ed (cur p2 : Byte) : newInstruction cur 0xED#8 p2 = true ↔ p2 = 0xCB#8 := by
  simp [newInstruction]

/-- The third branch, the only one that looks at the byte classified: the byte before is an index prefix (R115). -/
theorem newInstruction_prev_index (cur p1 p2 : Byte) (h : p1 = 0xDD#8 ∨ p1 = 0xFD#8) :
    newInstruction cur p1 p2 = true ↔ p2 = 0xCB#8 ∨ cur = 0xDD#8 ∨ cur = 0xED#8 ∨ cur = 0xFD#8 := by
  rcases h with rfl | rfl <;> simp [newInstruction, or_assoc]

/-- The last branch: the byte before is no prefix (R115). -/
theorem newInstruction_prev_other (cur p1 p2 : Byte) (hcb : p1 ≠ 0xCB#8) (hed : p1 ≠ 0xED#8) (hdd : p1 ≠ 0xDD#8)
    (hfd : p1 ≠ 0xFD#8) : newInstruction cur p1 p2 = true := by
  simp [newInstruction, hcb, hed, hdd, hfd]

/-- Unless the byte before is an index prefix, the verdict does not look at the byte classified (R115). -/
theorem newInstruction_eq_of_prev_not_index (cur other p1 p2 : Byte) (hdd : p1 ≠ 0xDD#8) (hfd : p1 ≠ 0xFD#8) :
    newInstruction other p1 p2 = newInstruction cur p1 p2 := by
  simp [newInstruction, hdd, hfd]

/-! ### BD_CLASSIFY -/

/-- A live block answers the verdict on the bytes as they stood and moves them on (R115, R116). -/
theorem exec_bdClassify_live (cur : Byte) (s : State) (hlive : Live s) :
    exec (.bdClassify cur) s =
      .next ((s.setBlock (boundaryShift cur s.block)).answer
        { code := codeOk, newInstr := some (boundaryVerdict cur s.block) }) := by
  rw [exec, execBdClassify, whenLive_live _ s hlive]

/-- A faulted block refuses the classification (R178, D9). -/
theorem refusedWith_bdClassify_faulted (cur : Byte) (s : State) (hfault : ¬Live s) :
    RefusedWith (.bdClassify cur) s 4 := by
  rw [RefusedWith, exec, execBdClassify, whenLive_faulted _ s hfault]
  rfl

/-- Settles O39: a live block carries the classification out, and its verdict is read off branch by branch. -/
theorem bdClassifyMovesTheBytesOn : Obligations.BdClassifyMovesTheBytesOn := by
  refine fun cur s => ⟨fun hlive => ⟨boundaryVerdict cur s.block, exec_bdClassify_live cur s hlive, ?_, ?_, ?_, ?_⟩,
    refusedWith_bdClassify_faulted cur s⟩
  · intro hcb
    rw [boundaryVerdict, hcb]
    exact newInstruction_prev_cb cur _
  · intro hed
    rw [boundaryVerdict, hed]
    exact newInstruction_prev_ed cur _
  · exact newInstruction_prev_index cur _ _
  · exact newInstruction_prev_other cur _ _

/-! ### The rule table -/

/-- Settles O60, along the four branches of the rule. -/
theorem detectorFollowsItsFourBranches : Obligations.DetectorFollowsItsFourBranches := by
  refine fun cur b => ⟨?_, fun other => newInstruction_eq_of_prev_not_index cur other _ _, rfl⟩
  rw [boundaryVerdict]
  split_ifs with hcb hed hindex
  · rw [hcb]
    exact newInstruction_prev_cb cur _
  · rw [hed]
    exact newInstruction_prev_ed cur _
  · exact newInstruction_prev_index cur _ _ hindex
  · obtain ⟨hdd, hfd⟩ := not_or.1 hindex
    exact iff_true_intro (newInstruction_prev_other cur _ _ hcb hed hdd hfd)

end Sys2Proof.Machine
end

section
/-! PROOFS. The comparison of a range (spec/44_watch_break.md R125) and the comparator tree built from it (R130 to
R133): each category's two hits, and the two statements about them. -/

namespace Sys2Proof.Machine

/-! ### The comparison -/

/-- Both ends included, compared as unsigned numbers, at every width (R125). -/
theorem inRange_iff {w : Nat} (r : Range w) (v : BitVec w) :
    inRange r v = true ↔ r.start.toNat ≤ v.toNat ∧ v.toNat ≤ r.last.toNat := by
  rw [inRange, Bool.and_eq_true, decide_eq_true_iff, decide_eq_true_iff, BitVec.le_def, BitVec.le_def]

/-- No wrap-around: a value between the ends would put the ends in order (R125). -/
theorem inRange_inverted {w : Nat} (r : Range w) (v : BitVec w) (hinv : r.last.toNat < r.start.toNat) :
    inRange r v = false := by
  refine Bool.eq_false_iff.2 fun hin => ?_
  obtain ⟨hstart, hlast⟩ := (inRange_iff r v).1 hin
  exact absurd (hstart.trans hlast) (Nat.not_le.2 hinv)

/-- Settles O42: both widths are instances of the comparison at any width. -/
theorem rangeIncludesBothEnds : Obligations.RangeIncludesBothEnds :=
  ⟨fun r v => ⟨inRange_iff r v, inRange_inverted r v⟩, fun r v => ⟨inRange_iff r v, inRange_inverted r v⟩⟩

/-! ### The comparator tree -/

/-- The port of an address is its low byte (R40). -/
theorem portOf_eq_setWidth (a : Addr) : portOf a = a.setWidth 8 :=
  (BitVec.setWidth_eq_extractLsb' (by decide)).symm

/-- The range of IORD is compared with the low byte of the address (R127). -/
theorem specificHits_iord (bank : RangeBank) (s : Status) (f : CatFlags) :
    (specificHits bank s f).iord = (f.iord && inRange bank.iord (s.addr.setWidth 8)) := by
  rw [← portOf_eq_setWidth]
  rfl

/-- The range of IOWR is compared with the low byte of the address (R127). -/
theorem specificHits_iowr (bank : RangeBank) (s : Status) (f : CatFlags) :
    (specificHits bank s f).iowr = (f.iowr && inRange bank.iowr (s.addr.setWidth 8)) := by
  rw [← portOf_eq_setWidth]
  rfl

/-- BUS logs only what no specific category has logged (R130, R131, D21). -/
theorem logHits_bus (bank : RangeBank) (s : Status) (f : CatFlags) :
    (logHits bank s f).bus = (!anySpecific (logHits bank s f) && inRange bank.bus s.addr) := rfl

/-- BUS breaks whatever else has hit (R130, R131). -/
theorem brkHits_bus (bank : RangeBank) (s : Status) (f : CatFlags) :
    (brkHits bank s f).bus = inRange bank.bus s.addr := rfl

/-- Settles O45, category by category: the hits of the whole-address categories are the definitions' own, those of the
ports and of BUS have their lemmas, and the two bits are the or of the six. -/
theorem comparatorTreeHits : Obligations.ComparatorTreeHits := by
  intro log brk st f port l b
  exact ⟨rfl, rfl, rfl, rfl,
    specificHits_iord log st f, specificHits_iord brk st f, specificHits_iowr log st f, specificHits_iowr brk st f,
    rfl, rfl, logHits_bus log st f, brkHits_bus brk st f, anyHit_eq l, anyHit_eq b⟩

end Sys2Proof.Machine
end

section
/-! PROOFS. The memory path (spec/46_surrounding_interfaces.md R160): what a store and a load leave once the act has
been taken, and the statement about both. -/

namespace Sys2Proof.Machine

/-- A step that takes a MemWrite is the access on the state with the act taken (R160, R210). -/
theorem step_memWrite (s : State) (a : Addr) (v : Byte) (rest : List Input) (hw : s.waiting = none)
    (hi : s.inputs = .memWrite a v :: rest) : step s = .next (memWrite a v (takeInput s)) := by
  simp only [step, hw, hi]

/-- A step that takes a MemRead is the access on the state with the act taken (R160, R210). -/
theorem step_memRead (s : State) (a : Addr) (rest : List Input) (hw : s.waiting = none)
    (hi : s.inputs = .memRead a :: rest) : step s = .next (memRead a (takeInput s)) := by
  simp only [step, hw, hi]

theorem takeInput_inputs (s : State) (act : Input) (rest : List Input) (hi : s.inputs = act :: rest) :
    (takeInput s).inputs = rest := congrArg List.tail hi

/-- Taking an act looks at the clock mode alone, so the environment moves as it would from the state before (R12). -/
theorem takeInput_mem (s : State) : (takeInput s).world.mem = (World.moves (stirs false s) s.world).mem := rfl

theorem ownsBus_takeInput (s : State) (hown : s.block.ownership = .supervisorOwned) : ownsBus (takeInput s) = true :=
  decide_eq_true hown

/-- An owned store stores its own byte, not a free one (R160). -/
theorem memWrite_mem_of_owned (a : Addr) (v : Byte) (s : State) (hown : ownsBus s = true) :
    (memWrite a v s).world.mem = Memory.write s.world.mem a v :=
  congrArg (Memory.write s.world.mem a) (if_pos hown)

/-- An owned load replies the byte of the memory, not a free one (R160). -/
theorem memRead_reply_of_owned (a : Addr) (s : State) (hown : ownsBus s = true) :
    (memRead a s).memReply = some (Memory.read s.world.mem a) :=
  congrArg some (if_pos hown)

/-- Settles O55: the access comes after the environment's moves, which keep the memory canonical, so that the store
reads back as stored. -/
theorem memoryPathKeepsItsContract : Obligations.MemoryPathKeepsItsContract := by
  intro s rest a hw hcanon hown mem
  have howns : ownsBus (takeInput s) = true := ownsBus_takeInput s hown
  refine ⟨fun v hi => ?_, fun hi => ?_⟩
  · refine ⟨_, step_memWrite s a v rest hw hi, rfl, takeInput_inputs s _ rest hi, fun c => ?_⟩
    rw [memWrite_mem_of_owned a v _ howns, takeInput_mem]
    exact Memory.read_write mem a c v (World.wf_moves _ s.world hcanon)
  · exact ⟨_, step_memRead s a rest hw hi, rfl, takeInput_inputs s _ rest hi, rfl,
      memRead_reply_of_owned a _ howns⟩

end Sys2Proof.Machine
end

section
/-! PROOFS. The trace loop (spec/46_surrounding_interfaces.md R163, spec/70_reset_and_hazards.md R207): all that one
act of the loop can do to its variables, what a tick that came back complete reports to it, and the statement about
its count and its ends. -/

namespace Sys2Proof.Machine

/-! ### A step of the machine always answers a next state -/

theorem exec_next (i : Instr) (s : State) : ∃ t, exec i s = .next t := by
  cases i <;> exact ⟨_, rfl⟩

/-- No step stops the machine: each of its faults and refusals is a result (R175 to R177). -/
theorem step_next (s : State) : ∃ t, step s = .next t := by
  cases hw : s.waiting with
  | some w => exact ⟨_, step_waiting s w hw⟩
  | none =>
    cases hi : s.inputs with
    | nil => exact ⟨idle s, by simp only [step, hw, hi]⟩
    | cons act rest =>
      cases act with
      | command word =>
        cases hd : decode word with
        | error e => exact ⟨refuseWord (takeInput s), by simp only [step, hw, hi, hd]⟩
        | ok i =>
          obtain ⟨t, ht⟩ := exec_next i (takeInput s)
          exact ⟨t, by simp only [step, hw, hi, hd, ht]⟩
      | blockReset => exact ⟨blockReset (takeInput s), by simp only [step, hw, hi]⟩
      | latches m => exact ⟨setLatches m (takeInput s), by simp only [step, hw, hi]⟩
      | memWrite a v => exact ⟨_, step_memWrite s a v rest hw hi⟩
      | memRead a => exact ⟨_, step_memRead s a rest hw hi⟩

/-- A command sent is carried out on the state with its word taken (R210). -/
theorem step_sendCommand (i : Instr) (s : State) (hw : s.waiting = none) (hd : decode (encode i) = .ok i) :
    step (s.withActs [sendCommand i]) = exec i (settle false s) := by
  have hidle : (s.withActs [sendCommand i]).waiting = none := hw
  have hsent : (s.withActs [sendCommand i]).inputs = .command (encode i) :: s.inputs := rfl
  simp only [step, hidle, hsent, hd]
  rfl

/-- A command of the loop is carried out and the loop goes on from the state it leaves. -/
theorem issue_eq (i : Instr) (s : State) (f : State → TraceOutcome) :
    ∃ u, step (s.withActs [sendCommand i]) = .next u ∧ issue i s f = f u := by
  obtain ⟨u, hu⟩ := step_next (s.withActs [sendCommand i])
  exact ⟨u, hu, by rw [issue, hu]⟩

theorem pursue_eq (s : State) (f : State → TraceOutcome) : ∃ u, pursue s f = f u := by
  obtain ⟨u, hu⟩ := step_next s
  exact ⟨u, by rw [pursue, hu]⟩

/-! ### The acts of the loop, phase by phase -/

theorem traceStep_waiting (t : Trace) (s : State) (hw : s.waiting ≠ none) : ∃ u, traceStep t s = .goOn t u := by
  rw [traceStep, if_pos (Option.isSome_iff_ne_none.2 hw)]
  exact pursue_eq s _

theorem traceStep_testing (t : Trace) (s : State) (hw : s.waiting = none) (hp : t.phase = .testing) :
    traceStep t s = traceTest t s := by
  simp [traceStep, hw, hp]

theorem traceStep_ticking (t : Trace) (s : State) (hw : s.waiting = none) (hp : t.phase = .ticking) :
    traceStep t s = traceTicked t s := by
  simp [traceStep, hw, hp]

/-- Inside the disassembler an act changes nothing but the phase and the output, and sends no tick of the loop's own
(R164). -/
theorem traceStep_disassembling (t : Trace) (s : State) (left : List (BitVec 16)) (echo : Option TraceOutput)
    (hw : s.waiting = none) (hp : t.phase = .disassembling left echo) :
    ∃ phase output s', traceStep t s = .goOn { t with phase := phase, output := output } s' ∧ phase ≠ .ticking := by
  cases left with
  | nil => exact ⟨.testing, t.output ++ echo.toList, s, by simp [traceStep, hw, hp], nofun⟩
  | cons bound rest =>
    obtain ⟨u, -, hu⟩ :=
      issue_eq (.tick bound) s fun s => .goOn { t with phase := .disassembling rest echo } s
    exact ⟨.disassembling rest echo, t.output, u, by simp [traceStep, hw, hp, hu], nofun⟩

/-- The second of the three tests: the trace has a limit and has reached it (R163). -/
def Trace.reached (t : Trace) : Bool := decide (t.limit ≠ 0 ∧ t.limit ≤ t.count)

theorem Trace.reached_iff (t : Trace) : t.reached = true ↔ t.limit ≠ 0 ∧ t.limit ≤ t.count := decide_eq_true_iff

/-- One reason is enough to end the loop, and the reasons given are all that hold (R163, D35). -/
theorem traceSampled_ends (t : Trace) (halted : Bool) (s : State)
    (h : (halted || t.reached || t.brk) = true) :
    traceSampled t halted s = .ended t ⟨halted, t.reached, t.brk⟩ s := if_pos h

/-- With no reason to end, the loop sends its tick (R163). -/
theorem traceSampled_goesOn (t : Trace) (halted : Bool) (s : State)
    (h : (halted || t.reached || t.brk) = false) :
    ∃ u, traceSampled t halted s = .goOn { t with phase := .ticking } u := by
  obtain ⟨u, -, hu⟩ := issue_eq (.tick 0) s fun s => .goOn { t with phase := .ticking } s
  exact ⟨u, (if_neg (Bool.eq_false_iff.1 h)).trans hu⟩

/-- SAMPLE gives a result at once, complete or refused (R101, R178). -/
theorem exec_sample_result (s : State) : ∃ u r, exec .sample s = .next u ∧ u.result = some r := by
  rw [exec, execSample]
  by_cases hlive : s.block.faultCode = 0
  · exact ⟨_, _, whenLive_live _ s hlive, rfl⟩
  · exact ⟨_, _, whenLive_faulted _ s hlive, rfl⟩

/-- The head of the loop always reaches its three tests (R163). -/
theorem traceTest_eq_traceSampled (t : Trace) (s : State) (hw : s.waiting = none) :
    ∃ halted u, traceTest t s = traceSampled t halted u := by
  obtain ⟨u, r, hu, hr⟩ := exec_sample_result (settle false s)
  rw [traceTest, issue, step_sendCommand .sample s hw rfl, hu]
  simp only [hr]
  cases okStatus r with
  | some st => exact ⟨_, _, rfl⟩
  | none => exact ⟨_, _, rfl⟩

/-- The body of the loop after a complete tick: the count follows OPFETCH, bit 5 of `fired`, and the break flag is
`break_hit` (R163). -/
theorem traceReport_goesOn (t : Trace) (st : Packed) (r : Result) (s : State) :
    ∃ u s', traceReport t st r s = .goOn u s' ∧ u.limit = t.limit ∧ u.phase ≠ .ticking ∧
      u.count = t.count + ((r.fired.getD 0).getLsbD 5).toNat ∧ u.brk = r.breakHit.getD false := by
  cases hf : (r.fired.getD 0).getLsbD 5 <;> simp only [traceReport, hf] <;> exact ⟨_, _, rfl, rfl, nofun, rfl, rfl⟩

/-- A refused tick is no break and no opcode fetch (log 16). -/
theorem traceTicked_refused (t : Trace) (s : State) (r : Result) (hr : s.result = some r) (hcode : r.code ≠ 0) :
    traceTicked t s = .goOn { t with brk := false, phase := .testing } s := by
  have hnone : okStatus r = none := if_neg hcode
  simp only [traceTicked, hr, hnone]

/-- A complete tick is reported to the loop (R163). -/
theorem traceTicked_complete (t : Trace) (s : State) (r : Result) (st : Packed) (hr : s.result = some r)
    (hcode : r.code = 0) (hst : r.status = some st) : traceTicked t s = traceReport t st r s := by
  have hsome : okStatus r = some st := (if_pos hcode).trans hst
  simp only [traceTicked, hr, hsome]

/-! ### All that one act of the loop can do -/

/-- What an act of the loop, made from `s` with the variables `t`, may leave. -/
inductive TraceAct (s : State) (t : Trace) : TraceOutcome → Prop
  /-- It keeps the limit, the count and the break flag, and sends the loop's own tick only below the limit. -/
  | kept (u : Trace) (s' : State) (hlimit : u.limit = t.limit) (hcount : u.count = t.count) (hbrk : u.brk = t.brk)
      (hphase : u.phase = .ticking → t.phase = .ticking ∨ t.reached = false) : TraceAct s t (.goOn u s')
  /-- It takes up the result of the loop's own tick. -/
  | ticked (u : Trace) (s' : State) (hw : s.waiting = none) (hp : t.phase = .ticking) (hlimit : u.limit = t.limit)
      (hcount : u.count ≤ t.count + 1) (hphase : u.phase ≠ .ticking) : TraceAct s t (.goOn u s')
  /-- It ends the loop, with every one of the three reasons that holds. -/
  | ended (why : TraceReasons) (s' : State) (hlimit : why.limit = t.reached) (hbrk : why.brk = t.brk)
      (hwhy : why.halt = true ∨ why.limit = true ∨ why.brk = true) : TraceAct s t (.ended t why s')

theorem traceSampled_act (t : Trace) (halted : Bool) (s u : State) : TraceAct s t (traceSampled t halted u) := by
  cases h : (halted || t.reached || t.brk) with
  | true =>
    rw [traceSampled_ends t halted u h]
    exact .ended _ u rfl rfl (by simpa [or_assoc] using h)
  | false =>
    obtain ⟨v, hv⟩ := traceSampled_goesOn t halted u h
    obtain ⟨hhead, -⟩ := Bool.or_eq_false_iff.1 h
    obtain ⟨-, hbelow⟩ := Bool.or_eq_false_iff.1 hhead
    rw [hv]
    exact .kept _ v rfl rfl rfl fun _ => .inr hbelow

theorem traceTicked_act (t : Trace) (s : State) (hw : s.waiting = none) (hp : t.phase = .ticking) :
    TraceAct s t (traceTicked t s) := by
  rw [traceTicked]
  split
  · exact .kept t s rfl rfl rfl .inl
  · rename_i r _
    split
    · rename_i st _
      obtain ⟨u, s', hu, hlimit, hphase, hcount, -⟩ := traceReport_goesOn t st r s
      rw [hu]
      exact .ticked u s' hw hp hlimit (hcount.le.trans (Nat.add_le_add_left (Bool.toNat_le _) _)) hphase
    · exact .ticked _ s hw hp rfl (Nat.le_succ _) nofun

/-- One act of the loop, along a wait in progress and the three phases (R163). -/
theorem traceStep_act (t : Trace) (s : State) : TraceAct s t (traceStep t s) := by
  by_cases hw : s.waiting = none
  · cases hp : t.phase with
    | testing =>
      obtain ⟨halted, u, hu⟩ := traceTest_eq_traceSampled t s hw
      rw [traceStep_testing t s hw hp, hu]
      exact traceSampled_act t halted s u
    | ticking =>
      rw [traceStep_ticking t s hw hp]
      exact traceTicked_act t s hw hp
    | disassembling left echo =>
      obtain ⟨phase, output, s', hu, hphase⟩ := traceStep_disassembling t s left echo hw hp
      rw [hu]
      exact .kept _ s' rfl rfl rfl fun h => absurd h hphase
  · obtain ⟨u, hu⟩ := traceStep_waiting t s hw
    rw [hu]
    exact .kept t u rfl rfl rfl .inl

/-! ### The limit along a run of the loop -/

theorem traceWithinLimit_start (limit : Nat) : TraceWithinLimit (Trace.start limit) :=
  fun _ => ⟨Nat.zero_le limit, nofun⟩

/-- An act that goes on keeps the trace within its limit: a tick is sent only below the limit, and counts one at most
(R163). -/
theorem TraceAct.keeps_withinLimit {s s' : State} {t u : Trace} (hact : TraceAct s t (.goOn u s'))
    (hin : TraceWithinLimit t) : u.limit = t.limit ∧ TraceWithinLimit u := by
  cases hact with
  | kept _ _ hlimit hcount _ hphase =>
    refine ⟨hlimit, fun hne => ?_⟩
    rw [hlimit] at hne ⊢
    rw [hcount]
    obtain ⟨hle, hlt⟩ := hin hne
    exact ⟨hle, fun hu => (hphase hu).elim hlt fun hbelow =>
      Nat.not_le.1 fun hge => Bool.eq_false_iff.1 hbelow (t.reached_iff.2 ⟨hne, hge⟩)⟩
  | ticked _ _ _ hp hlimit hcount hphase =>
    refine ⟨hlimit, fun hne => ?_⟩
    rw [hlimit] at hne ⊢
    exact ⟨hcount.trans ((hin hne).2 hp), fun hu => absurd hu hphase⟩

/-- A run of the loop that ends does so within its limit, with Limit among its reasons exactly if it has reached it
(R163, R207). -/
theorem traceRun_ended (n : Nat) (s u : State) (t₀ t : Trace) (why : TraceReasons) (hin : TraceWithinLimit t₀)
    (h : traceRun n t₀ s = .ended t why u) :
    t.limit = t₀.limit ∧ TraceWithinLimit t ∧ why.limit = t.reached := by
  induction n generalizing s t₀ with
  | zero => exact nomatch h
  | succ n ih =>
    have hact := traceStep_act t₀ s
    rw [traceRun] at h
    cases hstep : traceStep t₀ s with
    | goOn t₁ s₁ =>
      rw [hstep] at h hact
      obtain ⟨hlimit, hin₁⟩ := hact.keeps_withinLimit hin
      obtain ⟨hl, hrest⟩ := ih s₁ t₁ hin₁ h
      exact ⟨hl.trans hlimit, hrest⟩
    | ended t₁ why₁ s₁ =>
      rw [hstep] at h hact
      cases h
      cases hact with
      | ended _ _ hlimit => exact ⟨rfl, hin, hlimit⟩
    | stopped =>
      rw [hstep] at h
      exact nomatch h

/-- Within the limit, to have reached it is to have counted exactly that many opcode fetches (R163). -/
theorem Trace.reached_iff_of_withinLimit (t : Trace) (hin : TraceWithinLimit t) :
    t.reached = true ↔ t.limit ≠ 0 ∧ t.count = t.limit := by
  rw [t.reached_iff]
  exact and_congr_right fun hne => ⟨fun hle => Nat.le_antisymm (hin hne).1 hle, fun heq => heq.ge⟩

/-! ### A tick that came back complete -/

/-- What TICK, begun while `before` was the wait in progress, may leave at the end of one of its steps. -/
inductive TickOutcome (before : Option Waiting) : State → Prop
  /-- It came back complete (R144). -/
  | reported (st : Status) (fired : CatFlags) (new dispatched : Bool) (k : Nat) (v : State)
      (hw : v.waiting = before) : TickOutcome before (tickReport st fired new dispatched k v)
  /-- It came back refused, or with a fault (R158, R177). -/
  | failed (r : Result) (v : State) (hr : v.result = some r) (hcode : r.code ≠ 0) (hw : v.waiting = before) :
      TickOutcome before v
  /-- Its dispatch wait is unanswered (log 3). -/
  | waits (st : Status) (fired : CatFlags) (new : Bool) (k : Nat) (v : State) :
      TickOutcome before (v.suspend ⟨.tick st fired new, k⟩)

/-- The wait loop makes clock edges only, and so leaves the wait in progress alone. -/
theorem awaitLine_waiting (cond : State → Bool) (bound : BitVec 16) (k : Nat) (s : State) :
    (awaitLine cond bound k s).2.waiting = s.waiting := by
  obtain ⟨n, -, -, h⟩ := waitLoop_cases cond bound (waitFuel bound s) k s
  rw [awaitLine]
  rcases h with ⟨-, h⟩ | ⟨-, -, -, h⟩ | ⟨-, -, -, h⟩ <;> rw [h] <;> exact clockEdges_waiting n s

/-- A tick after a pass of its dispatch wait (R140, R158). -/
theorem tickFinish_outcome (before : Option Waiting) (st : Status) (fired : CatFlags) (new : Bool)
    (p : WaitEnd × State) (hw : p.2.waiting = before) : TickOutcome before (tickFinish st fired new p) := by
  obtain ⟨e, v⟩ := p
  cases e with
  | done k => exact .reported st fired new true k (ioClose v) hw
  | timeout k => exact .failed _ (raise .ioAckTimeout k v) rfl nofun hw
  | running k => exact .waits st fired new k v

/-- A tick that is carried out, in an I/O cycle and in any other (R140). -/
theorem tickBody_outcome (bound : BitVec 16) (s : State) : TickOutcome s.waiting (tickBody bound s) := by
  simp only [tickBody]
  split
  · exact tickFinish_outcome _ _ _ _ _ ((awaitLine_waiting _ _ _ _).trans (ioOpen_waiting _ _))
  · exact .reported _ _ _ false 0 _ rfl

/-- All that TICK can come to in its own step (R97, R140, R178). -/
theorem exec_tick_outcome (bound : BitVec 16) (s : State) :
    ∃ u, exec (.tick bound) s = .next u ∧ TickOutcome s.waiting u := by
  rw [exec, execTick]
  by_cases hlive : s.block.faultCode = 0
  · cases hfree : isFree s with
    | true => exact ⟨_, whenLive_unlessFree_free _ s hlive hfree, .failed _ _ rfl nofun rfl⟩
    | false => exact ⟨_, whenLive_unlessFree_clocked _ s hlive hfree, tickBody_outcome bound s⟩
  · exact ⟨_, whenLive_faulted _ s hlive, .failed _ _ rfl nofun rfl⟩

/-- A tick comes back complete only with its report, made in its own step or at the end of its wait (R140, R144). -/
theorem tickReturns_tickReport (bound : BitVec 16) (s t : State) (r : Result) (h : TickReturns bound s t r) :
    ∃ st fired new dispatched k v, t = tickReport st fired new dispatched k v := by
  obtain ⟨n, u, hu, hresumes, hidle, hr, hcode⟩ := h
  obtain ⟨u', hu', hout⟩ := exec_tick_outcome bound s
  obtain rfl := Host.Outcome.next.inj (hu.symm.trans hu')
  have inOwnStep : u.waiting = s.waiting → u = t := fun hw => by
    cases n with
    | zero => exact hresumes
    | succ n => exact absurd (hw.trans (hidle n.succ_ne_zero)) hresumes.1
  cases hout with
  | reported st fired new dispatched k v hw => exact ⟨st, fired, new, dispatched, k, v, (inOwnStep hw).symm⟩
  | failed r' _ hr' hcode' hw =>
    obtain rfl := inOwnStep hw
    obtain rfl := Option.some.inj (hr.symm.trans hr')
    exact absurd hcode hcode'
  | waits st fired new k v =>
    rcases resumes_ioFinish (.tick st fired new) (tickReport st fired new true) (fun _ _ => rfl) (fun _ _ => rfl)
      n k _ t rfl rfl hresumes with ⟨m, -, ht⟩ | ⟨m, -, ht⟩
    · exact ⟨st, fired, new, true, k + m, _, ht⟩
    · rw [ht] at hr
      exact nomatch hr

/-- The loop takes the count and the break flag from the report of its tick (R163). -/
theorem traceStep_tickReturns (bound : BitVec 16) (s₀ s : State) (r : Result) (t : Trace)
    (hret : TickReturns bound s₀ s r) (hw : s.waiting = none) (hp : t.phase = .ticking) :
    ∃ f u s', r.fired = some f ∧ traceStep t s = .goOn u s' ∧ u.limit = t.limit ∧
      u.count = t.count + (f.getLsbD 5).toNat ∧ r.breakHit = some u.brk := by
  obtain ⟨st, fired, new, dispatched, k, v, rfl⟩ := tickReturns_tickReport bound s₀ s r hret
  obtain ⟨-, -, -, -, -, hr, hcode⟩ := hret
  rw [traceStep_ticking t _ hw hp, traceTicked_complete t _ r (packStatus st) hr hcode (by cases hr; rfl)]
  obtain ⟨u, s', hu, hlimit, -, hcount, hbrk⟩ :=
    traceReport_goesOn t (packStatus st) r (tickReport st fired new dispatched k v)
  cases hr
  exact ⟨packCats fired, u, s', rfl, hu, hlimit, hcount, congrArg some hbrk.symm⟩

/-! ### The statement -/

/-- Only taking up the result of the loop's own tick writes the count and the break flag (log 16). -/
theorem TraceAct.keeps_counters {s s' : State} {t u : Trace} (hact : TraceAct s t (.goOn u s'))
    (hother : s.waiting ≠ none ∨ t.phase ≠ .ticking) : u.limit = t.limit ∧ u.count = t.count ∧ u.brk = t.brk := by
  cases hact with
  | kept _ _ hlimit hcount hbrk _ => exact ⟨hlimit, hcount, hbrk⟩
  | ticked _ _ hw hp _ _ _ => exact absurd hother (not_or.2 ⟨not_not.2 hw, not_not.2 hp⟩)

/-- A loop whose break flag is set ends at its next test (R163). -/
theorem traceStep_ends_of_brk (t : Trace) (s : State) (hw : s.waiting = none) (hp : t.phase = .testing)
    (hbrk : t.brk = true) : ∃ why s', traceStep t s = .ended t why s' ∧ why.brk = true := by
  obtain ⟨halted, u, hu⟩ := traceTest_eq_traceSampled t s hw
  rw [traceStep_testing t s hw hp, hu, traceSampled_ends t halted u (by rw [hbrk, Bool.or_true])]
  exact ⟨_, u, rfl, hbrk⟩

/-- Settles O59: the limit is an invariant of the run, a tick is taken up as it reported, and every other clause is
read off what one act can do. -/
theorem traceCountsUpToItsLimit : Obligations.TraceCountsUpToItsLimit := by
  refine ⟨traceWithinLimit_start, fun n s u t₀ t why hin h => ?_, traceStep_tickReturns 0, fun s s' t u h => ?_,
    fun s s' t u why h => ?_, fun s t _ => traceStep_ends_of_brk t s, fun s r t hw hr hcode hp => ?_,
    fun s t => ?_⟩
  · obtain ⟨hlimit, hwithin, hwhy⟩ := traceRun_ended n s u t₀ t why hin h
    exact ⟨hlimit, hwhy ▸ t.reached_iff_of_withinLimit hwithin, fun hne => (hwithin hne).1⟩
  · exact (h ▸ traceStep_act t s).keeps_counters
  · have hact := traceStep_act t s
    rw [h] at hact
    cases hact with
    | ended _ _ _ hbrk _ => exact ⟨rfl, by rw [hbrk]⟩
  · rw [traceStep_ticking t s hw hp, traceTicked_refused t s r hr hcode]
  · have hact := traceStep_act t s
    generalize traceStep t s = outcome at hact ⊢
    cases hact with
    | kept u s' => exact .inl ⟨u, s', rfl⟩
    | ticked u s' => exact .inl ⟨u, s', rfl⟩
    | ended why s' _ _ hwhy => exact .inr ⟨why, s', rfl, hwhy⟩

end Sys2Proof.Machine
end

section
/-! PROOFS. The decoder and the encoder (spec/30_encoding.md R60 to R64): which fields each class of commands needs,
the one equivalence between a decoded word and its command's word, and the statements about words. -/

namespace Sys2Proof

/-! ### The selectors and the short operands -/

@[simp] theorem RangeKind.ofSub_rangeIndex (k : RangeKind) (c : Cat) : RangeKind.ofSub (rangeIndex k c) = k := by
  cases k <;> cases c <;> rfl

@[simp] theorem Cat.ofSub_rangeIndex (k : RangeKind) (c : Cat) : Cat.ofSub (rangeIndex k c) = some c := by
  cases k <;> cases c <;> rfl

@[simp] theorem SetLine.ofSub_number (l : SetLine) : SetLine.ofSub (l.number.setWidth 4) = l := by
  cases l <;> rfl

/-- `sub` of the range commands is its kind and its category, and nothing else (R61). -/
theorem rangeIndex_of_ofSub (sub : BitVec 4) :
    ∀ c, Cat.ofSub sub = some c → rangeIndex (RangeKind.ofSub sub) c = sub := by
  revert sub; decide

/-- `sub` of LINE_SET is its line, once the rest of it is 0 (R61). -/
theorem number_setWidth_of_ofSub (sub : BitVec 4) :
    sub.extractLsb' 2 2 = 0#2 → (SetLine.ofSub sub).number.setWidth 4 = sub := by
  revert sub; decide

/-- A field whose bits from `n` up are 0 is its lower `n` bits. -/
theorem setWidth_extractLsb'_of_high_zero {w : Nat} (n : Nat) (b : BitVec w) (h : b.extractLsb' n (w - n) = 0) :
    (b.extractLsb' 0 n).setWidth w = b := by
  apply BitVec.eq_of_getLsbD_eq
  intro j hj
  rcases Nat.lt_or_ge j n with hlow | hge
  · simp [hj, hlow]
  · have hbit := congrArg (BitVec.getLsbD · (j - n)) h
    simp only [BitVec.getLsbD_extractLsb', Nat.add_sub_cancel' hge, Nat.sub_lt_sub_right hge hj, decide_true,
      Bool.true_and] at hbit
    simpa [Nat.not_lt.2 hge] using hbit.symm

/-- A field whose bits above the lowest are 0 is its lowest bit. -/
theorem setWidth_ofBool_of_high_zero (b : BitVec 16) (h : b.extractLsb' 1 15 = 0) :
    (BitVec.ofBool (b.getLsbD 0)).setWidth 16 = b := by
  have hbit : BitVec.ofBool (b.getLsbD 0) = b.extractLsb' 0 1 := by
    apply BitVec.eq_of_getLsbD_eq
    simp
  rw [hbit, setWidth_extractLsb'_of_high_zero 1 b h]

/-! ### The fields a command needs -/

@[simp] theorem needs_eq_ok (ok : Bool) (e : DecodeError) (r : Except DecodeError Instr) (i : Instr) :
    needs ok e r = .ok i ↔ ok = true ∧ r = .ok i := by
  cases ok <;> simp [needs]

@[simp] theorem needsB_eq_ok (sub : BitVec 4) (a : BitVec 16) (r : Except DecodeError Instr) (i : Instr) :
    needsB sub a r = .ok i ↔ sub = 0#4 ∧ a = 0#16 ∧ r = .ok i := by
  simp [needsB]

@[simp] theorem needsNone_eq_ok (sub : BitVec 4) (a b : BitVec 16) (j i : Instr) :
    needsNone sub a b j = .ok i ↔ sub = 0#4 ∧ a = 0#16 ∧ b = 0#16 ∧ j = i := by
  simp [needsNone]

@[simp] theorem withCategory_eq_ok (sub : BitVec 4) (f : RangeKind → Cat → Except DecodeError Instr) (i : Instr) :
    withCategory sub f = .ok i ↔ ∃ c, Cat.ofSub sub = some c ∧ f (RangeKind.ofSub sub) c = .ok i := by
  cases h : Cat.ofSub sub <;> simp [withCategory, h]

/-- The sixteen values of the field `op`. -/
theorem op_cases (op : BitVec 4) :
    op = 0 ∨ op = 1 ∨ op = 2 ∨ op = 3 ∨ op = 4 ∨ op = 5 ∨ op = 6 ∨ op = 7 ∨ op = 8 ∨ op = 9 ∨ op = 10 ∨ op = 11 ∨
      op = 12 ∨ op = 13 ∨ op = 14 ∨ op = 15 := by
  revert op; decide

/-! ### Decoding is the inverse of encoding -/

/-- A command that the fields select is well formed, and they are the fields of its word (R60 to R64). -/
theorem encode_of_decodeFields (op sub : BitVec 4) (a b : BitVec 16) (i : Instr)
    (h : decodeFields op sub a b = .ok i) : i.wellFormed = true ∧ encode i = CmdWord.ofFields op sub a b := by
  rcases op_cases op with
    rfl | rfl | rfl | rfl | rfl | rfl | rfl | rfl | rfl | rfl | rfl | rfl | rfl | rfl | rfl | rfl
  · exact nomatch h
  · obtain ⟨rfl, rfl, h⟩ := (needsB_eq_ok ..).1 h; cases h; exact ⟨rfl, rfl⟩
  · obtain ⟨rfl, rfl, rfl, rfl⟩ := (needsNone_eq_ok ..).1 h; exact ⟨rfl, rfl⟩
  · obtain ⟨rfl, rfl, rfl, rfl⟩ := (needsNone_eq_ok ..).1 h; exact ⟨rfl, rfl⟩
  · obtain ⟨rfl, rfl, rfl, rfl⟩ := (needsNone_eq_ok ..).1 h; exact ⟨rfl, rfl⟩
  · obtain ⟨rfl, rfl, h⟩ := (needsB_eq_ok ..).1 h; cases h; exact ⟨rfl, rfl⟩
  · obtain ⟨rfl, rfl, rfl, rfl⟩ := (needsNone_eq_ok ..).1 h; exact ⟨rfl, rfl⟩
  · obtain ⟨rfl, rfl, rfl, rfl⟩ := (needsNone_eq_ok ..).1 h; exact ⟨rfl, rfl⟩
  · obtain ⟨rfl, rfl, h⟩ := (needsB_eq_ok ..).1 h; cases h; exact ⟨rfl, rfl⟩
  · obtain ⟨rfl, rfl, h⟩ := (needsB_eq_ok ..).1 h
    obtain ⟨hhigh, h⟩ := (needs_eq_ok ..).1 h
    cases h
    exact ⟨rfl, congrArg (CmdWord.ofFields 0x9 0 0) (setWidth_extractLsb'_of_high_zero 8 b (of_decide_eq_true hhigh))⟩
  · obtain ⟨rfl, rfl, rfl, rfl⟩ := (needsNone_eq_ok ..).1 h; exact ⟨rfl, rfl⟩
  · simp [decodeFields] at h
    obtain ⟨c, hc, hadmits, rfl⟩ := h
    exact ⟨hadmits, congrArg (CmdWord.ofFields 0xB · a b) (rangeIndex_of_ofSub sub c hc)⟩
  · simp [decodeFields] at h
    obtain ⟨c, hc, rfl, rfl, rfl⟩ := h
    exact ⟨rfl, congrArg (CmdWord.ofFields 0xC · 0 0) (rangeIndex_of_ofSub sub c hc)⟩
  · obtain ⟨rfl, rfl, h⟩ := (needsB_eq_ok ..).1 h; cases h; exact ⟨rfl, rfl⟩
  · simp [decodeFields] at h
    obtain ⟨hsub, rfl, hhigh, rfl⟩ := h
    exact ⟨rfl, congrArg₂ (CmdWord.ofFields 0xE · 0 ·) (number_setWidth_of_ofSub sub hsub)
      (setWidth_ofBool_of_high_zero b hhigh)⟩
  · exact nomatch h

/-- R60 to R64 in one line: the words of the well-formed commands decode to them, and no other word decodes. -/
theorem decode_eq_ok_iff (w : CmdWord) (i : Instr) : decode w = .ok i ↔ i.wellFormed = true ∧ encode i = w := by
  constructor
  · intro h
    obtain ⟨hwf, henc⟩ := encode_of_decodeFields _ _ _ _ i h
    exact ⟨hwf, henc.trans w.ofFields_fields⟩
  · rintro ⟨hwf, rfl⟩
    cases i with
    | bdClassify byte =>
      have hhigh : (byte.setWidth 16).extractLsb' 8 8 = 0#8 := by revert byte; decide
      have hlow : (byte.setWidth 16).extractLsb' 0 8 = byte := by revert byte; decide
      simp [decode, encode, decodeFields, hhigh, hlow]
    | setRange kind cat start last =>
      have hadmits : cat.admits start last = true := hwf
      simp [decode, encode, decodeFields, hadmits]
    | lineSet l v => cases l <;> cases v <;> decide
    | _ => simp [decode, encode, decodeFields]

/-- Settles O1: the word is the command's own. -/
theorem encodedCommandDecodesToItself : Obligations.EncodedCommandDecodesToItself :=
  fun i hwf => (decode_eq_ok_iff (encode i) i).2 ⟨hwf, rfl⟩

/-- Settles O2: only the words of well-formed commands decode. -/
theorem decodedWordIsTheCommandsWord : Obligations.DecodedWordIsTheCommandsWord :=
  fun w i => (decode_eq_ok_iff w i).1

/-! ### The opcode map -/

/-- A category number is 0 to 5 exactly if it is a category's (R63). -/
theorem isSome_ofSub_iff (sub : BitVec 4) : (Cat.ofSub sub).isSome = true ↔ sub.extractLsb' 0 3 ≤ 5#3 := by
  revert sub; decide

/-- The port categories are those with the numbers 3 and 4 (R20, R63). -/
theorem isPort_iff_of_ofSub (sub : BitVec 4) :
    ∀ c, Cat.ofSub sub = some c → (c.isPort = true ↔ sub.extractLsb' 0 3 = 3#3 ∨ sub.extractLsb' 0 3 = 4#3) := by
  revert sub; decide

theorem Cat.admits_iff (c : Cat) (a b : BitVec 16) :
    c.admits a b = true ↔ (c.isPort = true → a ≤ 0x00FF#16 ∧ b ≤ 0x00FF#16) := by
  cases h : c.isPort <;> simp [Cat.admits, h]

/-- The part of R62 that RowConstraints adds for SET_RANGE, read off the decoder's own tests. -/
theorem admits_ofSub_iff (sub : BitVec 4) (a b : BitVec 16) :
    (∃ c, Cat.ofSub sub = some c ∧ c.admits a b = true) ↔
      sub.extractLsb' 0 3 ≤ 5#3 ∧
        (sub.extractLsb' 0 3 = 3#3 ∨ sub.extractLsb' 0 3 = 4#3 → a ≤ 0x00FF#16 ∧ b ≤ 0x00FF#16) := by
  rw [← isSome_ofSub_iff, Option.isSome_iff_exists]
  constructor
  · rintro ⟨c, hc, hadmits⟩
    exact ⟨⟨c, hc⟩, fun hport => (c.admits_iff a b).1 hadmits ((isPort_iff_of_ofSub sub c hc).2 hport)⟩
  · rintro ⟨⟨c, hc⟩, hbounds⟩
    exact ⟨c, hc, (c.admits_iff a b).2 fun hport => hbounds ((isPort_iff_of_ofSub sub c hc).1 hport)⟩

/-- Every command's word has the pattern and the mask of its own row (R62). -/
theorem ownRow (i : Instr) : Laws.OwnRow.Statement i :=
  match i with
  | .acquire bound => Laws.OwnRow.acquire bound
  | .release => Laws.OwnRow.release
  | .clkRun => Laws.OwnRow.clkRun
  | .clkStop => Laws.OwnRow.clkStop
  | .clkCycle n => Laws.OwnRow.clkCycle n
  | .clkStep => Laws.OwnRow.clkStep
  | .sample => Laws.OwnRow.sample
  | .tick bound => Laws.OwnRow.tick bound
  | .bdClassify byte => Laws.OwnRow.bdClassify byte
  | .bdReset => Laws.OwnRow.bdReset
  | .setRange kind cat start last => Laws.OwnRow.setRange kind cat start last
  | .clrRange kind cat => Laws.OwnRow.clrRange kind cat
  | .ioDispatch bound => Laws.OwnRow.ioDispatch bound
  | .lineSet l v => Laws.OwnRow.lineSet l v

theorem opcodeMap_mnemonic_inj :
    ∀ r ∈ opcodeMap, ∀ r' ∈ opcodeMap, r.mnemonic = r'.mnemonic → r = r' := by decide

/-- The word of a well-formed command meets the constraints of its row (R62). -/
theorem rowConstraints_encode (i : Instr) (r : OpcodeRow) (hwf : i.wellFormed = true) (hr : r.mnemonic = i.mnemonic) :
    Machine.RowConstraints r (encode i) := by
  cases i with
  | setRange kind cat start last =>
    have h := (admits_ofSub_iff (rangeIndex kind cat) start last).1 ⟨cat, by simp, hwf⟩
    simpa [Machine.RowConstraints, hr, encode, Instr.mnemonic] using h
  | clrRange kind cat =>
    have h := (isSome_ofSub_iff (rangeIndex kind cat)).1 (by simp)
    simpa [Machine.RowConstraints, hr, encode, Instr.mnemonic] using h
  | _ => simp [Machine.RowConstraints, hr, Instr.mnemonic]

/-- A word that a row selects has the row's fields under the row's mask (R62). -/
theorem fields_of_selects (n : String) (w : CmdWord) (op sub m : BitVec 4) (a b k l : BitVec 16)
    (h : OpcodeRow.selects ⟨n, CmdWord.ofFields op sub a b, CmdWord.ofFields 0xF m k l⟩ w = true) :
    CmdWord.op w = op ∧ CmdWord.sub w &&& m = sub ∧ CmdWord.a w &&& k = a ∧ CmdWord.b w &&& l = b := by
  have hall : CmdWord.op w &&& 0xF = CmdWord.op w := BitVec.and_allOnes
  rw [← hall]
  exact (w.and_eq_iff ..).1 (beq_iff_eq.1 h)

/-- A row of a command without operands (R62). -/
theorem decode_of_selects_none (n : String) (op : BitVec 4) (i : Instr) (w : CmdWord)
    (hdec : ∀ sub a b, decodeFields op sub a b = needsNone sub a b i)
    (h : OpcodeRow.selects ⟨n, CmdWord.ofFields op 0 0 0, CmdWord.ofFields 0xF 0xF 0xFFFF 0xFFFF⟩ w = true) :
    decode w = .ok i := by
  obtain ⟨hop, hsub, ha, hb⟩ := fields_of_selects _ _ _ _ _ _ _ _ _ h
  rw [decode, hop, hdec, needsNone_eq_ok]
  exact ⟨BitVec.and_allOnes.symm.trans hsub, BitVec.and_allOnes.symm.trans ha, BitVec.and_allOnes.symm.trans hb, rfl⟩

/-- A row of a command that uses `b` alone (R62). -/
theorem decode_of_selects_b (n : String) (op : BitVec 4) (f : BitVec 16 → Instr) (w : CmdWord)
    (hdec : ∀ sub a b, decodeFields op sub a b = needsB sub a (.ok (f b)))
    (h : OpcodeRow.selects ⟨n, CmdWord.ofFields op 0 0 0, CmdWord.ofFields 0xF 0xF 0xFFFF 0⟩ w = true) :
    decode w = .ok (f (CmdWord.b w)) := by
  obtain ⟨hop, hsub, ha, -⟩ := fields_of_selects _ _ _ _ _ _ _ _ _ h
  rw [decode, hop, hdec, needsB_eq_ok]
  exact ⟨BitVec.and_allOnes.symm.trans hsub, BitVec.and_allOnes.symm.trans ha, rfl⟩

/-- A word that a row selects under its constraints decodes to a command of that row (R62). -/
theorem decode_of_selects (w : CmdWord) (r : OpcodeRow) (hr : r ∈ opcodeMap) (hsel : r.selects w = true)
    (hcon : Machine.RowConstraints r w) : ∃ i, decode w = .ok i ∧ i.mnemonic = r.mnemonic := by
  simp only [opcodeMap, List.mem_cons, List.not_mem_nil, or_false] at hr
  rcases hr with rfl | rfl | rfl | rfl | rfl | rfl | rfl | rfl | rfl | rfl | rfl | rfl | rfl | rfl
  · exact ⟨_, decode_of_selects_b "ACQUIRE" 0x1 .acquire w (fun _ _ _ => rfl) hsel, rfl⟩
  · exact ⟨_, decode_of_selects_none "RELEASE" 0x2 .release w (fun _ _ _ => rfl) hsel, rfl⟩
  · exact ⟨_, decode_of_selects_none "CLK_RUN" 0x3 .clkRun w (fun _ _ _ => rfl) hsel, rfl⟩
  · exact ⟨_, decode_of_selects_none "CLK_STOP" 0x4 .clkStop w (fun _ _ _ => rfl) hsel, rfl⟩
  · exact ⟨_, decode_of_selects_b "CLK_CYCLE" 0x5 .clkCycle w (fun _ _ _ => rfl) hsel, rfl⟩
  · exact ⟨_, decode_of_selects_none "CLK_STEP" 0x6 .clkStep w (fun _ _ _ => rfl) hsel, rfl⟩
  · exact ⟨_, decode_of_selects_none "SAMPLE" 0x7 .sample w (fun _ _ _ => rfl) hsel, rfl⟩
  · exact ⟨_, decode_of_selects_b "TICK" 0x8 .tick w (fun _ _ _ => rfl) hsel, rfl⟩
  · obtain ⟨hop, hsub, ha, hb⟩ := fields_of_selects "BD_CLASSIFY" w 0x9 0 0xF 0 0 0xFFFF 0xFF00 hsel
    have hsub0 : CmdWord.sub w = 0#4 := BitVec.and_allOnes.symm.trans hsub
    have ha0 : CmdWord.a w = 0#16 := BitVec.and_allOnes.symm.trans ha
    have hhigh : (CmdWord.b w).extractLsb' 8 8 = 0#8 := by
      have h := congrArg (BitVec.extractLsb' 8 8) hb
      rw [BitVec.extractLsb'_and] at h
      exact BitVec.and_allOnes.symm.trans h
    exact ⟨.bdClassify ((CmdWord.b w).extractLsb' 0 8), by simp [decode, hop, decodeFields, hsub0, ha0, hhigh], rfl⟩
  · exact ⟨_, decode_of_selects_none "BD_RESET" 0xA .bdReset w (fun _ _ _ => rfl) hsel, rfl⟩
  · obtain ⟨hop, -, -, -⟩ := fields_of_selects "SET_RANGE" w 0xB 0 0 0 0 0 0 hsel
    obtain ⟨c, hc, hadmits⟩ := (admits_ofSub_iff _ _ _).2 ⟨hcon.1 (.inl rfl), hcon.2 rfl⟩
    exact ⟨.setRange (RangeKind.ofSub (CmdWord.sub w)) c (CmdWord.a w) (CmdWord.b w),
      by simp [decode, hop, decodeFields, hc, hadmits], rfl⟩
  · obtain ⟨hop, -, ha, hb⟩ := fields_of_selects "CLR_RANGE" w 0xC 0 0 0 0 0xFFFF 0xFFFF hsel
    have ha0 : CmdWord.a w = 0#16 := BitVec.and_allOnes.symm.trans ha
    have hb0 : CmdWord.b w = 0#16 := BitVec.and_allOnes.symm.trans hb
    obtain ⟨c, hc⟩ := Option.isSome_iff_exists.1 ((isSome_ofSub_iff _).2 (hcon.1 (.inr rfl)))
    exact ⟨.clrRange (RangeKind.ofSub (CmdWord.sub w)) c, by simp [decode, hop, decodeFields, hc, ha0, hb0], rfl⟩
  · exact ⟨_, decode_of_selects_b "IO_DISPATCH" 0xD .ioDispatch w (fun _ _ _ => rfl) hsel, rfl⟩
  · obtain ⟨hop, hsub, ha, hb⟩ := fields_of_selects "LINE_SET" w 0xE 0 0xC 0 0 0xFFFF 0xFFFE hsel
    have hsub0 : (CmdWord.sub w).extractLsb' 2 2 = 0#2 := by
      have h := congrArg (BitVec.extractLsb' 2 2) hsub
      rw [BitVec.extractLsb'_and] at h
      exact BitVec.and_allOnes.symm.trans h
    have ha0 : CmdWord.a w = 0#16 := BitVec.and_allOnes.symm.trans ha
    have hhigh : (CmdWord.b w).extractLsb' 1 15 = 0#15 := by
      have h := congrArg (BitVec.extractLsb' 1 15) hb
      rw [BitVec.extractLsb'_and] at h
      exact BitVec.and_allOnes.symm.trans h
    exact ⟨.lineSet (SetLine.ofSub (CmdWord.sub w)) ((CmdWord.b w).getLsbD 0),
      by simp [decode, hop, decodeFields, hsub0, ha0, hhigh], rfl⟩

/-- Settles O3: a command's word meets its own row, which is the only one of its mnemonic, and what a row asks of a
word is what the decoder asks of its fields. -/
theorem wordSelectsExactlyItsTableRow : Obligations.WordSelectsExactlyItsTableRow := by
  refine fun w r hr => ⟨?_, fun ⟨hsel, hcon⟩ => decode_of_selects w r hr hsel hcon⟩
  rintro ⟨i, hdec, hname⟩
  obtain ⟨hwf, rfl⟩ := (decode_eq_ok_iff w i).1 hdec
  obtain ⟨r', hr', hname', hsel⟩ := ownRow i
  obtain rfl := opcodeMap_mnemonic_inj r' hr' r hr (hname'.trans hname)
  exact ⟨hsel, rowConstraints_encode i r' hwf hname'⟩

/-- Settles O4: each word is the encoder's own of its command. -/
theorem writtenOutWordsDecode : Obligations.WrittenOutWordsDecode := by
  refine ⟨?_, ?_, ?_, ?_, ?_, ?_, ?_, ?_, ?_, ?_, ?_, ?_, ?_, ?_⟩ <;> exact (decode_eq_ok_iff _ _).2 ⟨rfl, rfl⟩

/-! ### Reserved words -/

/-- A category number that is none of the six is 6 or 7. -/
theorem cat_le_five_iff (c : BitVec 3) : c ≤ 5#3 ↔ ¬c = 6#3 ∧ ¬c = 7#3 := by revert c; decide

/-- R64 lists exactly the fields that select no command, opcode by opcode. -/
theorem decode_iff_not_reserved (w : CmdWord) : (∃ i, decode w = .ok i) ↔ ¬Machine.ReservedWord w := by
  simp only [decode, Machine.ReservedWord]
  generalize CmdWord.op w = op, CmdWord.sub w = sub, CmdWord.a w = a, CmdWord.b w = b
  rcases op_cases op with
    rfl | rfl | rfl | rfl | rfl | rfl | rfl | rfl | rfl | rfl | rfl | rfl | rfl | rfl | rfl | rfl <;>
    simp [decodeFields, admits_ofSub_iff, ← Option.isSome_iff_exists, isSome_ofSub_iff, cat_le_five_iff]
  · exact ⟨fun ⟨hcat, ha, hb⟩ => ⟨ha, hb, hcat⟩, fun ⟨ha, hb, hcat⟩ => ⟨hcat, ha, hb⟩⟩
  · exact and_left_comm

end Sys2Proof
end

section
/-! PROOFS. One step of the machine: all that it can be (spec/70_reset_and_hazards.md R210), and the statements about
refused words, a faulted block and block reset. -/

namespace Sys2Proof.Machine

/-! ### All that a step can be -/

/-- What one step from `s` leaves: the wait in progress goes on, or the supervisor's next act is carried out, or the
block is idle. -/
inductive Stepped (s : State) : State → Prop
  | resumed (w : Waiting) (hw : s.waiting = some w) : Stepped s (resumeWait w s)
  | idled (hw : s.waiting = none) (hi : s.inputs = []) : Stepped s (idle s)
  | ran (word : CmdWord) (rest : List Input) (i : Instr) (t : State) (hw : s.waiting = none)
      (hi : s.inputs = .command word :: rest) (hd : decode word = .ok i) (hexec : exec i (takeInput s) = .next t) :
      Stepped s t
  | rejected (word : CmdWord) (rest : List Input) (hw : s.waiting = none) (hi : s.inputs = .command word :: rest) :
      Stepped s (refuseWord (takeInput s))
  | reset (rest : List Input) (hw : s.waiting = none) (hi : s.inputs = .blockReset :: rest) :
      Stepped s (blockReset (takeInput s))
  | latched (m : MstLatches) (rest : List Input) (hw : s.waiting = none) (hi : s.inputs = .latches m :: rest) :
      Stepped s (setLatches m (takeInput s))
  | stored (a : Addr) (v : Byte) (rest : List Input) (hw : s.waiting = none) (hi : s.inputs = .memWrite a v :: rest) :
      Stepped s (memWrite a v (takeInput s))
  | loaded (a : Addr) (rest : List Input) (hw : s.waiting = none) (hi : s.inputs = .memRead a :: rest) :
      Stepped s (memRead a (takeInput s))

theorem step_cases {s t : State} (h : step s = .next t) : Stepped s t := by
  cases hw : s.waiting with
  | some w =>
    obtain rfl := Host.Outcome.next.inj ((step_waiting s w hw).symm.trans h)
    exact .resumed w hw
  | none =>
    cases hi : s.inputs with
    | nil =>
      simp only [step, hw, hi] at h
      cases h
      exact .idled hw hi
    | cons act rest =>
      cases act with
      | command word =>
        cases hd : decode word with
        | error e =>
          simp only [step, hw, hi, hd] at h
          cases h
          exact .rejected word rest hw hi
        | ok i =>
          simp only [step, hw, hi, hd] at h
          exact .ran word rest i t hw hi hd h
      | blockReset =>
        simp only [step, hw, hi] at h
        cases h
        exact .reset rest hw hi
      | latches m =>
        simp only [step, hw, hi] at h
        cases h
        exact .latched m rest hw hi
      | memWrite a v =>
        obtain rfl := Host.Outcome.next.inj ((step_memWrite s a v rest hw hi).symm.trans h)
        exact .stored a v rest hw hi
      | memRead a =>
        obtain rfl := Host.Outcome.next.inj ((step_memRead s a rest hw hi).symm.trans h)
        exact .loaded a rest hw hi

@[simp] theorem takeInput_block (s : State) : (takeInput s).block = s.block := rfl
@[simp] theorem takeInput_waiting (s : State) : (takeInput s).waiting = s.waiting := rfl
@[simp] theorem takeInput_result (s : State) : (takeInput s).result = s.result := rfl
@[simp] theorem takeInput_world (s : State) : (takeInput s).world = World.moves (stirs false s) s.world := rfl

/-- The act is taken, and in FreeRunning mode the environment has moved meanwhile (R12, R210). -/
theorem takeInput_eq (s : State) (act : Input) (rest : List Input) (hi : s.inputs = act :: rest) :
    takeInput s = { s with inputs := rest, world := World.moves (stirs false s) s.world } :=
  congrArg (fun l => { s with inputs := l, world := World.moves (stirs false s) s.world }) (congrArg List.tail hi)

/-- Settles O6: with no wait the first act is taken, and a word that decodes is executed. -/
theorem stepRunsTheDecodedCommand : Obligations.StepRunsTheDecodedCommand := by
  intro s w rest i hw hi hd
  rw [← takeInput_eq s _ rest hi]
  simp only [step, hw, hi, hd]

/-- A step that takes a word which selects no command refuses it (R64). -/
theorem step_rejected (s : State) (w : CmdWord) (rest : List Input) (hw : s.waiting = none)
    (hi : s.inputs = .command w :: rest) (hd : ∀ i, decode w ≠ .ok i) :
    step s = .next (refuseWord { s with inputs := rest, world := World.moves (stirs false s) s.world }) := by
  rw [← takeInput_eq s _ rest hi]
  cases hdec : decode w with
  | error e => simp only [step, hw, hi, hdec]
  | ok i => exact absurd hdec (hd i)

/-- Settles O5: the words of R64's list are those that do not decode. -/
theorem reservedWordsAreRefusedWithoutEffect : Obligations.ReservedWordsAreRefusedWithoutEffect := by
  refine fun w s rest hw hi hlive => ⟨fun hres => ?_, (decode_iff_not_reserved w).2⟩
  rw [step_rejected s w rest hw hi fun i hd => (decode_iff_not_reserved w).1 ⟨i, hd⟩ hres]
  exact congrArg _ (if_pos hlive)

/-! ### The body of a command -/

/-- What each command does on a live block. -/
def commandBody : Instr → State → State
  | .acquire bound => fun s => acquireFinish (awaitLine busackAsserted bound 0 (acquireRequest s))
  | .release => releaseBus
  | .clkRun => fun s => complete (s.setBlock { s.block with clockMode := .freeRunning })
  | .clkStop => stopClock
  | .clkCycle n => unlessFree fun s => complete (clockPairs n.toNat (setClk false s))
  | .clkStep => unlessFree fun s => complete (setClk (!s.block.clkOut) s)
  | .sample => fun s =>
      (s.setBlock { s.block with lastStatus := packStatus (sample s) }).answer
        { code := codeOk, status := some (packStatus (sample s)) }
  | .tick bound => unlessFree (tickBody bound)
  | .bdClassify byte => fun s =>
      (s.setBlock (boundaryShift byte s.block)).answer
        { code := codeOk, newInstr := some (boundaryVerdict byte s.block) }
  | .bdReset => fun s => complete (s.setBlock { s.block with bdPrev := 0x00, bdPrev2 := 0x00 })
  | .setRange kind cat start last => fun s =>
      if cat.admits start last then
        complete (s.setBlock (setBank s.block kind (bankSet (bankOf s.block kind) cat start last)))
      else refuse .encoding s
  | .clrRange kind cat => fun s => complete (s.setBlock (setBank s.block kind (bankClear (bankOf s.block kind) cat)))
  | .ioDispatch bound => ioDispatchBody bound
  | .lineSet l v => fun s => complete (drive (outLineOf l) v s)

/-- Every command is its body behind the one test of R178. -/
theorem exec_eq_whenLive (i : Instr) (s : State) : exec i s = whenLive (commandBody i) s := by
  cases i <;> rfl

theorem exec_live (i : Instr) (s : State) (hlive : Live s) : exec i s = .next (commandBody i s) := by
  rw [exec_eq_whenLive, whenLive_live _ s hlive]

/-- A faulted block refuses every command (R178). -/
theorem refusedWith_of_faulted (i : Instr) (s : State) (hfault : ¬Live s) : RefusedWith i s 4 := by
  rw [RefusedWith, exec_eq_whenLive, whenLive_faulted _ s hfault]
  rfl

/-- A command that answers was carried out or refused by a faulted block. -/
theorem exec_cases {i : Instr} {s t : State} (h : exec i s = .next t) :
    (Live s ∧ t = commandBody i s) ∨ (¬Live s ∧ t = refuse .faulted s) := by
  by_cases hlive : Live s
  · exact .inl ⟨hlive, Host.Outcome.next.inj (h.symm.trans (exec_live i s hlive))⟩
  · exact .inr ⟨hlive, Host.Outcome.next.inj (h.symm.trans (refusedWith_of_faulted i s hlive))⟩

/-! ### A faulted block -/

/-- Settles O7: a word is a command, which is refused, or it is reserved, and refused with the same code. -/
theorem faultedBlockRefusesEveryCommand : Obligations.FaultedBlockRefusesEveryCommand := by
  refine fun s hfault => ⟨fun i => refusedWith_of_faulted i s hfault, fun w rest hw hi => ?_⟩
  by_cases hd : ∃ i, decode w = .ok i
  · obtain ⟨i, hd⟩ := hd
    rw [stepRunsTheDecodedCommand s w rest i hw hi hd]
    exact refusedWith_of_faulted i _ hfault
  · rw [step_rejected s w rest hw hi (not_exists.1 hd)]
    exact congrArg _ (if_neg hfault)

/-- Settles O8: a command is refused, and the other acts do not touch the block. -/
theorem onlyBlockResetLeavesAFault : Obligations.OnlyBlockResetLeavesAFault := by
  intro s t hfault hw h
  cases step_cases h with
  | resumed w hw' => exact nomatch hw.symm.trans hw'
  | ran word rest i _ _ _ _ hexec =>
    obtain rfl := Host.Outcome.next.inj ((refusedWith_of_faulted i (takeInput s) hfault).symm.trans hexec)
    exact .inl rfl
  | rejected =>
    rw [refuseWord, if_neg (show ¬(takeInput s).block.faultCode = 0 from hfault)]
    exact .inl rfl
  | reset rest _ hi => exact .inr ⟨rest, hi⟩
  | idled | latched | stored | loaded => exact .inl rfl

/-! ### Block reset -/

/-- Settles O16: block reset writes the whole table. -/
theorem blockResetGivesTheTable : Obligations.BlockResetGivesTheTable := by
  intro s rest hw hi
  refine ⟨blockReset (takeInput s), by simp only [step, hw, hi], ?_⟩
  have hblock : (blockReset (takeInput s)).block = Block.reset := rfl
  rw [hblock]
  repeat' constructor

/-- Settles O11: after reset the CPU owns the bus and the clock is stopped and low. -/
theorem resetMeetsTheBusInvariant : Obligations.ResetMeetsTheBusInvariant :=
  ⟨fun _ => rfl, fun _ => ⟨⟨rfl, rfl⟩, rfl, nofun, nofun⟩, fun h => absurd rfl h⟩

end Sys2Proof.Machine
end

section
/-! PROOFS. The commands that wait: all that a pass of their wait can lead to (spec/41_clock_generator.md R92), the
registers each command may write (spec/10_state.md R13, R17 to R25), and the invariants that every step keeps. -/

namespace Sys2Proof.Machine

/-! ### How a wait ends -/

/-- What a wait that begins at `s` leaves: it is answered and the command closes it, it reaches its bound and raises
its fault, or, without a bound, it goes on (R92; log 3). -/
inductive Waited (f : BlockFault) (job : WaitJob) (close : Nat → State → State) (bound : BitVec 16) (s : State) :
    State → Prop
  | answered (n k : Nat) : Waited f job close bound s (close k (clockEdges n s))
  | timedOut (n : Nat) (hb : bound ≠ 0) : Waited f job close bound s (raise f bound.toNat (clockEdges n s))
  | suspended (n k : Nat) (hb : bound = 0) : Waited f job close bound s ((clockEdges n s).suspend ⟨job, k⟩)

/-- All that a pass of a wait can answer, from its first toggle or, without a bound, from any later one (R92). -/
theorem awaitLine_cases (cond : State → Bool) (bound : BitVec 16) (k : Nat) (s : State) (hk : bound = 0 ∨ k = 0) :
    ∃ n, awaitLine cond bound k s = (.done (k + n), clockEdges n s) ∨
      (bound ≠ 0 ∧ awaitLine cond bound k s = (.timeout bound.toNat, clockEdges n s)) ∨
      (bound = 0 ∧ awaitLine cond bound k s = (.running (k + n), clockEdges n s)) := by
  obtain ⟨n, -, -, h⟩ := waitLoop_cases cond bound (waitFuel bound s) k s
  refine ⟨n, ?_⟩
  rcases h with ⟨-, h⟩ | ⟨-, hb, heq, h⟩ | ⟨-, hfuel, hbelow, h⟩
  · exact .inl h
  · exact .inr (.inl ⟨hb, heq ▸ h⟩)
  · refine .inr (.inr ⟨?_, h⟩)
    by_contra hb
    have hk0 : k = 0 := hk.resolve_left hb
    rw [waitFuel, if_neg hb] at hfuel
    exact hbelow ⟨hb, by omega⟩

/-- A wait of ACQUIRE (R80, R82). -/
abbrev AcquireWaited (bound : BitVec 16) (s t : State) : Prop :=
  Waited .busAcquireTimeout .acquire acquireGranted bound s t

/-- A wait of a dispatch, which `report` gives the result of (R155, R158). -/
abbrev DispatchWaited (job : WaitJob) (report : Nat → State → State) (bound : BitVec 16) (s t : State) : Prop :=
  Waited .ioAckTimeout job (fun k s => report k (ioClose s)) bound s t

theorem acquireFinish_waited (bound : BitVec 16) (k : Nat) (s : State) (hk : bound = 0 ∨ k = 0) :
    AcquireWaited bound s (acquireFinish (awaitLine busackAsserted bound k s)) := by
  obtain ⟨n, h | ⟨hb, h⟩ | ⟨hb, h⟩⟩ := awaitLine_cases busackAsserted bound k s hk <;> rw [h]
  · exact .answered n _
  · exact .timedOut n hb
  · exact .suspended n _ hb

theorem ioFinish_waited (job : WaitJob) (report : Nat → State → State) (bound : BitVec 16) (k : Nat) (s : State)
    (hk : bound = 0 ∨ k = 0) :
    DispatchWaited job report bound s (ioFinish job report (awaitLine iorqGone bound k s)) := by
  obtain ⟨n, h | ⟨hb, h⟩ | ⟨hb, h⟩⟩ := awaitLine_cases iorqGone bound k s hk <;> rw [h]
  · exact .answered n _
  · exact .timedOut n hb
  · exact .suspended n _ hb

/-- The report of a dispatch gives a complete result and does nothing else (R29). -/
def Reports (report : Nat → State → State) : Prop := ∀ k s, ∃ r, r.code = 0 ∧ report k s = s.answer r

theorem reports_ioReport (st : Status) : Reports (ioReport st) := fun _ _ => ⟨_, rfl, rfl⟩

theorem reports_tickReport (st : Status) (fired : CatFlags) (new dispatched : Bool) :
    Reports (tickReport st fired new dispatched) := fun _ _ => ⟨_, rfl, rfl⟩

section
variable {report : Nat → State → State} (hrep : Reports report) (k : Nat) (s : State)
include hrep

theorem Reports.block : (report k s).block = s.block := by
  obtain ⟨r, -, h⟩ := hrep k s
  rw [h, State.answer_block]

theorem Reports.world : (report k s).world = s.world := by
  obtain ⟨r, -, h⟩ := hrep k s
  rw [h, State.answer_world]

theorem Reports.waiting : (report k s).waiting = s.waiting := by
  obtain ⟨r, -, h⟩ := hrep k s
  rw [h, State.answer_waiting]

end

/-- The step of a wait is one more pass of it, without a bound (log 3). -/
theorem resumeWait_cases (w : Waiting) (s : State) :
    (w.job = .acquire ∧ AcquireWaited 0 s.unsuspend (resumeWait w s)) ∨
    (w.job ≠ .acquire ∧ ∃ report, Reports report ∧ DispatchWaited w.job report 0 s.unsuspend (resumeWait w s)) := by
  obtain ⟨job, k⟩ := w
  cases job with
  | acquire => exact .inl ⟨rfl, acquireFinish_waited 0 k s.unsuspend (.inl rfl)⟩
  | ioDispatch st => exact .inr ⟨nofun, _, reports_ioReport st, ioFinish_waited _ _ 0 k s.unsuspend (.inl rfl)⟩
  | tick st fired new =>
    exact .inr ⟨nofun, _, reports_tickReport st fired new true, ioFinish_waited _ _ 0 k s.unsuspend (.inl rfl)⟩

/-! ### The commands that dispatch -/

/-- What IO_DISPATCH comes to: the dispatch of its own snapshot, or the refusal outside an I/O cycle (R155). -/
theorem ioDispatchBody_cases (bound : BitVec 16) (s : State) :
    let st := sample s
    let s₁ := s.setBlock { s.block with lastStatus := packStatus st }
    DispatchWaited (.ioDispatch st) (ioReport st) bound (ioOpen st s₁) (ioDispatchBody bound s) ∨
      ioDispatchBody bound s = refuse .notIoCycle s₁ := by
  intro st s₁
  by_cases hio : (st.iorq && !st.mreq) = true
  · left
    rw [show ioDispatchBody bound s = ioDispatchFinish st (awaitLine iorqGone bound 0 (ioOpen st s₁)) from if_pos hio]
    exact ioFinish_waited _ _ _ _ _ (.inr rfl)
  · exact .inr (if_neg hio)

/-- The state of a tick that begins at `s`, after its ClassifyCycle state (R140). -/
def classified (s : State) : State := (atSample s).setBlock (afterClassify s (sample (atSample s)))

/-- The events of a tick that begins at `s` (R105, R106). -/
def tickEvents (s : State) : CatFlags := firedBy (sample (atSample s)) s.block.prevRd s.block.prevWr

/-- The verdict that a tick which begins at `s` reports (R119, R140). -/
def tickVerdict (s : State) : Bool :=
  (tickEvents s).opfetch && newInstruction (sample (atSample s)).data s.block.bdPrev s.block.bdPrev2

/-- A tick outside FreeRunning mode: its edges, its snapshot classified, then the dispatch or the report (R140). -/
theorem tickBody_eq (bound : BitVec 16) (s : State) (hfree : isFree s = false) :
    tickBody bound s =
      if kindOf (sample (atSample s)) = .io then
        tickFinish (sample (atSample s)) (tickEvents s) (tickVerdict s)
          (awaitLine iorqGone bound 0 (ioOpen (sample (atSample s)) (classified s)))
      else tickReport (sample (atSample s)) (tickEvents s) (tickVerdict s) false 0 (classified s) := by
  rw [tickBody, tickEdges_eq_atSample s hfree, classified, ← recordCycle_atSample]
  rfl

/-- What a tick outside FreeRunning mode comes to: the dispatch of its snapshot, or its report (R140). -/
theorem tickBody_cases (bound : BitVec 16) (s : State) (hfree : isFree s = false) :
    DispatchWaited (.tick (sample (atSample s)) (tickEvents s) (tickVerdict s))
        (tickReport (sample (atSample s)) (tickEvents s) (tickVerdict s) true) bound
        (ioOpen (sample (atSample s)) (classified s)) (tickBody bound s) ∨
      tickBody bound s = tickReport (sample (atSample s)) (tickEvents s) (tickVerdict s) false 0 (classified s) := by
  rw [tickBody_eq bound s hfree]
  split
  · exact .inl (ioFinish_waited _ _ _ _ _ (.inr rfl))
  · exact .inr rfl

end Sys2Proof.Machine
end

section
/-! PROOFS. The registers each command may write (spec/10_state.md R13, R17 to R25, spec/40_bus_arbiter.md R84). -/

namespace Sys2Proof.Machine

/-! ### What a command may write -/

/-- The registers that a command owns taken from `b'`, all others from `b`. -/
def writtenBy (i : Instr) (b b' : Block) : Block :=
  match i with
  | .acquire _ =>
    { b with
      busrqOut := b'.busrqOut, ioackOut := b'.ioackOut, clkOut := b'.clkOut, clockMode := b'.clockMode,
      ctrlDir := b'.ctrlDir, addrDir := b'.addrDir, dataDir := b'.dataDir, ownership := b'.ownership,
      faultCode := b'.faultCode }
  | .release =>
    { b with
      ctrlDir := b'.ctrlDir, addrDir := b'.addrDir, dataDir := b'.dataDir, busrqOut := b'.busrqOut,
      ownership := b'.ownership }
  | .clkRun | .clkStop | .clkCycle _ | .clkStep => { b with clkOut := b'.clkOut, clockMode := b'.clockMode }
  | .sample => { b with lastStatus := b'.lastStatus }
  | .tick _ =>
    { b with
      clkOut := b'.clkOut, clockMode := b'.clockMode, lastStatus := b'.lastStatus, prevRd := b'.prevRd,
      prevWr := b'.prevWr, bdPrev := b'.bdPrev, bdPrev2 := b'.bdPrev2, dataOut := b'.dataOut, dataDir := b'.dataDir,
      ioackOut := b'.ioackOut, faultCode := b'.faultCode }
  | .bdClassify _ | .bdReset => { b with bdPrev := b'.bdPrev, bdPrev2 := b'.bdPrev2 }
  | .setRange _ _ _ _ | .clrRange _ _ => { b with logRanges := b'.logRanges, brkRanges := b'.brkRanges }
  | .ioDispatch _ =>
    { b with
      clkOut := b'.clkOut, clockMode := b'.clockMode, lastStatus := b'.lastStatus, dataOut := b'.dataOut,
      dataDir := b'.dataDir, ioackOut := b'.ioackOut, faultCode := b'.faultCode }
  | .lineSet .reset _ => { b with resetOut := b'.resetOut }
  | .lineSet .int _ => { b with intOut := b'.intOut }
  | .lineSet .nmi _ => { b with nmiOut := b'.nmiOut }
  | .lineSet .ioack _ => { b with ioackOut := b'.ioackOut }

theorem writtenBy_self (i : Instr) (b : Block) : writtenBy i b b = b := by
  cases i with
  | lineSet l v => cases l <;> rfl
  | _ => rfl

theorem acquireGranted_block (k : Nat) (s : State) :
    (acquireGranted k s).block =
      { s.block with ctrlDir := .output, addrDir := .output, dataDir := .input, ownership := .supervisorOwned } := rfl

/-- The registers a dispatch writes, whatever end it comes to (R155, R158). -/
theorem dispatchWaited_block {job : WaitJob} {report : Nat → State → State} {bound : BitVec 16} {s t : State}
    (hrep : Reports report) (h : DispatchWaited job report bound s t) :
    t.block =
      { s.block with
        clkOut := t.block.clkOut, clockMode := t.block.clockMode, dataDir := t.block.dataDir,
        ioackOut := t.block.ioackOut, faultCode := t.block.faultCode } := by
  cases h <;> simp [hrep.block, clockEdges_block]

/-- The registers ACQUIRE writes from its wait on, whatever end that comes to (R80, R82). -/
theorem acquireWaited_block {bound : BitVec 16} {s t : State} (h : AcquireWaited bound s t) :
    t.block =
      { s.block with
        clkOut := t.block.clkOut, clockMode := t.block.clockMode, ctrlDir := t.block.ctrlDir,
        addrDir := t.block.addrDir, dataDir := t.block.dataDir, ownership := t.block.ownership,
        faultCode := t.block.faultCode } := by
  cases h <;> simp [acquireGranted_block, clockEdges_block]

/-- Without a bound a wait raises no fault. -/
theorem waited_faultCode {f : BlockFault} {job : WaitJob} {close : Nat → State → State} {s t : State}
    (hclose : ∀ k s, (close k s).block.faultCode = s.block.faultCode) (h : Waited f job close 0 s t) :
    t.block.faultCode = s.block.faultCode := by
  cases h with
  | answered => simp [hclose, clockEdges_block]
  | timedOut _ hb => exact absurd rfl hb
  | suspended => simp [clockEdges_block]

/-- An open dispatch: the handler's byte and direction of a read, and the acknowledge (R155). -/
theorem ioOpen_block_eq (st : Status) (s : State) :
    (ioOpen st s).block =
      { s.block with
        dataOut := if st.rd then dispatchByte s st else s.block.dataOut
        dataDir := if st.rd then .output else s.block.dataDir
        ioackOut := true } := by
  cases hr : st.rd <;> simp [dispatchByte, hr]

/-- A property of the block's registers that a refusal keeps and that the command's body gives. -/
theorem unlessFree_block (P : Block → Prop) (body : State → State) (s : State) (hrefused : P s.block)
    (hbody : isFree s = false → P (body s).block) : P (unlessFree body s).block := by
  cases hfree : isFree s with
  | true => rw [unlessFree, if_pos hfree]; exact hrefused
  | false => rw [unlessFree, if_neg (by simp [hfree])]; exact hbody hfree

/-- CLK_STOP parks the line and stops the generator; the environment sees an edge if the line was high or the generator
ran (R94, D42). -/
theorem stopClock_eq (s : State) :
    stopClock s =
      complete ((s.setBlock { s.block with clockMode := .stopped, clkOut := false }).stir
        (if isFree s ∨ s.block.clkOut then 1 else 0)) := by
  by_cases hfree : isFree s = true
  · rw [stopClock, if_pos hfree, if_pos (.inl hfree)]
    rfl
  · have hmoves : (if isFree s ∨ s.block.clkOut then 1 else 0) = s.block.clkOut.toNat := by
      cases s.block.clkOut <;> simp [hfree]
    rw [stopClock, if_neg hfree, drive, settle, stirs_of_clocked _ _ rfl, hmoves]
    exact congrArg (fun c => complete (State.stir (s.setBlock _) (Bool.toNat c))) (Bool.bne_false _)

/-- The block `b'` differs from `b` in registers that the command owns, at most. -/
def WritesOnlyOwn (i : Instr) (b b' : Block) : Prop := b' = writtenBy i b b'

theorem writesOnlyOwn_of_eq {i : Instr} {b b' c : Block} (h : b' = c) (hc : c = writtenBy i b c) :
    WritesOnlyOwn i b b' := h ▸ hc

/-- Every command writes registers of its own only. -/
theorem commandBody_writes (i : Instr) (s : State) : WritesOnlyOwn i s.block (commandBody i s).block := by
  cases i with
  | acquire bound =>
    exact writesOnlyOwn_of_eq (acquireWaited_block (acquireFinish_waited bound 0 (acquireRequest s) (.inr rfl))) rfl
  | tick bound =>
    refine unlessFree_block (WritesOnlyOwn (.tick bound) s.block) _ s rfl fun hfree => ?_
    rcases tickBody_cases bound s hfree with h | h
    · refine writesOnlyOwn_of_eq (dispatchWaited_block (reports_tickReport _ _ _ _) h) ?_
      rw [ioOpen_block_eq]
      rfl
    · rw [h]
      rfl
  | ioDispatch bound =>
    rcases ioDispatchBody_cases bound s with h | h
    · refine writesOnlyOwn_of_eq (dispatchWaited_block (reports_ioReport _) h) ?_
      rw [ioOpen_block_eq]
      rfl
    · exact writesOnlyOwn_of_eq (c := { s.block with lastStatus := packStatus (sample s) }) (congrArg _ h) rfl
  | clkCycle n =>
    refine unlessFree_block (WritesOnlyOwn (.clkCycle n) s.block) _ s rfl fun hfree => ?_
    rw [clockPairs_setClk_low n.toNat s hfree]
    rfl
  | clkStep => exact unlessFree_block (WritesOnlyOwn .clkStep s.block) _ s rfl fun _ => rfl
  | setRange kind cat start last =>
    rw [commandBody]
    split
    · cases kind <;> rfl
    · rfl
  | clrRange kind cat => cases kind <;> rfl
  | clkStop => exact writesOnlyOwn_of_eq (congrArg State.block (stopClock_eq s)) rfl
  | lineSet l v => cases l <;> rfl
  | _ => rfl

/-- The same for a command as `exec` answers it: a refusal writes nothing (R177). -/
theorem exec_writes {i : Instr} {s t : State} (h : exec i s = .next t) : WritesOnlyOwn i s.block t.block := by
  rcases exec_cases h with ⟨-, rfl⟩ | ⟨-, rfl⟩
  · exact commandBody_writes i s
  · exact (writtenBy_self i s.block).symm

/-- Settles O22: only ACQUIRE and RELEASE own the two registers. -/
theorem ownershipChangesOnlyInTheArbiter : Obligations.OwnershipChangesOnlyInTheArbiter := by
  intro i s t h
  rw [exec_writes h]
  cases i with
  | lineSet l v => cases l <;> simp [writtenBy]
  | _ => simp [writtenBy]

/-- Settles O52: a command writes registers of its own, a wait those its command may still write, and every other step
but block reset none. -/
theorem registersHaveTheirWriters : Obligations.RegistersHaveTheirWriters := by
  refine ⟨fun i s t h => ?_, fun s t w hw h => ?_, fun s t hw hword hreset h => ?_⟩
  · rw [exec_writes h]
    cases i with
    | lineSet l v => cases l <;> simp [writtenBy]
    | _ => simp [writtenBy]
  · obtain rfl := Host.Outcome.next.inj ((step_waiting s w hw).symm.trans h)
    rcases resumeWait_cases w s with ⟨hjob, h⟩ | ⟨hjob, report, hrep, h⟩
    · have hcode := waited_faultCode (close := acquireGranted) (fun _ _ => rfl) h
      have hblock := acquireWaited_block h
      rw [hcode] at hblock
      exact ⟨fun _ => hblock, fun hne => absurd hjob hne⟩
    · have hcode := waited_faultCode (fun k s => by rw [hrep.block]; rfl) h
      have hblock := dispatchWaited_block hrep h
      rw [hcode] at hblock
      exact ⟨fun heq => absurd heq hjob, fun _ => hblock⟩
  · cases step_cases h with
    | resumed w hw' => exact nomatch hw.symm.trans hw'
    | ran word rest _ _ _ hi => exact absurd hi (hword word rest)
    | rejected word rest _ hi => exact absurd hi (hword word rest)
    | reset rest _ hi => exact absurd hi (hreset rest)
    | idled | latched | stored | loaded => rfl

end Sys2Proof.Machine
end

section
/-! PROOFS. The invariants that every step keeps: those of spec/10_state.md R27, in every outcome of a command and of a
wait, and the codes of spec/60_exceptions.md R175. -/

namespace Sys2Proof.Machine

/-! ### The bus invariants -/

/-- I1, I2 and I3 of R27. -/
def BusAtRest (b : Block) : Prop := DirectionsTrackOwnership b ∧ DataIsInput b ∧ RequestTracksOwnership b

/-- What BusInvariant asks at a command boundary. -/
theorem busInvariant_of_idle {t : State} (hw : t.waiting = none) (hstop : StoppedIsLow t.block)
    (hrest : Live t → BusAtRest t.block) : BusInvariant t := by
  refine ⟨hstop, fun hlive => ?_, fun h => absurd hw h⟩
  rw [hw]
  exact hrest hlive

/-- What BusInvariant asks inside a wait. -/
theorem busInvariant_of_waiting {t : State} {w : Waiting} (hw : t.waiting = some w) (hstop : StoppedIsLow t.block)
    (hlive : Live t) (hlines : WaitingLines t.block w.job) : BusInvariant t := by
  refine ⟨hstop, fun _ => ?_, fun _ => hlive⟩
  rw [hw]
  exact hlines

theorem BusInvariant.atRest {s : State} (h : BusInvariant s) (hw : s.waiting = none) (hlive : Live s) :
    BusAtRest s.block := by
  have hlines := h.2.1 hlive
  rwa [hw] at hlines

theorem BusInvariant.waitingLines {s : State} {w : Waiting} (h : BusInvariant s) (hw : s.waiting = some w) :
    Live s ∧ WaitingLines s.block w.job := by
  have hlive : Live s := h.2.2 (by simp [hw])
  have hlines := h.2.1 hlive
  rw [hw] at hlines
  exact ⟨hlive, hlines⟩

/-- The clock edges of a wait leave a stopped clock low: a software edge ends in SingleStep (R90). -/
theorem stoppedIsLow_clockEdges (n : Nat) (s : State) (h : StoppedIsLow s.block) :
    StoppedIsLow (clockEdges n s).block := by
  rw [clockEdges_block]
  cases hfree : isFree s with
  | true => simpa [StoppedIsLow, levelAfter, modeAfter, hfree] using h
  | false =>
    rcases Nat.eq_zero_or_pos n with rfl | hpos
    · simpa [StoppedIsLow, levelAfter, modeAfter, hfree] using h
    · simp [StoppedIsLow, modeAfter, hfree, Nat.ne_of_gt hpos]

/-- ACQUIRE's wait, from the moment its request stands (R80, R82). -/
theorem busInvariant_of_acquireWaited {bound : BitVec 16} {s t : State} (h : AcquireWaited bound s t)
    (hw : s.waiting = none) (hstop : StoppedIsLow s.block) (hlive : Live s)
    (hlines : WaitingLines s.block .acquire) : BusInvariant t := by
  have hedges := stoppedIsLow_clockEdges
  obtain ⟨hdirs, hdata, hreq, hack⟩ := hlines
  cases h with
  | answered n k =>
    refine busInvariant_of_idle (by simp [acquireGranted, hw]) (hedges n s hstop) fun _ => ?_
    rw [acquireGranted_block, clockEdges_block]
    exact ⟨⟨rfl, rfl⟩, rfl, fun _ => rfl, fun _ => hreq⟩
  | timedOut n hb => exact busInvariant_of_idle (by simp [raise, hw]) (hedges n s hstop) nofun
  | suspended n k hb =>
    refine busInvariant_of_waiting rfl (hedges n s hstop) ?_ ?_
    · simpa [Live, clockEdges_block] using hlive
    · rw [State.suspend_block, clockEdges_block]
      exact ⟨hdirs, hdata, hreq, hack⟩

/-- What holds of the lines while a dispatch waits, for either command that dispatches (R155). -/
def DispatchLines (b : Block) : Prop := DirectionsTrackOwnership b ∧ RequestTracksOwnership b ∧ b.ioackOut = true

theorem waitingLines_iff_dispatchLines (b : Block) (job : WaitJob) (h : job ≠ .acquire) :
    WaitingLines b job ↔ DispatchLines b := by
  cases job with
  | acquire => exact absurd rfl h
  | _ => exact Iff.rfl

/-- The wait of a dispatch, from the moment it is open (R155, R158). -/
theorem busInvariant_of_dispatchWaited {job : WaitJob} {report : Nat → State → State} {bound : BitVec 16} {s t : State}
    (hrep : Reports report) (h : DispatchWaited job report bound s t) (hjob : job ≠ .acquire) (hw : s.waiting = none)
    (hstop : StoppedIsLow s.block) (hlive : Live s) (hlines : DispatchLines s.block) : BusInvariant t := by
  have hedges := stoppedIsLow_clockEdges
  obtain ⟨hdirs, hreq, hack⟩ := hlines
  cases h with
  | answered n k =>
    refine busInvariant_of_idle (by simp [hrep.waiting, hw]) ?_ fun _ => ?_ <;> rw [hrep.block]
    · exact hedges n s hstop
    · rw [ioClose_block, clockEdges_block]
      exact ⟨hdirs, rfl, hreq⟩
  | timedOut n hb => exact busInvariant_of_idle (by simp [raise, hw]) (hedges n s hstop) nofun
  | suspended n k hb =>
    refine busInvariant_of_waiting rfl (hedges n s hstop) ?_ ?_
    · simpa [Live, clockEdges_block] using hlive
    · rw [State.suspend_block, clockEdges_block, waitingLines_iff_dispatchLines _ _ hjob]
      exact ⟨hdirs, hreq, hack⟩

/-- A dispatch opens at a command boundary with its acknowledge asserted (R155). -/
theorem dispatchLines_ioOpen (st : Status) (s : State) (hrest : BusAtRest s.block) :
    DispatchLines (ioOpen st s).block := by
  obtain ⟨hdirs, -, hreq⟩ := hrest
  rw [ioOpen_block_eq]
  exact ⟨hdirs, hreq, rfl⟩

theorem unlessFree_cases (body : State → State) (s : State) :
    (isFree s = true ∧ unlessFree body s = refuse .mode s) ∨ (isFree s = false ∧ unlessFree body s = body s) := by
  cases hfree : isFree s with
  | true => exact .inl ⟨rfl, if_pos hfree⟩
  | false => exact .inr ⟨rfl, if_neg (Bool.eq_false_iff.1 hfree)⟩

/-- Every command keeps I1 to I4 (R27). -/
theorem commandBody_busInvariant (i : Instr) (s : State) (hw : s.waiting = none) (hlive : Live s)
    (hstop : StoppedIsLow s.block) (hrest : BusAtRest s.block) : BusInvariant (commandBody i s) := by
  have hkept (t : State) (htw : t.waiting = s.waiting) (hb : t.block = s.block) : BusInvariant t :=
    busInvariant_of_idle (htw.trans hw) (hb ▸ hstop) fun _ => hb ▸ hrest
  cases i with
  | acquire bound =>
    obtain ⟨hdirs, hdata, -⟩ := hrest
    exact busInvariant_of_acquireWaited (acquireFinish_waited bound 0 (acquireRequest s) (.inr rfl)) hw hstop hlive
      ⟨hdirs, hdata, rfl, rfl⟩
  | release => exact busInvariant_of_idle hw hstop fun _ => ⟨⟨rfl, rfl⟩, rfl, nofun, nofun⟩
  | clkRun => exact busInvariant_of_idle hw nofun fun _ => hrest
  | clkStop =>
    rw [commandBody, stopClock_eq]
    exact busInvariant_of_idle hw (fun _ => rfl) fun _ => hrest
  | clkCycle n =>
    rcases unlessFree_cases (fun s => complete (clockPairs n.toNat (setClk false s))) s with ⟨-, h⟩ | ⟨hfree, h⟩ <;>
      rw [commandBody, h]
    · exact hkept _ rfl rfl
    · rw [clockPairs_setClk_low n.toNat s hfree]
      exact busInvariant_of_idle hw nofun fun _ => hrest
  | clkStep =>
    rcases unlessFree_cases (fun s => complete (setClk (!s.block.clkOut) s)) s with ⟨-, h⟩ | ⟨-, h⟩ <;>
      rw [commandBody, h]
    · exact hkept _ rfl rfl
    · exact busInvariant_of_idle hw nofun fun _ => hrest
  | tick bound =>
    rcases unlessFree_cases (tickBody bound) s with ⟨-, h⟩ | ⟨hfree, h⟩ <;> rw [commandBody, h]
    · exact hkept _ rfl rfl
    · rcases tickBody_cases bound s hfree with h | h
      · exact busInvariant_of_dispatchWaited (reports_tickReport _ _ _ _) h nofun ((ioOpen_waiting _ _).trans hw)
          (by rw [ioOpen_block_eq]; exact nofun) (by rw [Live, ioOpen_block_eq]; exact hlive)
          (dispatchLines_ioOpen _ _ hrest)
      · rw [h]
        exact busInvariant_of_idle hw nofun fun _ => hrest
  | ioDispatch bound =>
    rcases ioDispatchBody_cases bound s with h | h
    · exact busInvariant_of_dispatchWaited (reports_ioReport _) h nofun ((ioOpen_waiting _ _).trans hw)
        (by rw [ioOpen_block_eq]; exact hstop) (by rw [Live, ioOpen_block_eq]; exact hlive)
        (dispatchLines_ioOpen _ _ hrest)
    · rw [commandBody, h]
      exact busInvariant_of_idle hw hstop fun _ => hrest
  | setRange kind cat start last =>
    rw [commandBody]
    split
    · cases kind <;> exact busInvariant_of_idle hw hstop fun _ => hrest
    · exact hkept _ rfl rfl
  | clrRange kind cat => cases kind <;> exact busInvariant_of_idle hw hstop fun _ => hrest
  | lineSet l v => cases l <;> exact busInvariant_of_idle hw hstop fun _ => hrest
  | sample | bdClassify | bdReset => exact busInvariant_of_idle hw hstop fun _ => hrest

/-- Settles O10: a wait goes on or ends, a command is carried out or refused, block reset writes the whole table, and
no other act touches the block. -/
theorem everyStepKeepsTheBusInvariant : Obligations.EveryStepKeepsTheBusInvariant := by
  intro s t hinv h
  have hstop : StoppedIsLow s.block := hinv.1
  have hkept (t : State) (hw : s.waiting = none) (htw : t.waiting = s.waiting) (hb : t.block = s.block) :
      BusInvariant t :=
    busInvariant_of_idle (htw.trans hw) (hb ▸ hstop) fun hlive => by
      rw [hb]; exact hinv.atRest hw (by rwa [Live, hb] at hlive)
  cases step_cases h with
  | resumed w hw =>
    obtain ⟨hlive, hlines⟩ := hinv.waitingLines hw
    rcases resumeWait_cases w s with ⟨hjob, h⟩ | ⟨hjob, report, hrep, h⟩
    · exact busInvariant_of_acquireWaited h rfl hstop hlive (hjob ▸ hlines)
    · exact busInvariant_of_dispatchWaited hrep h hjob rfl hstop hlive
        ((waitingLines_iff_dispatchLines _ _ hjob).1 hlines)
  | ran word rest i t hw hi hd hexec =>
    rcases exec_cases hexec with ⟨hlive, rfl⟩ | ⟨-, rfl⟩
    · exact commandBody_busInvariant i _ hw hlive hstop (hinv.atRest hw hlive)
    · exact hkept _ hw rfl rfl
  | rejected word rest hw =>
    rw [refuseWord]
    split <;> exact hkept _ hw rfl rfl
  | reset => exact busInvariant_of_idle rfl (fun _ => rfl) fun _ => ⟨⟨rfl, rfl⟩, rfl, nofun, nofun⟩
  | idled hw | latched _ _ hw | stored _ _ _ hw | loaded _ _ hw => exact hkept _ hw rfl rfl

/-! ### Along a run -/

/-- A run is its first step and the run from there. -/
theorem reaches_succ {n : Nat} {s u t : State} (hu : step s = .next u) : Reaches s (n + 1) t ↔ Reaches u n t := by
  have hfirst : Sys2Proof.core.step s = .next u := hu
  have hrun : Sys2Proof.core.run (n + 1) s = Sys2Proof.core.run n u := by simp only [Host.Core.run, hfirst]
  rw [Reaches, Reaches, hrun]

/-- What every step keeps holds at the end of every run that began with it. -/
theorem reaches_induction {P : State → Prop} (hstep : ∀ s t, P s → step s = .next t → P t) {n : Nat} {s t : State}
    (hs : P s) (h : Reaches s n t) : P t := by
  induction n generalizing s with
  | zero => exact Host.Outcome.next.inj h ▸ hs
  | succ n ih =>
    obtain ⟨u, hu⟩ := step_next s
    exact ih (hstep s u hs hu) ((reaches_succ hu).1 h)

/-- Settles O12: the invariant holds after reset, whatever acts and moves are to come, and every step keeps it. -/
theorem reachableBoundariesHaveTheBusInvariants : Obligations.ReachableBoundariesHaveTheBusInvariants := by
  rintro s ⟨inputs, reactions, n, h⟩ hw hlive
  have hreset : BusInvariant { State.reset with
      inputs := inputs, world := { State.reset.world with reactions := reactions } } :=
    resetMeetsTheBusInvariant
  have hinv := reaches_induction everyStepKeepsTheBusInvariant hreset h
  obtain ⟨hdirs, hdata, hreq⟩ := hinv.atRest hw hlive
  exact ⟨hdirs, hdata, hreq, hinv.1⟩

/-! ### Codes and faults -/

/-- The `toggles` field of a bounded wait that has made all its toggles holds its bound (R29, R82). -/
theorem togglesField_toNat (bound : BitVec 16) : togglesField bound.toNat = bound := by
  have hle : bound.toNat ≤ 0xFFFF := Nat.le_of_lt_succ bound.isLt
  rw [togglesField, Nat.min_eq_left hle, BitVec.ofNat_toNat, BitVec.setWidth_eq]

/-- A command that waits comes back complete, or not yet, without a fault, or it raises the fault of its wait with the
toggles it made (R82, R158, R179). -/
theorem waited_codes {f : BlockFault} {job : WaitJob} {close : Nat → State → State} {bound : BitVec 16} {s t : State}
    (hclose : ∀ k s, (close k s).block.faultCode = s.block.faultCode ∧ ∃ r, (close k s).result = some r ∧ r.code = 0)
    (h : Waited f job close bound s t) :
    (t.block.faultCode = s.block.faultCode ∧ ∀ r, t.result = some r → r.code = 0) ∨
    (bound ≠ 0 ∧ t.block.faultCode = faultNumber f ∧
      t.result = some { code := faultNumber f, toggles := some bound }) := by
  cases h with
  | answered n k =>
    obtain ⟨hcode, r, hr, hok⟩ := hclose k (clockEdges n s)
    refine .inl ⟨by rw [hcode, clockEdges_block], fun r' hr' => ?_⟩
    rw [← Option.some.inj (hr.symm.trans hr'), hok]
  | timedOut n hb => exact .inr ⟨hb, rfl, by simp [raise, togglesField_toNat]⟩
  | suspended n k hb => exact .inl ⟨by rw [State.suspend_block, clockEdges_block], nofun⟩

theorem acquireWaited_codes {bound : BitVec 16} {s t : State} (h : AcquireWaited bound s t) :
    (t.block.faultCode = s.block.faultCode ∧ ∀ r, t.result = some r → r.code = 0) ∨
    (bound ≠ 0 ∧ t.block.faultCode = 1 ∧ t.result = some { code := 1, toggles := some bound }) :=
  waited_codes (close := acquireGranted) (fun _ _ => ⟨rfl, _, rfl, rfl⟩) h

theorem dispatchWaited_codes {job : WaitJob} {report : Nat → State → State} {bound : BitVec 16} {s t : State}
    (hrep : Reports report) (h : DispatchWaited job report bound s t) :
    (t.block.faultCode = s.block.faultCode ∧ ∀ r, t.result = some r → r.code = 0) ∨
    (bound ≠ 0 ∧ t.block.faultCode = 2 ∧ t.result = some { code := 2, toggles := some bound }) := by
  refine waited_codes (close := fun k s => report k (ioClose s)) (fun k s => ?_) h
  obtain ⟨r, hok, hr⟩ := hrep k (ioClose s)
  rw [hr]
  exact ⟨rfl, r, rfl, hok⟩

/-- The codes of a command's result that are no fault: complete, or refused on a live block (R175). -/
def PlainCode (c : BitVec 4) : Prop := c = 0 ∨ c = 5 ∨ c = 6 ∨ c = 7

/-- All that a command of a live block can end with: no fault and a plain code, if any, or the fault of its bounded
wait (R175, R179). -/
theorem commandBody_codes (i : Instr) (s : State) (hlive : Live s) :
    (Live (commandBody i s) ∧ ∀ r, (commandBody i s).result = some r → PlainCode r.code) ∨
    (∃ bound, i = .acquire bound ∧ bound ≠ 0 ∧ (commandBody i s).block.faultCode = 1 ∧
      (commandBody i s).result = some { code := 1, toggles := some bound }) ∨
    (∃ bound, (i = .tick bound ∨ i = .ioDispatch bound) ∧ bound ≠ 0 ∧ (commandBody i s).block.faultCode = 2 ∧
      (commandBody i s).result = some { code := 2, toggles := some bound }) := by
  have hplain (t : State) (hb : t.block.faultCode = s.block.faultCode) (c : Result) (hr : t.result = some c)
      (hc : PlainCode c.code) : Live t ∧ ∀ r, t.result = some r → PlainCode r.code :=
    ⟨hb.trans hlive, fun r h => Option.some.inj (hr.symm.trans h) ▸ hc⟩
  cases i with
  | acquire bound =>
    rcases acquireWaited_codes (acquireFinish_waited bound 0 (acquireRequest s) (.inr rfl)) with ⟨hb, hr⟩ | ⟨hb, h⟩
    · exact .inl ⟨hb.trans hlive, fun r h => .inl (hr r h)⟩
    · exact .inr (.inl ⟨bound, rfl, hb, h⟩)
  | tick bound =>
    rcases unlessFree_cases (tickBody bound) s with ⟨-, h⟩ | ⟨hfree, h⟩ <;> rw [commandBody, h]
    · exact .inl (hplain _ rfl _ rfl (.inr (.inr (.inl rfl))))
    · rcases tickBody_cases bound s hfree with h | h
      · rcases dispatchWaited_codes (reports_tickReport _ _ _ _) h with ⟨hb, hr⟩ | ⟨hb, h⟩
        · rw [ioOpen_block_eq] at hb
          exact .inl ⟨hb.trans hlive, fun r h => .inl (hr r h)⟩
        · exact .inr (.inr ⟨bound, .inl rfl, hb, h⟩)
      · rw [h]
        exact .inl (hplain _ rfl _ rfl (.inl rfl))
  | ioDispatch bound =>
    rcases ioDispatchBody_cases bound s with h | h
    · rcases dispatchWaited_codes (reports_ioReport _) h with ⟨hb, hr⟩ | ⟨hb, h⟩
      · rw [ioOpen_block_eq] at hb
        exact .inl ⟨hb.trans hlive, fun r h => .inl (hr r h)⟩
      · exact .inr (.inr ⟨bound, .inr rfl, hb, h⟩)
    · rw [commandBody, h]
      exact .inl (hplain _ rfl _ rfl (.inr (.inr (.inr rfl))))
  | clkStop =>
    rw [commandBody, stopClock_eq]
    exact .inl (hplain _ rfl _ rfl (.inl rfl))
  | clkCycle n =>
    rcases unlessFree_cases (fun s => complete (clockPairs n.toNat (setClk false s))) s with ⟨-, h⟩ | ⟨hfree, h⟩ <;>
      rw [commandBody, h]
    · exact .inl (hplain _ rfl _ rfl (.inr (.inr (.inl rfl))))
    · rw [clockPairs_setClk_low n.toNat s hfree]
      exact .inl (hplain _ rfl _ rfl (.inl rfl))
  | clkStep =>
    rcases unlessFree_cases (fun s => complete (setClk (!s.block.clkOut) s)) s with ⟨-, h⟩ | ⟨-, h⟩ <;>
      rw [commandBody, h]
    · exact .inl (hplain _ rfl _ rfl (.inr (.inr (.inl rfl))))
    · exact .inl (hplain _ rfl _ rfl (.inl rfl))
  | setRange kind cat start last =>
    rw [commandBody]
    split
    · cases kind <;> exact .inl (hplain _ rfl _ rfl (.inl rfl))
    · exact .inl (hplain _ rfl _ rfl (.inr (.inl rfl)))
  | clrRange kind cat => cases kind <;> exact .inl (hplain _ rfl _ rfl (.inl rfl))
  | lineSet l v => cases l <;> exact .inl (hplain _ rfl _ rfl (.inl rfl))
  | release | clkRun | sample | bdClassify | bdReset => exact .inl (hplain _ rfl _ rfl (.inl rfl))

/-- Settles O9: of all that a command can end with only a timeout has a fault. -/
theorem onlyTimeoutsRaiseFaults : Obligations.OnlyTimeoutsRaiseFaults := by
  intro i s t hlive h hfault
  obtain rfl := Host.Outcome.next.inj ((exec_live i s hlive).symm.trans h)
  exact (commandBody_codes i s hlive).resolve_left fun ⟨hlive', _⟩ => hfault hlive'

/-- A command that has raised no fault has defined codes. -/
theorem codesAreDefined_of_plain {t : State} (hlive : Live t) (hr : ∀ r, t.result = some r → PlainCode r.code) :
    CodesAreDefined t := by
  refine ⟨.inl hlive, fun r h => ?_⟩
  rcases hr r h with hc | hc | hc | hc <;> rw [hc] <;> decide

/-- A wait that goes on or comes back complete has defined codes still. -/
theorem codesAreDefined_of_complete {t : State}
    (hf : t.block.faultCode = 0 ∨ t.block.faultCode = 1 ∨ t.block.faultCode = 2)
    (hr : ∀ r, t.result = some r → r.code = 0) : CodesAreDefined t :=
  ⟨hf, fun r h => by rw [hr r h]; decide⟩

/-- A bounded wait that has timed out has defined codes. -/
theorem codesAreDefined_of_fault {t : State} (c : Result) (hf : t.block.faultCode = 1 ∨ t.block.faultCode = 2)
    (hr : t.result = some c) (hc : c.code = 1 ∨ c.code = 2) : CodesAreDefined t := by
  refine ⟨.inr hf, fun r h => ?_⟩
  obtain rfl := Option.some.inj (hr.symm.trans h)
  rcases hc with hc | hc <;> rw [hc] <;> decide

/-- A refusal keeps the fault code and gives a defined code (R177). -/
theorem codesAreDefined_refuse (r : Reason) (s : State) (h : CodesAreDefined s) : CodesAreDefined (refuse r s) := by
  refine ⟨h.1, fun c hc => ?_⟩
  obtain rfl := Option.some.inj hc
  cases r <;> decide

/-- Settles O13: a command or a wait gives a plain code or its own fault, and the other acts give no result code. -/
theorem everyStepKeepsTheCodesDefined : Obligations.EveryStepKeepsTheCodesDefined := by
  intro s t hcodes h
  cases step_cases h with
  | resumed w hw =>
    rcases resumeWait_cases w s with ⟨-, h⟩ | ⟨-, report, hrep, h⟩
    · rcases acquireWaited_codes h with ⟨hf, hr⟩ | ⟨hb, -⟩
      · exact codesAreDefined_of_complete (hf ▸ hcodes.1) hr
      · exact absurd rfl hb
    · rcases dispatchWaited_codes hrep h with ⟨hf, hr⟩ | ⟨hb, -⟩
      · exact codesAreDefined_of_complete (hf ▸ hcodes.1) hr
      · exact absurd rfl hb
  | ran word rest i t hw hi hd hexec =>
    rcases exec_cases hexec with ⟨hlive, rfl⟩ | ⟨-, rfl⟩
    · rcases commandBody_codes i _ hlive with ⟨hl, hr⟩ | ⟨bound, -, -, hf, hr⟩ | ⟨bound, -, -, hf, hr⟩
      · exact codesAreDefined_of_plain hl hr
      · exact codesAreDefined_of_fault _ (.inl hf) hr (.inl rfl)
      · exact codesAreDefined_of_fault _ (.inr hf) hr (.inr rfl)
    · exact codesAreDefined_refuse _ _ hcodes
  | rejected word rest hw =>
    rw [refuseWord]
    split <;> exact codesAreDefined_refuse _ _ hcodes
  | reset => exact ⟨.inl rfl, nofun⟩
  | idled | latched | stored | loaded => exact hcodes

end Sys2Proof.Machine
end

section
/-! PROOFS. What the commands and the steps leave of the world: the external CPU's memory (spec/20_memory.md R40, R41)
and the port map (spec/46_surrounding_interfaces.md R156) change by the environment's own moves and by the one handler
of a write dispatch. -/

namespace Sys2Proof.Machine

/-! ### Moves of the environment and the ports -/

/-- What a move of the environment does beside the ports does not depend on the ports. -/
theorem World.move_withPorts (w : World) (ports : List PortReg) :
    ∃ ports', World.move { w with ports := ports } = { w.move with ports := ports' } := by
  obtain ⟨lines, mst, mem, old, reactions, choices⟩ := w
  cases reactions <;> exact ⟨_, rfl⟩

theorem World.moves_withPorts (n : Nat) (w : World) (ports : List PortReg) :
    ∃ ports', World.moves n { w with ports := ports } = { World.moves n w with ports := ports' } := by
  induction n generalizing w ports with
  | zero => exact ⟨ports, rfl⟩
  | succ n ih =>
    obtain ⟨ports', h⟩ := World.move_withPorts w ports
    rw [World.moves_succ, World.moves_succ, h]
    exact ih _ _

/-- A move takes a free value only after the last listed move (log 1). -/
theorem World.moves_choices (n : Nat) (w : World) :
    (World.moves n w).choices = w.choices + (n - w.reactions.length) := by
  induction n generalizing w with
  | zero => simp
  | succ n ih =>
    rw [World.moves_succ, ih, World.move_reactions]
    cases h : w.reactions with
    | nil =>
      rw [World.move_free w h, World.apply_choices, List.tail_nil, List.length_nil, Nat.sub_zero, Nat.sub_zero,
        Nat.add_comm n 1]
      exact Nat.add_assoc _ _ _
    | cons m rest =>
      rw [World.move_listed w m rest h, World.apply_choices, List.tail_cons, List.length_cons, Nat.succ_sub_succ]

/-! ### The world after a command -/

/-- The environment has moved, and one handler, at most, has written to the ports, which stay mapped as they were. -/
def Served (w w' : World) : Prop :=
  ∃ n m ports, ports.map PortReg.num = w.ports.map PortReg.num ∧
    w' = World.moves m { World.moves n w with ports := ports }

theorem served_self (w : World) : Served w w := ⟨0, 0, w.ports, rfl, rfl⟩

theorem Served.moves {w w' : World} (h : Served w w') (k : Nat) : Served w (World.moves k w') := by
  obtain ⟨n, m, ports, hnums, rfl⟩ := h
  exact ⟨n, m + k, ports, hnums, (World.moves_add m k _).symm⟩

/-- The handler of a dispatch, between moves of the environment (R155, R156). -/
theorem served_handled (st : Status) (w : World) (n m : Nat) :
    Served w (World.moves m (handled st (World.moves n w))) := by
  rw [handled]
  split_ifs
  · exact ⟨n, m, _, World.moves_nums n w, rfl⟩
  · exact ⟨n, m, _, (portWrite_nums _ _ _).trans (World.moves_nums n w), rfl⟩
  · exact ⟨n, m, _, World.moves_nums n w, rfl⟩

/-- Opening a dispatch runs its handler once, whatever the environment has done since `w` (R155). -/
theorem served_ioOpen (st : Status) (a : Nat) {w : World} {s : State} (hs : s.world = World.moves a w) :
    Served w (ioOpen st s).world := by
  obtain ⟨n, m, hworld, -⟩ := openedWorld_clockEdges st s 0
  rw [clockEdges_zero, hs, ← World.moves_add] at hworld
  rw [hworld]
  exact served_handled st w (a + n) m

section
variable {w : World} {s : State} (h : Served w s.world)
include h

theorem Served.drive (l : OutLine) (v : Bool) : Served w (drive l v s).world := by
  rw [drive_world]
  exact h.moves _

theorem Served.setDir (g : LineGroup) (d : Dir) : Served w (setDir g d s).world := by
  rw [setDir_world]
  exact h.moves _

theorem Served.setClk (v : Bool) : Served w (setClk v s).world := by
  rw [setClk_world]
  exact h.moves _

theorem Served.clockEdges (n : Nat) : Served w (clockEdges n s).world := by
  rw [clockEdges_world]
  exact h.moves n

theorem Served.acquireGranted (k : Nat) : Served w (acquireGranted k s).world :=
  ((h.setDir .ctrl .output).setDir .addr .output).setDir .data .input

theorem Served.ioClose : Served w (ioClose s).world := (h.setDir .data .input).drive .ioack false

/-- A wait serves the world if its close does. -/
theorem Served.waited {f : BlockFault} {job : WaitJob} {close : Nat → State → State} {bound : BitVec 16} {t : State}
    (hclose : ∀ k u, Served w u.world → Served w (close k u).world) (ht : Waited f job close bound s t) :
    Served w t.world := by
  cases ht with
  | answered n k => exact hclose k _ (h.clockEdges n)
  | timedOut n => exact h.clockEdges n
  | suspended n => exact h.clockEdges n

theorem Served.acquireWaited {bound : BitVec 16} {t : State} (ht : AcquireWaited bound s t) : Served w t.world :=
  h.waited (close := Machine.acquireGranted) (fun k _ hu => hu.acquireGranted k) ht

theorem Served.dispatchWaited {job : WaitJob} {report : Nat → State → State} {bound : BitVec 16} {t : State}
    (hrep : Reports report) (ht : DispatchWaited job report bound s t) : Served w t.world :=
  h.waited (close := fun k s => report k (Machine.ioClose s))
    (fun k u hu => by rw [hrep.world]; exact hu.ioClose) ht

end

theorem commandBody_served (i : Instr) (s : State) : Served s.world (commandBody i s).world := by
  have hself := served_self s.world
  cases i with
  | acquire bound =>
    have hasked : Served s.world (acquireRequest s).world :=
      ((hself.drive .busrq true).drive .ioack true).drive .ioack false
    exact hasked.acquireWaited (acquireFinish_waited bound 0 _ (.inr rfl))
  | release => exact (((hself.setDir .ctrl .input).setDir .addr .input).setDir .data .input).drive .busrq false
  | clkStop =>
    rw [commandBody, stopClock_eq]
    exact hself.moves _
  | clkCycle n =>
    rcases unlessFree_cases (fun s => complete (clockPairs n.toNat (setClk false s))) s with ⟨-, h⟩ | ⟨hfree, h⟩ <;>
      rw [commandBody, h]
    · exact hself
    · rw [clockPairs_setClk_low n.toNat s hfree]
      exact hself.moves _
  | clkStep =>
    rcases unlessFree_cases (fun s => complete (setClk (!s.block.clkOut) s)) s with ⟨-, h⟩ | ⟨-, h⟩ <;>
      rw [commandBody, h]
    · exact hself
    · exact hself.setClk _
  | tick bound =>
    rcases unlessFree_cases (tickBody bound) s with ⟨-, h⟩ | ⟨hfree, h⟩ <;> rw [commandBody, h]
    · exact hself
    · rcases tickBody_cases bound s hfree with h | h
      · exact (served_ioOpen _ _ rfl).dispatchWaited (reports_tickReport _ _ _ _) h
      · rw [h]
        exact hself.moves _
  | ioDispatch bound =>
    rcases ioDispatchBody_cases bound s with h | h
    · have hopen := served_ioOpen (sample s) 0 (w := s.world)
        (s := s.setBlock { s.block with lastStatus := packStatus (sample s) }) rfl
      exact hopen.dispatchWaited (reports_ioReport _) h
    · rw [commandBody, h]
      exact hself
  | setRange kind cat start last =>
    rw [commandBody]
    split <;> exact hself
  | lineSet l v => exact hself.drive _ _
  | clkRun | sample | bdClassify | bdReset | clrRange => exact hself

theorem exec_served {i : Instr} {s t : State} (h : exec i s = .next t) : Served s.world t.world := by
  rcases exec_cases h with ⟨-, rfl⟩ | ⟨-, rfl⟩
  · exact commandBody_served i s
  · exact served_self s.world

theorem resumeWait_served (w : Waiting) (s : State) : Served s.world (resumeWait w s).world := by
  rcases resumeWait_cases w s with ⟨-, h⟩ | ⟨-, report, hrep, h⟩
  · exact Served.acquireWaited (s := s.unsuspend) (served_self s.world) h
  · exact Served.dispatchWaited (s := s.unsuspend) (served_self s.world) hrep h

/-! ### The statements -/

theorem Served.nums {w w' : World} (h : Served w w') : w'.ports.map PortReg.num = w.ports.map PortReg.num := by
  obtain ⟨n, m, ports, hnums, rfl⟩ := h
  exact (World.moves_nums m _).trans hnums

theorem Served.wf {w w' : World} (h : Served w w') (hwf : Memory.wf w.mem = true) : Memory.wf w'.mem = true := by
  obtain ⟨n, m, ports, -, rfl⟩ := h
  exact World.wf_moves m _ (World.wf_moves n w hwf)

/-- What the handler wrote to the ports shows neither in the moves left nor in the memory. -/
theorem Served.exists_moves {w w' : World} (h : Served w w') :
    ∃ n ports, w' = { World.moves n w with ports := ports } := by
  obtain ⟨n, m, ports, -, rfl⟩ := h
  obtain ⟨ports', h⟩ := World.moves_withPorts m (World.moves n w) ports
  exact ⟨n + m, ports', by rw [h, World.moves_add]⟩

/-- Settles O15: no act of the supervisor and no move of the environment maps a port. -/
theorem everyStepKeepsThePortMap : Obligations.EveryStepKeepsThePortMap := by
  intro s t h
  have htaken : (takeInput s).world.ports.map PortReg.num = s.world.ports.map PortReg.num := World.moves_nums _ _
  cases step_cases h with
  | resumed w => exact (resumeWait_served w s).nums
  | ran _ _ _ _ _ _ _ hexec => exact (exec_served hexec).nums.trans htaken
  | rejected =>
    rw [refuseWord]
    split <;> exact htaken
  | reset => exact (World.moves_nums _ _).trans htaken
  | idled | latched | stored | loaded => exact htaken

/-- Settles O14: the environment's stores and the memory path's keep the form, and nothing else writes memory. -/
theorem everyStepKeepsMemoryCanonical : Obligations.EveryStepKeepsMemoryCanonical := by
  intro s t hwf h
  have htaken : Memory.wf (takeInput s).world.mem = true := World.wf_moves _ _ hwf
  cases step_cases h with
  | resumed w => exact (resumeWait_served w s).wf hwf
  | ran _ _ _ _ _ _ _ hexec => exact (exec_served hexec).wf htaken
  | rejected =>
    rw [refuseWord]
    split <;> exact htaken
  | reset => exact World.wf_moves _ _ htaken
  | stored a v => exact memWrite_wf a v _ htaken
  | idled | latched | loaded => exact htaken

/-- Settles O53: a command and a step of its wait serve the world, and that writes no byte of memory. -/
theorem noCommandWritesMemory : Obligations.NoCommandWritesMemory := by
  intro s t h
  have hserved : Served s.world t.world := by
    rcases h with ⟨i, h⟩ | ⟨hw, h⟩
    · exact exec_served h
    · cases step_cases h with
      | resumed w => exact resumeWait_served w s
      | idled hw' | ran _ _ _ _ hw' | rejected _ _ hw' | reset _ hw' | latched _ _ hw' | stored _ _ _ hw'
      | loaded _ _ hw' => exact absurd hw' hw
  obtain ⟨n, ports, hworld⟩ := hserved.exists_moves
  rw [hworld]
  exact ⟨n, World.moves_reactions n s.world, World.moves_choices n s.world, rfl, fun _ => rfl⟩

end Sys2Proof.Machine
end

section
/-! PROOFS. No command reads the external CPU's memory (spec/20_memory.md R41): every shared operation, and so every
command, does the same to two machines that differ in it alone. -/

namespace Sys2Proof.Machine

/-- The state with other contents of the external CPU's memory. -/
def State.withMem (s : State) (m : List Host.Cell) : State := { s with world := { s.world with mem := m } }

/-- What `f` does to anything but the memory does not depend on the memory. -/
def MemBlind (f : State → State) : Prop := ∀ s m, ∃ m', f (s.withMem m) = (f s).withMem m'

/-! ### Building blocks -/

theorem MemBlind.comp {f g : State → State} (hg : MemBlind g) (hf : MemBlind f) : MemBlind fun s => g (f s) := by
  intro s m
  obtain ⟨m₁, h₁⟩ := hf s m
  obtain ⟨m₂, h₂⟩ := hg (f s) m₁
  exact ⟨m₂, (congrArg g h₁).trans h₂⟩

/-- An operation that takes a value from the state, but not from the memory, and goes on with it. -/
theorem memBlind_of_value {α : Type} (v : State → α) (hv : ∀ s m, v (s.withMem m) = v s) {F : α → State → State}
    (hF : ∀ a, MemBlind (F a)) : MemBlind fun s => F (v s) s := by
  intro s m
  obtain ⟨m', h⟩ := hF (v s) s m
  exact ⟨m', (congrArg (fun a => F a (s.withMem m)) (hv s m)).trans h⟩

theorem memBlind_id : MemBlind fun s => s := fun _ m => ⟨m, rfl⟩
theorem memBlind_setBlock (b : Block) : MemBlind fun s => s.setBlock b := fun _ m => ⟨m, rfl⟩
theorem memBlind_answer (r : Result) : MemBlind fun s => s.answer r := fun _ m => ⟨m, rfl⟩
theorem memBlind_suspend (w : Waiting) : MemBlind fun s => s.suspend w := fun _ m => ⟨m, rfl⟩
theorem memBlind_unsuspend : MemBlind State.unsuspend := fun _ m => ⟨m, rfl⟩
theorem memBlind_setPorts (p : List PortReg) : MemBlind fun s => s.setPorts p := fun _ m => ⟨m, rfl⟩

/-- A write of the block that looks at the block alone. -/
theorem memBlind_updateBlock (f : Block → Block) : MemBlind fun s => s.setBlock (f s.block) :=
  memBlind_of_value State.block (fun _ _ => rfl) fun b => memBlind_setBlock (f b)

theorem World.move_withMem (w : World) (m : List Host.Cell) :
    ∃ m', World.move { w with mem := m } = { w.move with mem := m' } := by
  obtain ⟨lines, mst, old, ports, reactions, choices⟩ := w
  cases reactions <;> exact ⟨_, rfl⟩

theorem World.moves_withMem (n : Nat) (w : World) (m : List Host.Cell) :
    ∃ m', World.moves n { w with mem := m } = { World.moves n w with mem := m' } := by
  induction n generalizing w m with
  | zero => exact ⟨m, rfl⟩
  | succ n ih =>
    obtain ⟨m', h⟩ := World.move_withMem w m
    rw [World.moves_succ, World.moves_succ, h]
    exact ih _ _

theorem memBlind_stir (n : Nat) : MemBlind fun s => s.stir n := by
  intro s m
  obtain ⟨m', h⟩ := World.moves_withMem n s.world m
  exact ⟨m', congrArg (fun w => { s with world := w }) h⟩

/-! ### The shared operations -/

theorem memBlind_settle (c : Bool) : MemBlind (settle c) :=
  memBlind_of_value (stirs c) (fun _ _ => rfl) memBlind_stir

theorem memBlind_drive (l : OutLine) (v : Bool) : MemBlind (drive l v) :=
  memBlind_of_value State.block (fun _ _ => rfl) fun b =>
    (memBlind_settle (outReg b l != v)).comp (memBlind_setBlock (setOutReg b l v))

theorem memBlind_driveData (v : Byte) : MemBlind (driveData v) :=
  memBlind_of_value State.block (fun _ _ => rfl) fun b =>
    (memBlind_settle (decide (b.dataDir = .output) && b.dataOut != v)).comp (memBlind_setBlock { b with dataOut := v })

theorem memBlind_setDir (g : LineGroup) (d : Dir) : MemBlind (setDir g d) :=
  memBlind_of_value State.block (fun _ _ => rfl) fun b =>
    (memBlind_settle (!decide (dirReg b g = d))).comp (memBlind_setBlock (setDirReg b g d))

theorem memBlind_complete : MemBlind complete := memBlind_answer _

theorem memBlind_refuse (r : Reason) : MemBlind (refuse r) := memBlind_answer _

theorem memBlind_raise (f : BlockFault) (k : Nat) : MemBlind (raise f k) :=
  (memBlind_answer _).comp (memBlind_updateBlock fun b => { b with faultCode := faultNumber f })

theorem memBlind_ite {c : State → Bool} (hc : ∀ s m, c (s.withMem m) = c s) {f g : State → State} (hf : MemBlind f)
    (hg : MemBlind g) : MemBlind fun s => if c s then f s else g s :=
  memBlind_of_value c hc (F := fun b s => if b then f s else g s) fun b => by cases b <;> assumption

theorem memBlind_unlessFree {body : State → State} (h : MemBlind body) : MemBlind (unlessFree body) :=
  memBlind_ite (fun _ _ => rfl) (memBlind_refuse _) h

theorem memBlind_setClk (v : Bool) : MemBlind (setClk v) :=
  (memBlind_updateBlock fun b => { b with clockMode := .singleStep }).comp (memBlind_drive .clock v)

theorem memBlind_clockEdge : MemBlind clockEdge :=
  memBlind_ite (fun _ _ => rfl) (memBlind_settle false)
    (memBlind_of_value (fun s => !s.block.clkOut) (fun _ _ => rfl) memBlind_setClk)

theorem memBlind_clockPairs (n : Nat) : MemBlind (clockPairs n) := by
  induction n with
  | zero => exact memBlind_id
  | succ n ih => exact ih.comp ((memBlind_setClk false).comp (memBlind_setClk true))

/-! ### The wait loop -/

theorem waitLoop_withMem {cond : State → Bool} (hc : ∀ s m, cond (s.withMem m) = cond s) (bound : BitVec 16)
    (fuel k : Nat) (s : State) (m : List Host.Cell) :
    ∃ m', waitLoop cond bound fuel k (s.withMem m) =
      ((waitLoop cond bound fuel k s).1, (waitLoop cond bound fuel k s).2.withMem m') := by
  induction fuel generalizing k s m with
  | zero =>
    rw [waitLoop, waitLoop, hc]
    split_ifs <;> exact ⟨m, rfl⟩
  | succ fuel ih =>
    obtain ⟨m₁, h₁⟩ := memBlind_clockEdge s m
    rw [waitLoop, waitLoop, hc]
    split_ifs
    · exact ⟨m, rfl⟩
    · exact ⟨m, rfl⟩
    · simp only [h₁]
      exact ih _ _ _

/-- A command after a pass of its wait, if what it does at each end of the pass is blind. -/
theorem memBlind_awaitLine {cond : State → Bool} (hc : ∀ s m, cond (s.withMem m) = cond s) (bound : BitVec 16)
    (k : Nat) {finish : WaitEnd × State → State} (hf : ∀ e, MemBlind fun s => finish (e, s)) :
    MemBlind fun s => finish (awaitLine cond bound k s) := by
  intro s m
  obtain ⟨m₁, h₁⟩ := waitLoop_withMem hc bound (waitFuel bound s) k s m
  obtain ⟨m₂, h₂⟩ := hf (awaitLine cond bound k s).1 (awaitLine cond bound k s).2 m₁
  exact ⟨m₂, (congrArg finish h₁).trans h₂⟩

theorem memBlind_acquireFinish (e : WaitEnd) : MemBlind fun s => acquireFinish (e, s) := by
  cases e with
  | done k =>
    exact (memBlind_answer _).comp ((memBlind_updateBlock fun b => { b with ownership := .supervisorOwned }).comp
      ((memBlind_setDir .data .input).comp ((memBlind_setDir .addr .output).comp (memBlind_setDir .ctrl .output))))
  | timeout k => exact memBlind_raise _ k
  | running k => exact memBlind_suspend _

theorem memBlind_ioFinish (job : WaitJob) {report : Nat → State → State} (hr : ∀ k, MemBlind (report k)) (e : WaitEnd) :
    MemBlind fun s => ioFinish job report (e, s) := by
  cases e with
  | done k => exact (hr k).comp ((memBlind_drive .ioack false).comp (memBlind_setDir .data .input))
  | timeout k => exact memBlind_raise _ k
  | running k => exact memBlind_suspend _

theorem memBlind_ioReport (st : Status) (k : Nat) : MemBlind (ioReport st k) := memBlind_answer _

theorem memBlind_tickReport (st : Status) (fired : CatFlags) (new dispatched : Bool) (k : Nat) :
    MemBlind (tickReport st fired new dispatched k) := fun _ m => ⟨m, rfl⟩

theorem memBlind_ioHandler (st : Status) : MemBlind (ioHandler st) := by
  have hread : MemBlind fun s => setDir .data .output (driveData (portRead s.world.ports (portOf st.addr)) s) :=
    (memBlind_setDir .data .output).comp
      (memBlind_of_value (fun s => portRead s.world.ports (portOf st.addr)) (fun _ _ => rfl) memBlind_driveData)
  have hwrite : MemBlind fun s => s.setPorts (portWrite s.world.ports (portOf st.addr) st.data) :=
    memBlind_of_value (fun s => portWrite s.world.ports (portOf st.addr) st.data) (fun _ _ => rfl) memBlind_setPorts
  exact (memBlind_ite (c := fun _ => st.rd) (fun _ _ => rfl) hread
    (memBlind_ite (c := fun _ => st.wr) (fun _ _ => rfl) hwrite memBlind_id)).comp (memBlind_settle false)

theorem memBlind_ioOpen (st : Status) : MemBlind (ioOpen st) :=
  (memBlind_drive .ioack true).comp (memBlind_ioHandler st)

/-! ### The commands -/

theorem memBlind_stopClock : MemBlind stopClock := by
  rw [show stopClock = _ from funext stopClock_eq]
  exact memBlind_complete.comp (memBlind_of_value (fun s => if isFree s ∨ s.block.clkOut then 1 else 0)
    (fun _ _ => rfl) fun n => (memBlind_stir n).comp
      (memBlind_updateBlock fun b => { b with clockMode := .stopped, clkOut := false }))

/-- IO_DISPATCH after its snapshot. -/
theorem memBlind_ioDispatchBody (bound : BitVec 16) : MemBlind (ioDispatchBody bound) :=
  memBlind_of_value sample (fun _ _ => rfl) fun st =>
    (memBlind_ite (c := fun _ => st.iorq && !st.mreq) (fun _ _ => rfl)
      ((memBlind_awaitLine (fun _ _ => rfl) bound 0
        (memBlind_ioFinish (.ioDispatch st) (memBlind_ioReport st))).comp (memBlind_ioOpen st))
      (memBlind_refuse .notIoCycle)).comp (memBlind_updateBlock fun b => { b with lastStatus := packStatus st })

/-- A tick once it has sampled `st` over the block's registers `b` (R140). -/
def tickSampled (bound : BitVec 16) (st : Status) (b : Block) (s : State) : State :=
  let fired := firedBy st b.prevRd b.prevWr
  let newInstr := fired.opfetch && boundaryVerdict st.data b
  let s := s.setBlock (recordCycle st fired b)
  if decide (kindOf st = .io) then
    tickFinish st fired newInstr (awaitLine iorqGone bound 0 (ioOpen st s))
  else tickReport st fired newInstr false 0 s

theorem tickBody_eq_tickSampled (bound : BitVec 16) (s : State) :
    tickBody bound s =
      (fun u => tickSampled bound (sample u) u.block u) (setClk true (setClk false s)) := by
  simp only [tickSampled, decide_eq_true_eq]
  rfl

theorem memBlind_tickBody (bound : BitVec 16) : MemBlind (tickBody bound) := by
  rw [show tickBody bound = _ from funext (tickBody_eq_tickSampled bound)]
  have hsampled (st : Status) (b : Block) : MemBlind (tickSampled bound st b) :=
    (memBlind_ite (c := fun _ => decide (kindOf st = .io)) (fun _ _ => rfl)
      ((memBlind_awaitLine (fun _ _ => rfl) bound 0
        (memBlind_ioFinish _ (memBlind_tickReport st _ _ true))).comp (memBlind_ioOpen st))
      (memBlind_tickReport st _ _ false 0)).comp (memBlind_setBlock _)
  exact MemBlind.comp
    (memBlind_of_value sample (fun _ _ => rfl) fun st => memBlind_of_value State.block (fun _ _ => rfl) (hsampled st))
    ((memBlind_setClk true).comp (memBlind_setClk false))

theorem commandBody_memBlind (i : Instr) : MemBlind (commandBody i) := by
  cases i with
  | acquire bound =>
    exact (memBlind_awaitLine (fun _ _ => rfl) bound 0 memBlind_acquireFinish).comp
      ((memBlind_drive .ioack false).comp ((memBlind_drive .ioack true).comp (memBlind_drive .busrq true)))
  | release =>
    exact memBlind_complete.comp ((memBlind_updateBlock fun b => { b with ownership := .cpuOwned }).comp
      ((memBlind_drive .busrq false).comp ((memBlind_setDir .data .input).comp
        ((memBlind_setDir .addr .input).comp (memBlind_setDir .ctrl .input)))))
  | clkRun => exact memBlind_complete.comp (memBlind_updateBlock fun b => { b with clockMode := .freeRunning })
  | clkStop => exact memBlind_stopClock
  | clkCycle n =>
    exact memBlind_unlessFree (memBlind_complete.comp ((memBlind_clockPairs n.toNat).comp (memBlind_setClk false)))
  | clkStep =>
    exact memBlind_unlessFree (memBlind_complete.comp
      (memBlind_of_value (fun s => !s.block.clkOut) (fun _ _ => rfl) memBlind_setClk))
  | tick bound => exact memBlind_unlessFree (memBlind_tickBody bound)
  | ioDispatch bound => exact memBlind_ioDispatchBody bound
  | sample =>
    exact memBlind_of_value sample (fun _ _ => rfl) fun st =>
      (memBlind_answer { code := codeOk, status := some (packStatus st) }).comp
        (memBlind_updateBlock fun b => { b with lastStatus := packStatus st })
  | bdClassify byte =>
    exact memBlind_of_value State.block (fun _ _ => rfl) fun b =>
      (memBlind_answer { code := codeOk, newInstr := some (boundaryVerdict byte b) }).comp
        (memBlind_updateBlock (boundaryShift byte))
  | bdReset => exact memBlind_complete.comp (memBlind_updateBlock fun b => { b with bdPrev := 0x00, bdPrev2 := 0x00 })
  | setRange kind cat start last =>
    exact memBlind_ite (c := fun _ => cat.admits start last) (fun _ _ => rfl)
      (memBlind_complete.comp (memBlind_updateBlock fun b => setBank b kind (bankSet (bankOf b kind) cat start last)))
      (memBlind_refuse .encoding)
  | clrRange kind cat =>
    exact memBlind_complete.comp (memBlind_updateBlock fun b => setBank b kind (bankClear (bankOf b kind) cat))
  | lineSet l v => exact memBlind_complete.comp (memBlind_drive _ v)

theorem resumeWait_memBlind (w : Waiting) : MemBlind (resumeWait w) := by
  obtain ⟨job, k⟩ := w
  have hwait {finish : WaitEnd × State → State} (cond : State → Bool) (hc : ∀ s m, cond (s.withMem m) = cond s)
      (hf : ∀ e, MemBlind fun s => finish (e, s)) : MemBlind fun s => finish (awaitLine cond 0 k s.unsuspend) :=
    (memBlind_awaitLine hc 0 k hf).comp memBlind_unsuspend
  cases job with
  | acquire => exact hwait busackAsserted (fun _ _ => rfl) memBlind_acquireFinish
  | ioDispatch st => exact hwait iorqGone (fun _ _ => rfl) (memBlind_ioFinish _ (memBlind_ioReport st))
  | tick st fired new =>
    exact hwait iorqGone (fun _ _ => rfl) (memBlind_ioFinish _ (memBlind_tickReport st fired new true))

/-- Settles O54: a command is its body or a refusal, a step of a wait is a pass of it, and all of them are blind. -/
theorem noCommandReadsMemory : Obligations.NoCommandReadsMemory := by
  intro s t m alike
  have hblind {f : State → State} (hf : MemBlind f) (h : f s = t) : alike (f (s.withMem m)) := by
    obtain ⟨m', hm⟩ := hf s m
    rw [hm, h]
    exact ⟨rfl, rfl, rfl, rfl, rfl⟩
  refine ⟨fun i h => ?_, fun hw h => ?_⟩
  · rcases exec_cases h with ⟨hlive, ht⟩ | ⟨hfault, ht⟩
    · exact ⟨_, exec_live i (s.withMem m) hlive, hblind (commandBody_memBlind i) ht.symm⟩
    · exact ⟨_, refusedWith_of_faulted i (s.withMem m) hfault, hblind (memBlind_refuse .faulted) ht.symm⟩
  · obtain ⟨w, hw⟩ := Option.ne_none_iff_exists'.1 hw
    have ht : resumeWait w s = t := Host.Outcome.next.inj ((step_waiting s w hw).symm.trans h)
    exact ⟨_, step_waiting (s.withMem m) w hw, hblind (resumeWait_memBlind w) ht⟩

end Sys2Proof.Machine
end

section
/-! PROOFS. The commands that wait for nothing (spec/41_clock_generator.md, spec/42_status_sampler.md,
spec/43_boundary_detector.md, spec/44_watch_break.md), the snapshot and its packed form (spec/10_state.md R15, R16), and
the detector's table (R118). -/

namespace Sys2Proof.Machine

/-! ### Clock Generator -/

/-- Settles O23: the one register written is the clock's mode. -/
theorem clkRunFreesTheClock : Obligations.ClkRunFreesTheClock :=
  fun s => ⟨fun hlive => ⟨_, exec_live .clkRun s hlive, rfl, rfl⟩, refusedWith_of_faulted .clkRun s⟩

/-- Settles O24: both branches of CLK_STOP in one equation. -/
theorem clkStopParksTheLineLow : Obligations.ClkStopParksTheLineLow :=
  fun s => ⟨fun hlive => (exec_live .clkStop s hlive).trans (congrArg _ (stopClock_eq s)),
    refusedWith_of_faulted .clkStop s⟩

/-- Settles O26: the line is driven to the other level, which is a change. -/
theorem clkStepInvertsTheLine : Obligations.ClkStepInvertsTheLine := by
  refine fun s => ⟨fun hlive hfree => ?_, whenLive_unlessFree_free _ s, refusedWith_of_faulted .clkStep s⟩
  have hedge : (s.block.clkOut != !s.block.clkOut).toNat = 1 := by cases s.block.clkOut <;> rfl
  calc exec .clkStep s
    _ = .next (complete (setClk (!s.block.clkOut) s)) := whenLive_unlessFree_clocked _ s hlive hfree
    _ = _ := by rw [setClk_clocked _ s hfree, hedge]; rfl

/-- Settles O27: the software edges are refused, and a wait ends complete or with its own fault. -/
theorem freeRunningRefusesSoftwareEdges : Obligations.FreeRunningRefusesSoftwareEdges := by
  refine fun s hlive hfree => ⟨fun n => whenLive_unlessFree_free _ s hlive hfree,
    whenLive_unlessFree_free _ s hlive hfree, fun bound => whenLive_unlessFree_free _ s hlive hfree,
    fun bound t h r hr => ?_⟩
  have hcode : r.code = 0 ∨ r.code = 1 ∨ r.code = 2 ∨ r.code = 7 := by
    rcases h with h | h <;> obtain rfl := Host.Outcome.next.inj ((exec_live _ s hlive).symm.trans h)
    · rcases acquireWaited_codes (acquireFinish_waited bound 0 (acquireRequest s) (.inr rfl)) with ⟨-, h⟩ | ⟨-, -, h⟩
      · exact .inl (h r hr)
      · exact .inr (.inl (by rw [Option.some.inj (hr.symm.trans h)]))
    · rcases ioDispatchBody_cases bound s with h | h
      · rcases dispatchWaited_codes (reports_ioReport _) h with ⟨-, h⟩ | ⟨-, -, h⟩
        · exact .inl (h r hr)
        · exact .inr (.inr (.inl (by rw [Option.some.inj (hr.symm.trans h)])))
      · rw [commandBody, h] at hr
        exact .inr (.inr (.inr (by rw [← Option.some.inj hr]; rfl)))
  rcases hcode with h | h | h | h <;> rw [h] <;> decide

/-! ### Status sampler -/

/-- Settles O28: each field by the definition of its line. -/
theorem snapshotShowsTheResolvedLines : Obligations.SnapshotShowsTheResolvedLines := by
  intro s
  simp only [sample, line, lineAddr, lineData, lineBank, isFree, ctrlOut, decide_eq_true_eq]

theorem packStatus_reserved (st : Status) : (packStatus st).extractLsb' 14 2 = 0 := by
  apply BitVec.eq_of_getLsbD_eq
  intro j hj
  rw [BitVec.getLsbD_extractLsb', packStatus_getLsbD, if_pos (by omega)]
  interval_cases j <;> (simp only [flagBits, BitVec.getLsbD_append]; simp)

@[simp] theorem packStatus_addr (st : Status) : (packStatus st).extractLsb' 16 16 = st.addr := by
  apply BitVec.eq_of_getLsbD_eq
  intro j hj
  rw [BitVec.getLsbD_extractLsb', packStatus_getLsbD, if_neg (by omega), if_pos (by omega), Nat.add_sub_cancel_left]
  simp [hj]

@[simp] theorem packStatus_data (st : Status) : (packStatus st).extractLsb' 32 8 = st.data := by
  apply BitVec.eq_of_getLsbD_eq
  intro j hj
  rw [BitVec.getLsbD_extractLsb', packStatus_getLsbD, if_neg (by omega), if_neg (by omega), if_pos (by omega),
    Nat.add_sub_cancel_left]
  simp [hj]

@[simp] theorem packStatus_bank (st : Status) : (packStatus st).extractLsb' 40 8 = st.bank := by
  apply BitVec.eq_of_getLsbD_eq
  intro j hj
  rw [BitVec.getLsbD_extractLsb', packStatus_getLsbD, if_neg (by omega), if_neg (by omega), if_neg (by omega),
    Nat.add_sub_cancel_left]
  simp [hj]

/-- Settles O29: the flags are the lowest sixteen bits, one by one, and the other parts lie above them. -/
theorem packedSnapshotHasItsBits : Obligations.PackedSnapshotHasItsBits := by
  intro st
  refine ⟨?_, ?_, ?_, ?_, ?_, ?_, ?_, ?_, ?_, ?_, ?_, ?_, ?_, ?_, packStatus_reserved st, packStatus_addr st,
    packStatus_data st, packStatus_bank st⟩ <;>
    (rw [packStatus_getLsbD]; simp only [flagBits, BitVec.getLsbD_append, BitVec.getLsbD_ofBool]; simp)

/-- Settles O30: the body of SAMPLE is the state claimed. -/
theorem sampleReturnsTheSnapshot : Obligations.SampleReturnsTheSnapshot :=
  fun s => ⟨exec_live .sample s, refusedWith_of_faulted .sample s⟩

/-- LINE_SET drives its line and changes nothing else (R13, R103). -/
theorem completes_lineSet (l : SetLine) (v : Bool) (s : State) (hlive : Live s) :
    Completes (.lineSet l v) s (setOutReg s.block (outLineOf l) v) { code := 0 }
      (outReg s.block (outLineOf l) ^^ v).toNat :=
  ⟨_, exec_live (.lineSet l v) s hlive, rfl, rfl,
    ⟨_, drive_world (outLineOf l) v s, fun hfree => stirs_of_clocked _ s hfree⟩, rfl, rfl, rfl⟩

/-- Settles O31: one lemma for the four lines. -/
theorem lineSetDrivesItsLine : Obligations.LineSetDrivesItsLine :=
  fun v s => ⟨fun hlive => ⟨completes_lineSet .reset v s hlive, completes_lineSet .int v s hlive,
    completes_lineSet .nmi v s hlive, completes_lineSet .ioack v s hlive⟩,
    fun hfault l => refusedWith_of_faulted (.lineSet l v) s hfault⟩

/-! ### Cycle classifier -/

/-- A cycle is a memory cycle exactly if `mreq` is asserted (R104). -/
theorem kindOf_mem_iff (st : Status) : kindOf st = .mem ↔ st.mreq = true := by
  cases hm : st.mreq <;> cases hi : st.iorq <;> simp [kindOf, hm, hi]

/-- A cycle is an I/O cycle exactly if `iorq` is asserted and `mreq` is not (R104). -/
theorem kindOf_io_iff (st : Status) : kindOf st = .io ↔ st.mreq = false ∧ st.iorq = true := by
  cases hm : st.mreq <;> cases hi : st.iorq <;> simp [kindOf, hm, hi]

/-- Settles O32: each event by the kind of its cycle. -/
theorem classifierFiresOnStrobeEdges : Obligations.ClassifierFiresOnStrobeEdges := by
  intro st prevRd prevWr f
  refine ⟨rfl, ?_, ?_, ?_, ?_, ?_⟩ <;>
    simp [f, firedBy, kindOf_mem_iff, kindOf_io_iff, and_assoc]

/-! ### Instruction-Boundary Detector -/

/-- A byte is one of the four prefixes exactly if its class says so (R67). -/
theorem classOf_eq_iff (b : Byte) :
    (b = 0xCB#8 ↔ classOf b = .cb) ∧ (b = 0xDD#8 ↔ classOf b = .dd) ∧ (b = 0xED#8 ↔ classOf b = .ed) ∧
      (b = 0xFD#8 ↔ classOf b = .fd) := by
  revert b; decide

/-- Settles O38: the rule compares bytes with the four prefixes alone, so it sees their classes alone. -/
theorem boundaryVerdictFollowsTheTable : Obligations.BoundaryVerdictFollowsTheTable := by
  intro cur p1 p2
  obtain ⟨hcb1, hdd1, hed1, hfd1⟩ := classOf_eq_iff p1
  obtain ⟨hcb2, hdd2, -, hfd2⟩ := classOf_eq_iff p2
  obtain ⟨-, hdd, hed, hfd⟩ := classOf_eq_iff cur
  simp only [newInstruction, Bool.beq_eq_decide_eq, hcb1, hdd1, hed1, hfd1, hcb2, hdd2, hfd2, hdd, hed, hfd]
  generalize classOf p1 = c1, classOf p2 = c2, classOf cur = c
  cases c1 <;> cases c2 <;> cases c <;> rfl

/-- Settles O40: 0x00 is none of the bytes that bind the next one. -/
theorem bdResetStartsAfresh : Obligations.BdResetStartsAfresh := by
  refine fun s => ⟨fun hlive => ⟨_, exec_live .bdReset s hlive, rfl, fun byte => ?_⟩,
    refusedWith_of_faulted .bdReset s⟩
  exact ⟨_, exec_live (.bdClassify byte) _ hlive, rfl⟩

/-! ### Range checker -/

/-- The bank after a write, register by register (R128). -/
theorem bankSet_eq (bank : RangeBank) (cat : Cat) (start last : BitVec 16) :
    bankSet bank cat start last =
      { bus := if cat = .bus then ⟨start, last⟩ else bank.bus
        memrd := if cat = .memrd then ⟨start, last⟩ else bank.memrd
        memwr := if cat = .memwr then ⟨start, last⟩ else bank.memwr
        iord := if cat = .iord then ⟨start.setWidth 8, last.setWidth 8⟩ else bank.iord
        iowr := if cat = .iowr then ⟨start.setWidth 8, last.setWidth 8⟩ else bank.iowr
        opfetch := if cat = .opfetch then ⟨start, last⟩ else bank.opfetch } := by
  rw [← portOf_eq_setWidth, ← portOf_eq_setWidth]
  cases cat <;> rfl

/-- Settles O43: the bank written is the one of the kind, in the register of the category. -/
theorem setRangeWritesOneRegister : Obligations.SetRangeWritesOneRegister := by
  intro kind cat start last s
  refine ⟨fun hlive hadmits => ⟨bankSet (bankOf s.block kind) cat start last, ?_, ?_⟩, fun hlive hadmits => ?_,
    refusedWith_of_faulted _ s⟩
  · refine (exec_live _ s hlive).trans (congrArg _ ((if_pos hadmits).trans ?_))
    cases kind <;> rfl
  · rw [bankSet_eq]
    cases kind <;> exact ⟨rfl, rfl, rfl, rfl, rfl, rfl⟩
  · exact (exec_live _ s hlive).trans (congrArg _ (if_neg (Bool.eq_false_iff.1 hadmits)))

/-- Settles O44: the same for the unset pair. -/
theorem clrRangeUnsetsOneRegister : Obligations.ClrRangeUnsetsOneRegister := by
  intro kind cat s
  refine ⟨fun hlive => ⟨bankClear (bankOf s.block kind) cat, ?_, ?_⟩, refusedWith_of_faulted _ s⟩
  · rw [exec_live _ s hlive]
    cases kind <;> rfl
  · cases kind <;> cases cat <;> simp [bankClear, bankOf]

/-! ### I/O dispatch -/

/-- Settles O49: the body's test of the snapshot fails. -/
theorem ioDispatchRefusesOutsideIo : Obligations.IoDispatchRefusesOutsideIo := by
  refine fun bound s => ⟨fun hlive hio => ?_, refusedWith_of_faulted _ s⟩
  rw [exec_live _ s hlive, commandBody, ioDispatchBody, if_neg (by simpa using hio)]
  rfl

end Sys2Proof.Machine
end

section
/-! PROOFS. The Bus Arbiter (spec/40_bus_arbiter.md R80 to R82): how the wait of ACQUIRE ends, what ACQUIRE and RELEASE
leave, and the statements about both. -/

namespace Sys2Proof.Machine

/-! ### Moves of the environment, operation by operation -/

theorem Stirred.trans {s t u : State} {a b : Nat} (h₁ : Stirred s t a) (h₂ : Stirred t u b)
    (hfree : isFree t = isFree s) : Stirred s u (a + b) := by
  obtain ⟨n₁, hworld₁, hn₁⟩ := h₁
  obtain ⟨n₂, hworld₂, hn₂⟩ := h₂
  exact ⟨n₁ + n₂, by rw [hworld₂, hworld₁, World.moves_add], fun h => by rw [hn₁ h, hn₂ (hfree.trans h)]⟩

theorem Stirred.of_moves_eq {s t : State} {a b : Nat} (h : Stirred s t a) (hab : a = b) : Stirred s t b := hab ▸ h

theorem stirred_drive (l : OutLine) (v : Bool) (s : State) :
    Stirred s (drive l v s) (outReg s.block l != v).toNat :=
  ⟨_, drive_world l v s, stirs_of_clocked _ s⟩

theorem stirred_setDir_input (g : LineGroup) (s : State) :
    Stirred s (setDir g .input s) (decide (dirReg s.block g = .output)).toNat := by
  have hturn : (!decide (dirReg s.block g = .input)) = decide (dirReg s.block g = .output) := by
    cases dirReg s.block g <;> rfl
  exact ⟨_, setDir_world g .input s, fun hfree => by rw [hturn, stirs_of_clocked _ s hfree]⟩

theorem stirred_setDir_output (g : LineGroup) (s : State) :
    Stirred s (setDir g .output s) (decide (dirReg s.block g = .input)).toNat := by
  have hturn : (!decide (dirReg s.block g = .output)) = decide (dirReg s.block g = .input) := by
    cases dirReg s.block g <;> rfl
  exact ⟨_, setDir_world g .output s, fun hfree => by rw [hturn, stirs_of_clocked _ s hfree]⟩

theorem stirred_clockEdges (n : Nat) (s : State) : Stirred s (clockEdges n s) n :=
  ⟨n, clockEdges_world n s, fun _ => rfl⟩

theorem stirred_acquireRequest (s : State) : Stirred s (acquireRequest s) (acquireRequestMoves s) :=
  ⟨_, acquireRequest_world s, fun _ => rfl⟩

/-! ### The wait for `busack` -/

/-- The test of ACQUIRE's wait sees the environment's lines after as many moves as toggles (R80, R92). -/
theorem busackAsserted_clockEdges (j : Nat) (s : State) :
    busackAsserted (clockEdges j s) = (linesAfter s j).busack :=
  congrArg (fun w : World => w.lines.busack) (clockEdges_world j s)

theorem linesAfter_acquireRequest (s : State) (j : Nat) :
    linesAfter (acquireRequest s) j = linesAfter s (acquireRequestMoves s + j) := by
  rw [linesAfter, linesAfter, acquireRequest_world, World.moves_add]

/-- A wait answered within its own pass (R92). -/
theorem awaitLine_answered (cond : State → Bool) (bound : BitVec 16) (k : Nat) (s : State)
    (hwithin : WithinWait bound s k) (hnot : ∀ j, j < k → cond (clockEdges j s) = false)
    (hcond : cond (clockEdges k s) = true) : awaitLine cond bound 0 s = (.done k, clockEdges k s) := by
  have hfuel : k ≤ waitFuel bound s := by
    rcases hwithin with ⟨hb, hk⟩ | ⟨hb, hk⟩
    · rwa [waitFuel, if_pos hb]
    · rwa [waitFuel, if_neg hb]
  have hbound : bound = 0 ∨ 0 + k ≤ bound.toNat := hwithin.imp And.left fun h => by simpa using h.2
  rw [awaitLine, waitLoop_done cond bound _ 0 k s hfuel hbound hnot hcond, Nat.zero_add]

/-- A bounded wait that is not answered (R92). -/
theorem awaitLine_timedOut (cond : State → Bool) (bound : BitVec 16) (s : State) (hb : bound ≠ 0)
    (hnot : ∀ j, j ≤ bound.toNat → cond (clockEdges j s) = false) :
    awaitLine cond bound 0 s = (.timeout bound.toNat, clockEdges bound.toNat s) := by
  rw [awaitLine, waitFuel, if_neg hb, waitLoop_timeout cond bound s hb hnot]

/-! ### ACQUIRE granted -/

/-- The state in which ACQUIRE, begun at `s`, comes back granted after `k` toggles. -/
def acquired (s : State) (k : Nat) : State := acquireGranted k (clockEdges k (acquireRequest s))

theorem acquired_block (s : State) (k : Nat) :
    (acquired s k).block =
      { s.block with
        busrqOut := true
        ioackOut := false
        clkOut := levelAfter s k
        clockMode := modeAfter s k
        ctrlDir := .output
        addrDir := .output
        dataDir := .input
        ownership := .supervisorOwned } := by
  rw [acquired, acquireGranted_block, clockEdges_block]
  rfl

theorem acquired_stirred (s : State) (k : Nat) :
    Stirred s (acquired s k)
      (acquireRequestMoves s + k + (decide (s.block.ctrlDir = .input)).toNat
        + (decide (s.block.addrDir = .input)).toNat + (decide (s.block.dataDir = .output)).toNat) := by
  have hwait := (stirred_acquireRequest s).trans (stirred_clockEdges k _) rfl
  have hctrl := hwait.trans (stirred_setDir_output .ctrl _) (by simp)
  have haddr := hctrl.trans (stirred_setDir_output .addr _) (by simp)
  have hdata := haddr.trans (stirred_setDir_input .data _) (by simp)
  exact hdata.of_moves_eq (by simp [dirReg, setDirReg, clockEdges_block])

theorem acquired_sameOutside (s : State) (k : Nat) : SameOutside s (acquired s k) := by
  refine ⟨?_, ?_, ?_⟩ <;> simp [acquired, acquireGranted]

/-- Settles O17: the wait is answered at its `k`-th test, and the command takes the bus over. -/
theorem acquireGrantedTakesTheBus : Obligations.AcquireGrantedTakesTheBus := by
  intro bound s k hlive ⟨hgrant, hnot⟩ hwithin
  have hwait : awaitLine busackAsserted bound 0 (acquireRequest s) = (.done k, clockEdges k (acquireRequest s)) := by
    refine awaitLine_answered _ bound k _ (by rw [WithinWait, acquireRequest_world]; exact hwithin) (fun j hj => ?_) ?_
    · rw [busackAsserted_clockEdges, linesAfter_acquireRequest, hnot j hj]
    · rw [busackAsserted_clockEdges, linesAfter_acquireRequest, hgrant]
  exact ⟨acquired s k, (exec_live _ s hlive).trans (congrArg (fun p => Host.Outcome.next (acquireFinish p)) hwait),
    acquired_block s k, rfl, acquired_stirred s k, acquired_sameOutside s k⟩

/-! ### ACQUIRE refused its grant -/

/-- Settles O18: no test up to the bound succeeds, and the fault is raised. -/
theorem acquireTimesOutAtItsBound : Obligations.AcquireTimesOutAtItsBound := by
  intro bound s hlive hb hnot
  have hwait := awaitLine_timedOut busackAsserted bound (acquireRequest s) hb fun j hj => by
    rw [busackAsserted_clockEdges, linesAfter_acquireRequest, hnot j hj]
  refine ⟨_, (exec_live _ s hlive).trans (congrArg (fun p => Host.Outcome.next (acquireFinish p)) hwait), ?_, ?_, ?_,
    ⟨?_, ?_, ?_⟩, fun i => refusedWith_of_faulted i _ ?_⟩
  · exact congrArg (fun b : Block => { b with faultCode := 1 }) (clockEdges_block _ _)
  · exact congrArg (fun k => some ({ code := 1, toggles := some k } : Result)) (togglesField_toNat bound)
  · exact (clockEdges_world _ _).trans (by rw [acquireRequest_world, World.moves_add])
  · simp [acquireFinish, raise]
  · simp [acquireFinish, raise]
  · simp [acquireFinish, raise]
  · exact nofun

/-- A wait without a bound that `busack` outlasts goes on (R82; log 3). -/
theorem acquireFinish_unanswered (k : Nat) (s : State)
    (hnot : ∀ j, j ≤ waitToggles s → (linesAfter s j).busack = false) :
    acquireFinish (awaitLine busackAsserted 0 k s) = stillWaiting s .acquire k := by
  rw [awaitLine_unanswered busackAsserted k s fun j hj => by rw [busackAsserted_clockEdges, hnot j hj]]
  exact suspend_clockEdges s .acquire k

/-- Settles O19: a pass of the wait uses up its toggles and is suspended, the first as well as each later one. -/
theorem unansweredAcquireDoesNotReturn : Obligations.UnansweredAcquireDoesNotReturn := by
  refine ⟨fun s hlive => ?_, fun s k hw hnot => ?_⟩
  · intro asked hnot
    have hasked : acquireRequest s = asked :=
      congrArg (fun w => { s with block := { s.block with busrqOut := true, ioackOut := false }, world := w })
        (acquireRequest_world s)
    refine (exec_live _ s hlive).trans (congrArg _ ?_)
    rw [← acquireFinish_unanswered 0 asked hnot, ← hasked]
    rfl
  · rw [step_waiting s _ hw]
    exact congrArg _ (acquireFinish_unanswered k s.unsuspend hnot)

/-! ### ACQUIRE granted in the end -/

/-- A wait without a bound is answered in its own pass or by some number of further steps, and in the same state up to
the result, which is overwritten (premise P2 of R28). -/
theorem acquireFinish_resumes (m k : Nat) (s : State) (hw : s.waiting = none)
    (hgrant : (linesAfter s m).busack = true) (hnot : ∀ j, j < m → (linesAfter s j).busack = false) :
    ∃ n, Resumes n (acquireFinish (awaitLine busackAsserted 0 k s)) (acquireGranted (k + m) (clockEdges m s)) := by
  induction m using Nat.strong_induction_on generalizing k s with
  | _ m ih =>
    rcases Nat.lt_or_ge (waitToggles s) m with hlate | hsoon
    · obtain ⟨d, rfl⟩ := Nat.exists_eq_add_of_le (Nat.le_of_lt hlate)
      have hpos : 0 < waitToggles s := Nat.lt_of_lt_of_le Nat.zero_lt_one (Nat.le_max_left _ _)
      have hstill := awaitLine_unanswered busackAsserted k s fun j hj => by
        rw [busackAsserted_clockEdges, hnot j (Nat.lt_of_le_of_lt hj hlate)]
      rw [hstill]
      generalize waitToggles s = w at hgrant hnot hpos ih
      have hlines (j : Nat) : linesAfter ((clockEdges w s).suspend ⟨.acquire, k + w⟩).unsuspend j =
          linesAfter s (w + j) := by
        rw [linesAfter, linesAfter, State.unsuspend_world, State.suspend_world, clockEdges_world, World.moves_add]
      obtain ⟨n, hn⟩ := ih d (by omega) (k + w) ((clockEdges w s).suspend ⟨.acquire, k + w⟩).unsuspend rfl
        (by rw [hlines, hgrant]) fun j hj => by rw [hlines, hnot _ (Nat.add_lt_add_left hj w)]
      rw [clockEdges_unsuspend_suspend w d s _ hw, Nat.add_assoc] at hn
      exact ⟨n + 1, nofun, _, step_waiting _ _ rfl, hn⟩
    · have hdone : awaitLine busackAsserted 0 k s = (.done (k + m), clockEdges m s) :=
        waitLoop_done _ _ _ _ _ _ hsoon (.inl rfl)
          (fun j hj => by rw [busackAsserted_clockEdges, hnot j hj]) (by rw [busackAsserted_clockEdges, hgrant])
      exact ⟨0, by rw [hdone]; rfl⟩

/-- The steps of a wait are steps of a run. -/
theorem reaches_of_resumes {n : Nat} {s t : State} (h : Resumes n s t) : Reaches s n t := by
  induction n generalizing s with
  | zero => exact congrArg _ h
  | succ n ih =>
    obtain ⟨-, u, hu, hrest⟩ := h
    exact (reaches_succ hu).2 (ih hrest)

/-- Settles O20: the word is taken, the command makes its request, and its wait is answered in the end. -/
theorem acquireIsGrantedInTheEnd : Obligations.AcquireIsGrantedInTheEnd := by
  intro s rest k hlive hw hi ⟨hgrant, hnot⟩
  have hstep := stepRunsTheDecodedCommand s _ rest (.acquire 0) hw hi (encodedCommandDecodesToItself _ rfl)
  generalize htaken : { s with inputs := rest, world := World.moves (stirs false s) s.world } = u at hstep
  have hmoves : acquireRequestMoves u = acquireRequestMoves s := by rw [← htaken]; rfl
  have hlines (j : Nat) : linesAfter (acquireRequest u) j =
      linesAfter { s with world := World.moves (stirs false s) s.world } (acquireRequestMoves s + j) := by
    rw [linesAfter_acquireRequest, hmoves, ← htaken]
    rfl
  obtain ⟨n, hn⟩ := acquireFinish_resumes k 0 (acquireRequest u) (by rw [← htaken]; exact hw)
    (by rw [hlines]; exact hgrant) fun j hj => by rw [hlines]; exact hnot j hj
  rw [Nat.zero_add] at hn
  have hstirred : Stirred s u 0 := by
    rw [← htaken]
    exact ⟨_, rfl, stirs_of_clocked false s⟩
  refine ⟨n + 1, acquired u k,
    (reaches_succ (hstep.trans (exec_live _ u (by rw [← htaken]; exact hlive)))).2 (reaches_of_resumes hn), ?_⟩
  obtain ⟨hinputs, hwaiting, hreply⟩ := acquired_sameOutside u k
  rw [hinputs, hwaiting, hreply, acquired_block]
  have hall := hstirred.trans (acquired_stirred u k) (by rw [← htaken]; rfl)
  rw [Nat.zero_add, hmoves] at hall
  subst htaken
  exact ⟨hw, rfl, rfl, rfl, rfl, hall⟩

/-! ### RELEASE -/

/-- Settles O21: the moves are those of the four lines and directions, one after the other. -/
theorem releaseGivesTheBusBack : Obligations.ReleaseGivesTheBusBack := by
  intro s hlive
  have hctrl := stirred_setDir_input .ctrl s
  have haddr := hctrl.trans (stirred_setDir_input .addr _) (by simp)
  have hdata := haddr.trans (stirred_setDir_input .data _) (by simp)
  have hbusrq := hdata.trans (stirred_drive .busrq false _) (by simp)
  refine ⟨_, exec_live _ s hlive, rfl, rfl, ?_, rfl, rfl, rfl⟩
  exact hbusrq.of_moves_eq (by rw [Bool.bne_false]; rfl)

end Sys2Proof.Machine
end

section
/-! PROOFS. What a tick that came back complete has done (spec/45_tick_engine.md R140 to R147), in its own step or after
its wait, and the statements about such ticks. -/

namespace Sys2Proof.Machine

/-! ### A dispatch that came back complete -/

/-- A command that left the wait in progress alone came back in its own step. -/
theorem eq_of_resumes {n : Nat} {s u t : State} (hidle : n ≠ 0 → s.waiting = none) (h : Resumes n u t)
    (hw : u.waiting = s.waiting) : u = t := by
  cases n with
  | zero => exact h
  | succ n => exact absurd (hw.trans (hidle n.succ_ne_zero)) h.1

/-- A dispatch gives its complete result only where `iorq` has ended its wait, in the command's own step or in a later
one (R92, R155). -/
theorem dispatch_returned (job : WaitJob) (report : Nat → State → State)
    (hres : ∀ k s, resumeWait ⟨job, k⟩ s = ioFinish job report (awaitLine iorqGone 0 k s.unsuspend))
    (hrep : Reports report) (hover : ∀ k s r, report k (ioClose { s with result := r }) = report k (ioClose s))
    (st : Status) (bound : BitVec 16) (n : Nat) (s t : State) (r : Result) (hidle : n ≠ 0 → s.waiting = none)
    (h : Resumes n (ioFinish job report (awaitLine iorqGone bound 0 (ioOpen st s))) t) (hr : t.result = some r)
    (hcode : r.code = 0) : ∃ k, t = report k (dispatched st s k) := by
  obtain ⟨m, ha | ⟨-, ha⟩ | ⟨-, ha⟩⟩ := awaitLine_cases iorqGone bound 0 (ioOpen st s) (.inr rfl) <;>
    rw [ha] at h
  · have h : Resumes n (report (0 + m) (dispatched st s m)) t := h
    rw [Nat.zero_add] at h
    exact ⟨m, (eq_of_resumes hidle h ((hrep.waiting m _).trans (dispatched_waiting st s m))).symm⟩
  · have h : Resumes n (raise .ioAckTimeout bound.toNat (clockEdges m (ioOpen st s))) t := h
    obtain rfl := eq_of_resumes hidle h ((clockEdges_waiting m _).trans (ioOpen_waiting st s))
    rw [← Option.some.inj hr] at hcode
    exact nomatch hcode
  · have h : Resumes n ((clockEdges m (ioOpen st s)).suspend ⟨job, 0 + m⟩) t := h
    rcases resumes_ioFinish job report hres hrep.waiting n (0 + m) _ t rfl rfl h with ⟨m', -, ht⟩ | ⟨m', -, ht⟩
    · have hlater : n ≠ 0 := by
        rintro rfl
        obtain rfl : _ = t := h
        exact nomatch hr
      rw [clockEdges_unsuspend_suspend m m' _ _ ((ioOpen_waiting st s).trans (hidle hlater)), hover, Nat.zero_add] at ht
      exact ⟨m + m', ht⟩
    · rw [ht] at hr
      exact nomatch hr

/-! ### A tick that came back complete -/

/-- The snapshot of a tick that begins at `s` (R140, R142). -/
abbrev tickSnapshot (s : State) : Status := sample (atSample s)

/-- The report of a tick that began at `s`, made over the state `v` (R144). -/
abbrev reportTick (s : State) (d : Bool) (k : Nat) (v : State) : State :=
  tickReport (tickSnapshot s) (tickEvents s) (tickVerdict s) d k v

/-- What TICK answers in its own step: a refusal, its report outside an I/O cycle, or a pass of its dispatch (R97, R140,
R178). -/
theorem exec_tick_cases {bound : BitVec 16} {s u : State} (h : exec (.tick bound) s = .next u) :
    (∃ c, u = refuse c s) ∨
    (kindOf (tickSnapshot s) ≠ .io ∧ u = reportTick s false 0 (classified s)) ∨
    (kindOf (tickSnapshot s) = .io ∧
      u = tickFinish (tickSnapshot s) (tickEvents s) (tickVerdict s)
        (awaitLine iorqGone bound 0 (ioOpen (tickSnapshot s) (classified s)))) := by
  rcases exec_cases h with ⟨-, rfl⟩ | ⟨-, rfl⟩
  · rcases unlessFree_cases (tickBody bound) s with ⟨-, h⟩ | ⟨hfree, h⟩ <;> rw [commandBody, h]
    · exact .inl ⟨_, rfl⟩
    · rw [tickBody_eq bound s hfree]
      by_cases hio : kindOf (tickSnapshot s) = .io
      · exact .inr (.inr ⟨hio, if_pos hio⟩)
      · exact .inr (.inl ⟨hio, if_neg hio⟩)
  · exact .inl ⟨_, rfl⟩

/-- A complete tick is its report, at once or over its dispatch (R140, R144). -/
theorem tickReturns_cases {bound : BitVec 16} {s t : State} {r : Result} (h : TickReturns bound s t r) :
    (kindOf (tickSnapshot s) ≠ .io ∧ t = reportTick s false 0 (classified s)) ∨
    (kindOf (tickSnapshot s) = .io ∧
      ∃ k, t = reportTick s true k (dispatched (tickSnapshot s) (classified s) k)) := by
  obtain ⟨n, u, hu, hresumes, hidle, hr, hcode⟩ := h
  rcases exec_tick_cases hu with ⟨c, rfl⟩ | ⟨hkind, rfl⟩ | ⟨hkind, rfl⟩
  · obtain rfl := eq_of_resumes hidle hresumes rfl
    rw [← Option.some.inj hr] at hcode
    cases c <;> exact nomatch hcode
  · exact .inl ⟨hkind, (eq_of_resumes hidle hresumes rfl).symm⟩
  · exact .inr ⟨hkind, dispatch_returned _ (tickReport _ _ _ true) (fun _ _ => rfl) (reports_tickReport _ _ _ _)
      (fun _ _ _ => rfl) _ bound n (classified s) t r hidle hresumes hr hcode⟩

/-- The result of a tick's report, over any state that still has the range registers of the tick's beginning (R144). -/
theorem reportTick_result (s v : State) (d : Bool) (k : Nat) (hlog : v.block.logRanges = s.block.logRanges)
    (hbrk : v.block.brkRanges = s.block.brkRanges) :
    (reportTick s d k v).result = some (tickResult s (tickSnapshot s) d k) := by
  simp only [reportTick, tickReport, State.answer_result, tickResult, hlog, hbrk, anyHit_eq]
  rfl

/-- All that a complete tick has done: its result, and its writes of the block beside the clock level, the data lines
and the acknowledge, which only a dispatch has written (R140, R144). -/
structure TickDone (s t : State) (r : Result) (d : Bool) (k : Nat) : Prop where
  result : r = tickResult s (tickSnapshot s) d k
  dispatched : d = true ↔ kindOf (tickSnapshot s) = .io
  block : t.block =
    { afterClassify s (tickSnapshot s) with
      clkOut := t.block.clkOut, dataOut := t.block.dataOut, dataDir := t.block.dataDir, ioackOut := t.block.ioackOut }

theorem tickReturns_done {bound : BitVec 16} {s t : State} {r : Result} (h : TickReturns bound s t r) :
    ∃ d k, TickDone s t r d k := by
  obtain ⟨-, -, -, -, -, hr, -⟩ := id h
  rcases tickReturns_cases h with ⟨hkind, rfl⟩ | ⟨hkind, k, rfl⟩
  · exact ⟨false, 0, Option.some.inj (hr.symm.trans (reportTick_result s _ false 0 rfl rfl)),
      ⟨nofun, fun h => absurd h hkind⟩, rfl⟩
  · obtain ⟨hblock, hresult, -⟩ := tickReport_dispatched s (tickSnapshot s) k
    refine ⟨true, k, Option.some.inj (hr.symm.trans hresult), ⟨fun _ => hkind, fun _ => rfl⟩, ?_⟩
    have hblock : (reportTick s true k (dispatched (tickSnapshot s) (classified s) k)).block = _ := hblock
    rw [hblock]

section
variable {s t : State} {r : Result} {d : Bool} {k : Nat} (h : TickDone s t r d k)
include h

theorem TickDone.status : r.status = some (packStatus (tickSnapshot s)) := by rw [h.result]; rfl
theorem TickDone.fired : r.fired = some (packCats (tickEvents s)) := by rw [h.result]; rfl
theorem TickDone.newInstr : r.newInstr = some (tickVerdict s) := by rw [h.result]; rfl
theorem TickDone.ioDispatched : r.ioDispatched = some d := by rw [h.result]; rfl
theorem TickDone.logHit :
    r.logHit = some (packCats (logHits s.block.logRanges (tickSnapshot s) (tickEvents s))) := by rw [h.result]; rfl
theorem TickDone.brkHit :
    r.brkHit = some (packCats (brkHits s.block.brkRanges (tickSnapshot s) (tickEvents s))) := by rw [h.result]; rfl

theorem TickDone.lastStatus : t.block.lastStatus = packStatus (tickSnapshot s) := congrArg Block.lastStatus h.block
theorem TickDone.prevRd : t.block.prevRd = (tickSnapshot s).rd := congrArg Block.prevRd h.block
theorem TickDone.prevWr : t.block.prevWr = (tickSnapshot s).wr := congrArg Block.prevWr h.block
theorem TickDone.bdPrev :
    t.block.bdPrev = if (tickEvents s).opfetch then (tickSnapshot s).data else s.block.bdPrev :=
  congrArg Block.bdPrev h.block
theorem TickDone.bdPrev2 : t.block.bdPrev2 = if (tickEvents s).opfetch then s.block.bdPrev else s.block.bdPrev2 :=
  congrArg Block.bdPrev2 h.block

end

/-! ### The packed vectors -/

theorem packCats_bits (f : CatFlags) :
    (packCats f).getLsbD 0 = f.bus ∧ (packCats f).getLsbD 1 = f.memrd ∧ (packCats f).getLsbD 2 = f.memwr ∧
      (packCats f).getLsbD 3 = f.iord ∧ (packCats f).getLsbD 4 = f.iowr ∧ (packCats f).getLsbD 5 = f.opfetch := by
  refine ⟨?_, ?_, ?_, ?_, ?_, ?_⟩ <;> (simp only [packCats, BitVec.getLsbD_append, BitVec.getLsbD_ofBool]; simp)

/-- A vector is 0 exactly if no category has its bit. -/
theorem packCats_ne_zero (f : CatFlags) :
    (packCats f != 0) = (f.bus || f.memrd || f.memwr || f.iord || f.iowr || f.opfetch) := by
  obtain ⟨bus, memrd, memwr, iord, iowr, opfetch⟩ := f
  revert bus memrd memwr iord iowr opfetch
  decide

/-- Category by category, the bits of `f` are among those of `g`. -/
def CatFlags.within (f g : CatFlags) : Prop :=
  (f.bus → g.bus) ∧ (f.memrd → g.memrd) ∧ (f.memwr → g.memwr) ∧ (f.iord → g.iord) ∧ (f.iowr → g.iowr) ∧
    (f.opfetch → g.opfetch)

theorem packCats_and_of_within {f g : CatFlags} (h : f.within g) : packCats f &&& packCats g = packCats f := by
  obtain ⟨hbus, hmemrd, hmemwr, hiord, hiowr, hopfetch⟩ := h
  obtain ⟨f0, f1, f2, f3, f4, f5⟩ := packCats_bits f
  obtain ⟨g0, g1, g2, g3, g4, g5⟩ := packCats_bits g
  apply BitVec.eq_of_getLsbD_eq
  intro j hj
  rw [BitVec.getLsbD_and, Bool.and_eq_left_iff_imp]
  interval_cases j
  · rwa [f0, g0]
  · rwa [f1, g1]
  · rwa [f2, g2]
  · rwa [f3, g3]
  · rwa [f4, g4]
  · rwa [f5, g5]

/-- Only BUS, and BUS always: the events of a tick that sees no new strobe (R105). -/
def busOnly : CatFlags := ⟨true, false, false, false, false, false⟩

theorem packCats_busOnly : packCats busOnly = 0x01 := rfl

/-- A hit is among the categories that fired: the specific ones by their test, BUS because it always fires (R105,
R130). -/
theorem specificHits_within (bank : RangeBank) (st : Status) (f : CatFlags) (bus : Bool) (hbus : f.bus = true) :
    CatFlags.within { specificHits bank st f with bus := bus } f := by
  refine ⟨fun _ => hbus, ?_, ?_, ?_, ?_, ?_⟩ <;> exact fun h => (Bool.and_eq_true_iff.1 h).1

/-- With BUS among the log hits there is no other (R130, R131). -/
theorem logHits_eq_busOnly (bank : RangeBank) (st : Status) (f : CatFlags) (h : (logHits bank st f).bus = true) :
    logHits bank st f = busOnly := by
  have hnone : anySpecific (logHits bank st f) = false := by
    rw [logHits_bus, Bool.and_eq_true, Bool.not_eq_true'] at h
    exact h.1
  generalize logHits bank st f = l at h hnone
  obtain ⟨bus, memrd, memwr, iord, iowr, opfetch⟩ := l
  simpa [anySpecific, busOnly, and_assoc] using And.intro h hnone

/-- An unset range covers no address (R126). -/
theorem bankCovers_unset (a : Addr) (c : Cat) : bankCovers RangeBank.unset a c = false := by
  cases c <;> exact inRange_inverted _ _ (by decide)

/-! ### The statements -/

/-- Settles O35: outside an I/O cycle the tick is its report over the classified state. -/
theorem tickOutsideIoCompletes : Obligations.TickOutsideIoCompletes := by
  intro bound s hlive hfree hkind
  have hbody : tickBody bound s = reportTick s false 0 (classified s) :=
    (tickBody_eq bound s hfree).trans (if_neg hkind)
  calc exec (.tick bound) s
    _ = .next (tickBody bound s) := whenLive_unlessFree_clocked _ s hlive hfree
    _ = .next { reportTick s false 0 (classified s) with result := (reportTick s false 0 (classified s)).result } := by
      rw [hbody]
    _ = _ := by rw [reportTick_result s (classified s) false 0 rfl rfl]; rfl

/-- Settles O37: the clock flag is that of the line which the tick's second edge has left high. -/
theorem tickSamplesWithTheClockHigh : Obligations.TickSamplesWithTheClockHigh := by
  intro bound s t r h
  obtain ⟨d, k, hdone⟩ := tickReturns_done h
  obtain ⟨hclock, -⟩ := packedSnapshotHasItsBits (tickSnapshot s)
  exact ⟨packStatus (tickSnapshot s), hdone.status, hclock, hdone.lastStatus⟩

/-- Settles O33: the strobes of the first snapshot are the previous ones of the second tick, so that neither is new. -/
theorem heldStrobesFireOnlyOnce : Obligations.HeldStrobesFireOnlyOnce := by
  intro b₁ b₂ s₁ t₁ s₂ t₂ r₁ r₂ st₁ st₂ h₁ hst₁ hblock h₂ hst₂ hrd hwr
  obtain ⟨d₁, k₁, hdone₁⟩ := tickReturns_done h₁
  obtain ⟨d₂, k₂, hdone₂⟩ := tickReturns_done h₂
  obtain rfl := Option.some.inj (hdone₁.status.symm.trans hst₁)
  obtain rfl := Option.some.inj (hdone₂.status.symm.trans hst₂)
  obtain ⟨-, -, -, -, -, hrd₁, hwr₁, -⟩ := packedSnapshotHasItsBits (tickSnapshot s₁)
  obtain ⟨-, -, -, -, -, hrd₂, hwr₂, -⟩ := packedSnapshotHasItsBits (tickSnapshot s₂)
  have hprevRd : s₂.block.prevRd = (tickSnapshot s₂).rd := by rw [hblock, hdone₁.prevRd, ← hrd₁, hrd, hrd₂]
  have hprevWr : s₂.block.prevWr = (tickSnapshot s₂).wr := by rw [hblock, hdone₁.prevWr, ← hwr₁, hwr, hwr₂]
  have hevents : tickEvents s₂ = busOnly := by simp [tickEvents, firedBy, hprevRd, hprevWr, busOnly]
  rw [hdone₂.fired, hevents, packCats_busOnly]

/-- Settles O34: a memory cycle and an idle one are no I/O cycle, and the events follow the kind. -/
theorem tickKindsExcludeEachOther : Obligations.TickKindsExcludeEachOther := by
  intro bound s t r st h hst
  obtain ⟨d, k, hdone⟩ := tickReturns_done h
  obtain rfl := Option.some.inj (hdone.status.symm.trans hst)
  obtain ⟨-, -, hmreq, hiorq, -⟩ := packedSnapshotHasItsBits (tickSnapshot s)
  have hnot (hkind : kindOf (tickSnapshot s) ≠ .io) : r.ioDispatched = some false := by
    rw [hdone.ioDispatched, Bool.eq_false_iff.2 fun hd => hkind (hdone.dispatched.1 hd)]
  rw [hmreq, hiorq, hdone.fired]
  refine ⟨fun hm => hnot ?_, fun hm hi => ⟨_, rfl, ?_⟩, fun hm hi => ⟨?_, hnot ?_⟩⟩
  · simp [kindOf, hm]
  · obtain ⟨-, hmemrd, hmemwr, -, -, hopfetch⟩ := packCats_bits (tickEvents s)
    rw [hmemrd, hmemwr, hopfetch]
    simp [tickEvents, firedBy, kindOf, hm, hi]
  · have hevents : tickEvents s = busOnly := by simp [tickEvents, firedBy, kindOf, hm, hi, busOnly]
    rw [hevents, packCats_busOnly]
  · simp [kindOf, hm, hi]

/-- Settles O41: ClassifyCycle shifts the detector's bytes under the event OPFETCH alone. -/
theorem tickFeedsTheDetectorOnFetches : Obligations.TickFeedsTheDetectorOnFetches := by
  intro bound s t r st f h hst hf
  obtain ⟨d, k, hdone⟩ := tickReturns_done h
  obtain rfl := Option.some.inj (hdone.status.symm.trans hst)
  obtain rfl := Option.some.inj (hdone.fired.symm.trans hf)
  obtain ⟨-, -, -, -, -, hopfetch⟩ := packCats_bits (tickEvents s)
  rw [hopfetch, hdone.bdPrev, hdone.bdPrev2, hdone.newInstr, packStatus_data]
  exact ⟨fun h => ⟨if_pos h, if_pos h⟩, fun h => by simp [h, tickVerdict]⟩

/-- Settles O46: the two flags are of the vectors, and a hit is a test of an event. -/
theorem tickReportsItsHits : Obligations.TickReportsItsHits := by
  intro bound s t r h
  obtain ⟨d, k, hdone⟩ := tickReturns_done h
  obtain ⟨hbus, -⟩ := packCats_bits (logHits s.block.logRanges (tickSnapshot s) (tickEvents s))
  refine ⟨_, _, _, hdone.fired, hdone.logHit, hdone.brkHit, ?_, ?_,
    packCats_and_of_within (specificHits_within _ _ _ _ rfl), packCats_and_of_within (specificHits_within _ _ _ _ rfl),
    fun h => ?_⟩
  · rw [packCats_ne_zero, hdone.result]
    rfl
  · rw [packCats_ne_zero, hdone.result]
    rfl
  · rw [logHits_eq_busOnly _ _ _ (hbus.symm.trans h), packCats_busOnly]

/-- No category. -/
def noCats : CatFlags := ⟨false, false, false, false, false, false⟩

theorem hits_unset (st : Status) (f : CatFlags) :
    logHits RangeBank.unset st f = noCats ∧ brkHits RangeBank.unset st f = noCats := by
  constructor <;> simp [logHits, brkHits, specificHits, bankCovers_unset, noCats]

/-- Settles O47: no test of the comparator tree succeeds. -/
theorem unsetRangesNeverHit : Obligations.UnsetRangesNeverHit := by
  intro bound s t r hlog hbrk h
  obtain ⟨d, k, hdone⟩ := tickReturns_done h
  obtain ⟨hlogHits, hbrkHits⟩ := hits_unset (tickSnapshot s) (tickEvents s)
  obtain ⟨f, l, b, -, hl, hb, hemit, hbreak, -⟩ := tickReportsItsHits bound s t r h
  have hl0 : some 0 = some l := by rw [← hl, hdone.logHit, hlog, hlogHits]; rfl
  have hb0 : some 0 = some b := by rw [← hb, hdone.brkHit, hbrk, hbrkHits]; rfl
  obtain rfl := Option.some.inj hl0
  obtain rfl := Option.some.inj hb0
  exact ⟨hl, hb, hemit, hbreak⟩

end Sys2Proof.Machine
end

section
/-! PROOFS. A dispatch wait that times out (spec/46_surrounding_interfaces.md R158), and what a complete IO_DISPATCH has
read from its port and stored in it (R155, R156). -/

namespace Sys2Proof.Machine

/-! ### The dispatch wait at its bound -/

/-- The state in which a dispatch that was opened at `s` has timed out (R158). -/
def dispatchTimedOut (st : Status) (bound : BitVec 16) (s : State) : State :=
  raise .ioAckTimeout bound.toNat (clockEdges bound.toNat (ioOpen st s))

theorem ioFinish_timedOut (job : WaitJob) (report : Nat → State → State) (st : Status) (bound : BitVec 16) (s : State)
    (hb : bound ≠ 0) (hheld : ∀ j, j ≤ bound.toNat → line (clockEdges j (ioOpen st s)) .iorq = true) :
    ioFinish job report (awaitLine iorqGone bound 0 (ioOpen st s)) = dispatchTimedOut st bound s := by
  rw [awaitLine_timedOut iorqGone bound _ hb fun j hj => by rw [iorqGone, hheld j hj]; rfl]
  rfl

/-- Every line stays where it stands; the fault and the toggles are recorded (R158). -/
theorem dispatchTimedOut_block (st : Status) (bound : BitVec 16) (s : State) :
    (dispatchTimedOut st bound s).block =
      { s.block with
        clkOut := levelAfter s bound.toNat
        clockMode := modeAfter s bound.toNat
        dataOut := if st.rd then dispatchByte s st else s.block.dataOut
        dataDir := if st.rd then .output else s.block.dataDir
        ioackOut := true
        faultCode := 2 } := by
  rw [dispatchTimedOut, raise_block, clockEdges_block, levelAfter, modeAfter, isFree_ioOpen, ioOpen_block_eq]
  rfl

theorem dispatchTimedOut_result (st : Status) (bound : BitVec 16) (s : State) :
    (dispatchTimedOut st bound s).result = some { code := 2, toggles := some bound } := by
  rw [dispatchTimedOut, raise, State.answer_result, togglesField_toNat]
  rfl

theorem dispatchTimedOut_sameOutside (st : Status) (bound : BitVec 16) (s : State) :
    SameOutside s (dispatchTimedOut st bound s) := by
  refine ⟨?_, ?_, ?_⟩ <;> simp [dispatchTimedOut, raise]

theorem dispatchTimedOut_refuses (st : Status) (bound : BitVec 16) (s : State) (i : Instr) :
    RefusedWith i (dispatchTimedOut st bound s) 4 := by
  refine refusedWith_of_faulted i _ ?_
  rw [Live, dispatchTimedOut_block]
  exact (by decide : ¬(2 : BitVec 4) = 0)

/-- Settles O50: for either command, the wait of its dispatch reaches its bound. -/
theorem dispatchTimeoutLeavesTheLines : Obligations.DispatchTimeoutLeavesTheLines := by
  intro bound s hlive hb
  refine ⟨?_, fun hfree => ?_⟩
  · intro st s₁ hiorq hmreq hheld
    refine ⟨dispatchTimedOut st bound s₁, ?_, dispatchTimedOut_block st bound s₁, dispatchTimedOut_result st bound s₁,
      openedWorld_clockEdges st s₁ bound.toNat, dispatchTimedOut_sameOutside st bound s₁,
      dispatchTimedOut_refuses st bound s₁⟩
    exact (exec_ioDispatch_io bound s hlive hiorq hmreq).trans (congrArg _ (ioFinish_timedOut _ _ st bound s₁ hb hheld))
  · intro st s₁ hio hheld
    refine ⟨dispatchTimedOut st bound s₁, ?_, (dispatchTimedOut_block st bound s₁).trans ?_,
      dispatchTimedOut_result st bound s₁, openedWorld_clockEdges st s₁ bound.toNat,
      dispatchTimedOut_sameOutside st bound s₁, dispatchTimedOut_refuses st bound s₁⟩
    · exact (exec_tick_io bound s hlive hfree hio).trans (congrArg _ (ioFinish_timedOut _ _ st bound s₁ hb hheld))
    · have hmode : modeAfter s₁ bound.toNat = .singleStep := by exact ite_self _
      rw [hmode]
      rfl

/-! ### The ports of a dispatch -/

/-- A read returns the input register of the one handler of its port (R156, log 11). -/
theorem portRead_of_unique (ports : List PortReg) (p : PortReg) (hp : p ∈ ports)
    (hone : ∀ q ∈ ports, q.num = p.num → q = p) : portRead ports p.num = p.inReg := by
  induction ports with
  | nil => exact nomatch hp
  | cons q rest ih =>
    rw [portRead]
    split
    · rename_i hnum
      rw [hone q List.mem_cons_self hnum]
    · rename_i hnum
      have hrest : p ∈ rest := (List.mem_cons.1 hp).resolve_left fun h => hnum (h ▸ rfl)
      exact ih hrest fun q' hq' => hone q' (List.mem_cons_of_mem q hq')

/-- A write reaches every handler of its port, and no other (R156). -/
theorem portWrite_eq_map (ports : List PortReg) (a v : Byte) :
    portWrite ports a v = ports.map fun p => if p.num = a then { p with outReg := v } else p := by
  induction ports with
  | nil => rfl
  | cons p rest ih => rw [portWrite, ih, List.map_cons]

/-- The output registers, each with its port number. -/
def outputs (ports : List PortReg) : List (Byte × Byte) := ports.map fun p => (p.num, p.outReg)

/-- The peripherals' side writes input registers only (R157). -/
theorem outputs_portReceive (ports : List PortReg) (a v : Byte) : outputs (portReceive ports a v) = outputs ports := by
  induction ports with
  | nil => rfl
  | cons p rest ih =>
    rw [portReceive, outputs, List.map_cons, ← outputs, ih]
    split <;> rfl

theorem outputs_portsReceive (ports : List PortReg) (ws : List (Byte × Byte)) :
    outputs (portsReceive ports ws) = outputs ports := by
  induction ws generalizing ports with
  | nil => rfl
  | cons w ws ih => exact (ih _).trans (outputs_portReceive ports w.1 w.2)

/-- The environment's moves write no output register (R26). -/
theorem outputs_moves (n : Nat) (w : World) : outputs (World.moves n w).ports = outputs w.ports := by
  induction n generalizing w with
  | zero => rfl
  | succ n ih =>
    have hmove : outputs w.move.ports = outputs w.ports := by
      rw [World.move]
      split <;> exact outputs_portsReceive _ _
    exact (ih w.move).trans hmove

/-- The handler stores the snapshot's byte in the output register of its port, in a write (R155, R156). -/
theorem handled_ports (st : Status) (w : World) :
    (handled st w).ports = w.ports.map fun p =>
      { p with outReg := if st.rd = false ∧ st.wr = true ∧ p.num = portOf st.addr then st.data else p.outReg } := by
  cases hrd : st.rd with
  | true => simp [handled, hrd]
  | false =>
    cases hwr : st.wr with
    | false => simp [handled, hrd, hwr]
    | true =>
      simp only [handled, hrd, hwr, Bool.false_eq_true, if_false, if_true, portWrite_eq_map, true_and]
      refine List.map_congr_left fun p _ => ?_
      split <;> rfl

/-- A complete IO_DISPATCH was carried out, and its dispatch answered (R155). -/
theorem ioDispatchReturns_cases {bound : BitVec 16} {s t : State} {r : Result} (h : Returns (.ioDispatch bound) s t r) :
    ∃ k, t = ioReport (sample s) k
      (dispatched (sample s) (s.setBlock { s.block with lastStatus := packStatus (sample s) }) k) := by
  obtain ⟨n, u, hu, hresumes, hidle, hr, hcode⟩ := h
  have hrefused (c : Reason) {s₁ : State} (hc : u = refuse c s₁) (hw : s₁.waiting = s.waiting) : False := by
    subst hc
    obtain rfl := eq_of_resumes hidle hresumes hw
    rw [← Option.some.inj hr] at hcode
    cases c <;> exact nomatch hcode
  rcases exec_cases hu with ⟨hlive, rfl⟩ | ⟨-, rfl⟩
  · by_cases hio : ((sample s).iorq && !(sample s).mreq) = true
    · have hbody : commandBody (.ioDispatch bound) s = _ := if_pos hio
      rw [hbody] at hresumes
      exact dispatch_returned _ (ioReport _) (fun _ _ => rfl) (reports_ioReport _) (fun _ _ _ => rfl) _ bound n
        (s.setBlock _) t r hidle hresumes hr hcode
    · have hbody : commandBody (.ioDispatch bound) s = _ := if_neg hio
      exact (hrefused _ hbody rfl).elim
  · exact (hrefused _ rfl rfl).elim

/-- Settles O51: the handler ran on the ports as they stood, and the environment's moves write no output register. -/
theorem portsReadAndStoreExactly : Obligations.PortsReadAndStoreExactly := by
  intro bound s t r hfree h st port
  obtain ⟨k, rfl⟩ := ioDispatchReturns_cases h
  obtain ⟨hblock, -, ⟨n, m, hworld, hn, -⟩, -⟩ := ioReport_dispatched st s k
  have hport : portOf st.addr = port := portOf_eq_setWidth st.addr
  refine ⟨fun hrd => ?_, fun q hq => ?_⟩
  · have hread : (ioReport st k (dispatched st (s.setBlock { s.block with lastStatus := packStatus st })
        k)).block.dataOut = portRead s.world.ports port := by
      rw [hblock, ← hport]
      exact (if_pos hrd).trans (by rw [dispatchByte, stirs_of_clocked false s hfree]; rfl)
    rw [hread]
    refine ⟨fun p hp hone hnum => ?_, portRead_unmapped _ _⟩
    rw [← hnum]
    exact portRead_of_unique _ p hp hone
  · have hmem : (q.num, q.outReg) ∈ outputs (handled st s.world).ports := by
      rw [hn hfree] at hworld
      rw [← outputs_moves m, ← World.moves_zero s.world, ← hworld]
      exact List.mem_map_of_mem hq
    rw [handled_ports, hport] at hmem
    simp only [outputs, List.map_map, List.mem_map, Function.comp, Prod.mk.injEq] at hmem
    obtain ⟨p, hp, hnum, hout⟩ := hmem
    exact ⟨p, hp, hnum.symm, hout.symm⟩

end Sys2Proof.Machine
end

section
/-! PROOFS. The pseudo-instructions CPU_RESET and TRACE (spec/46_surrounding_interfaces.md R162, R163,
spec/70_reset_and_hazards.md R196): the acts of the sequence one by one, and the statements about both. -/

namespace Sys2Proof.Machine

/-! ### A run of acts -/

theorem reaches_trans {m n : Nat} {s u t : State} (h₁ : Reaches s m u) (h₂ : Reaches u n t) : Reaches s (m + n) t := by
  induction m generalizing s with
  | zero =>
    obtain rfl := Host.Outcome.next.inj h₁
    rwa [Nat.zero_add]
  | succ m ih =>
    obtain ⟨v, hv⟩ := step_next s
    rw [Nat.succ_add]
    exact (reaches_succ hv).2 (ih ((reaches_succ hv).1 h₁))

/-- Between commands, with the block's registers as in `b` and these acts to come. -/
structure Ready (s : State) (b : Block) (acts : List Input) : Prop where
  waiting : s.waiting = none
  block : s.block = b
  inputs : s.inputs = acts

/-- Commands make software edges, or none, and are carried out: no fault, no FreeRunning mode. -/
def Willing (b : Block) : Prop := b.faultCode = 0 ∧ b.clockMode ≠ .freeRunning

theorem Ready.isFree {s : State} {b : Block} {acts : List Input} (h : Ready s b acts) (hb : Willing b) :
    isFree s = false := by
  simpa [Machine.isFree, h.block] using hb.2

/-- Outside FreeRunning mode nothing happens while a word is taken: the command runs on the same state (R12, R210). -/
theorem Ready.step_command {s : State} {b : Block} {acts : List Input} {i : Instr}
    (h : Ready s b (sendCommand i :: acts)) (hb : Willing b) (hwf : i.wellFormed = true) :
    step s = .next (commandBody i { s with inputs := acts }) := by
  rw [stepRunsTheDecodedCommand s _ acts i h.waiting h.inputs (encodedCommandDecodesToItself i hwf),
    stirs_of_clocked false s (h.isFree hb)]
  exact exec_live i _ ((congrArg Block.faultCode h.block).trans hb.1)

theorem Ready.step_lineSet {s : State} {b : Block} {acts : List Input} {l : SetLine} {v : Bool}
    (h : Ready s b (sendCommand (.lineSet l v) :: acts)) (hb : Willing b) :
    ∃ u, step s = .next u ∧ Ready u (setOutReg b (outLineOf l) v) acts :=
  ⟨_, h.step_command hb rfl, h.waiting, congrArg (setOutReg · (outLineOf l) v) h.block, rfl⟩

theorem Ready.step_clkCycle {s : State} {b : Block} {acts : List Input} {n : BitVec 16}
    (h : Ready s b (sendCommand (.clkCycle n) :: acts)) (hb : Willing b) :
    ∃ u, step s = .next u ∧ Ready u { b with clkOut := false, clockMode := .singleStep } acts := by
  have hfree : Machine.isFree { s with inputs := acts } = false := h.isFree hb
  have hbody : commandBody (.clkCycle n) { s with inputs := acts } = _ := if_neg (Bool.eq_false_iff.1 hfree)
  refine ⟨_, h.step_command hb rfl, ?_⟩
  rw [hbody, clockPairs_setClk_low n.toNat _ hfree]
  exact ⟨h.waiting, congrArg (fun b : Block => { b with clkOut := false, clockMode := .singleStep }) h.block, rfl⟩

/-- A store of the memory path leaves the block; an owned one leaves its byte in memory and no other (R160). -/
theorem Ready.step_store {s : State} {b : Block} {acts : List Input} {a : Addr} {v : Byte}
    (h : Ready s b (.memWrite a v :: acts)) :
    ∃ u, step s = .next u ∧ Ready u b acts ∧
      (b.clockMode ≠ .freeRunning → MemoryIsCanonical s → b.ownership = .supervisorOwned →
        MemoryIsCanonical u ∧ ∀ c, Memory.read u.world.mem c = if c = a then v else Memory.read s.world.mem c) := by
  have hstep := step_memWrite s a v acts h.waiting h.inputs
  refine ⟨_, hstep, ⟨h.waiting, h.block, takeInput_inputs s _ acts h.inputs⟩, fun hmode hcanon hown => ?_⟩
  have hfree : Machine.isFree s = false := by simpa [Machine.isFree, h.block] using hmode
  obtain ⟨hwrite, -⟩ := memoryPathKeepsItsContract s acts a h.waiting hcanon (by rw [h.block]; exact hown)
  obtain ⟨u, hu, -, -, hread⟩ := hwrite v h.inputs
  obtain rfl := Host.Outcome.next.inj (hstep.symm.trans hu)
  rw [stirs_of_clocked false s hfree] at hread
  exact ⟨everyStepKeepsMemoryCanonical s _ hcanon hstep, hread⟩

/-! ### CPU_RESET -/

/-- With another target than the default vector the sequence is the jump's three stores, then that of the default
vector (R162). -/
theorem cpuReset_eq (target : Addr) (h : target ≠ defaultVector) :
    cpuReset target = installJump target ++ cpuReset defaultVector := by
  rw [cpuReset, if_neg h, List.append_assoc]
  rfl

/-- The high byte of an address (R42). -/
theorem extractLsb'_high (a : Addr) : a.extractLsb' 8 8 = (a >>> 8).setWidth 8 := by
  apply BitVec.eq_of_getLsbD_eq
  intro j hj
  simp [hj, Nat.add_comm]

/-- The stores of the jump leave the block; owned, they leave the three bytes of the jump in memory and no other
(R68, R162). -/
theorem Ready.installJump {s : State} {b : Block} {acts : List Input} {target : Addr}
    (h : Ready s b (installJump target ++ acts)) :
    ∃ t, Reaches s 3 t ∧ Ready t b acts ∧
      (b.clockMode ≠ .freeRunning → MemoryIsCanonical s → b.ownership = .supervisorOwned →
        ∀ c, Memory.read t.world.mem c =
          if c = 0 then 0xC3 else if c = 1 then target.setWidth 8
          else if c = 2 then (target >>> 8).setWidth 8 else Memory.read s.world.mem c) := by
  have h : Ready s b (.memWrite 0 0xC3 :: .memWrite 1 (target.extractLsb' 0 8) ::
      .memWrite 2 (target.extractLsb' 8 8) :: acts) := h
  obtain ⟨u₁, hs₁, h₁, hmem₁⟩ := h.step_store
  obtain ⟨u₂, hs₂, h₂, hmem₂⟩ := h₁.step_store
  obtain ⟨u₃, hs₃, h₃, hmem₃⟩ := h₂.step_store
  refine ⟨u₃, (reaches_succ hs₁).2 ((reaches_succ hs₂).2 ((reaches_succ hs₃).2 rfl)), h₃, fun hmode hcanon hown c => ?_⟩
  obtain ⟨hcanon₁, hread₁⟩ := hmem₁ hmode hcanon hown
  obtain ⟨hcanon₂, hread₂⟩ := hmem₂ hmode hcanon₁ hown
  obtain ⟨-, hread₃⟩ := hmem₃ hmode hcanon₂ hown
  have hlow : target.extractLsb' 0 8 = target.setWidth 8 := portOf_eq_setWidth target
  rw [hread₃, hread₂, hread₁, hlow, extractLsb'_high]
  by_cases h0 : c = 0
  · subst h0; rfl
  · by_cases h1 : c = 1
    · subst h1; rfl
    · simp only [h0, h1, if_false]

/-- The commands of the sequence: the reset pulse around three clock cycles, then the pulse on `ioack` (R161, R162). -/
theorem Ready.cpuReset_default {s : State} {b : Block} {acts : List Input}
    (h : Ready s b (cpuReset defaultVector ++ acts)) (hb : Willing b) :
    ∃ t, Reaches s 5 t ∧
      Ready t { b with resetOut := false, ioackOut := false, clkOut := false, clockMode := .singleStep } acts := by
  have h : Ready s b (sendCommand (.lineSet .reset true) :: sendCommand (.clkCycle resetCycles) ::
      sendCommand (.lineSet .reset false) :: sendCommand (.lineSet .ioack true) ::
      sendCommand (.lineSet .ioack false) :: acts) := h
  obtain ⟨u₁, hs₁, h₁⟩ := h.step_lineSet hb
  obtain ⟨u₂, hs₂, h₂⟩ := h₁.step_clkCycle hb
  obtain ⟨u₃, hs₃, h₃⟩ := h₂.step_lineSet ⟨hb.1, nofun⟩
  obtain ⟨u₄, hs₄, h₄⟩ := h₃.step_lineSet ⟨hb.1, nofun⟩
  obtain ⟨u₅, hs₅, h₅⟩ := h₄.step_lineSet ⟨hb.1, nofun⟩
  exact ⟨u₅, (reaches_succ hs₁).2 ((reaches_succ hs₂).2 ((reaches_succ hs₃).2 ((reaches_succ hs₄).2
    ((reaches_succ hs₅).2 rfl)))), h₅⟩

/-- Settles O56: the three stores stand first, and without them the sequence is five words. -/
theorem cpuResetInstallsTheJumpFirst : Obligations.CpuResetInstallsTheJumpFirst := by
  refine ⟨fun s target htarget hw hcanon hown hfree => ?_, ?_⟩
  · have hready : Ready (s.withActs (cpuReset target)) s.block
        (installJump target ++ (cpuReset defaultVector ++ s.inputs)) :=
      ⟨hw, rfl, by rw [State.withActs, cpuReset_eq target htarget, List.append_assoc]⟩
    obtain ⟨t, hreach, ht, hread⟩ := hready.installJump
    exact ⟨t, hreach, ht.block, ht.inputs, hread (by simpa [isFree] using hfree) hcanon hown⟩
  · intro act hact
    have hact : act ∈ [Instr.lineSet .reset true, .clkCycle resetCycles, .lineSet .reset false, .lineSet .ioack true,
      .lineSet .ioack false].map sendCommand := hact
    obtain ⟨i, -, rfl⟩ := List.mem_map.1 hact
    exact ⟨i, rfl⟩

/-- Settles O57: the stores, if any, leave the block, and then the five commands run. -/
theorem cpuResetChangesOnlyItsRegisters : Obligations.CpuResetChangesOnlyItsRegisters := by
  intro s target hlive hw hfree
  have hb : Willing s.block := ⟨hlive, by simpa [isFree] using hfree⟩
  have hend {n : Nat} (h : ∃ t, Reaches (s.withActs (cpuReset target)) n t ∧
      Ready t { s.block with resetOut := false, ioackOut := false, clkOut := false, clockMode := .singleStep } s.inputs)
      (hn : n = (cpuReset target).length) : ∃ t, Reaches (s.withActs (cpuReset target)) (cpuReset target).length t ∧
        t.block = { s.block with resetOut := false, ioackOut := false, clkOut := false, clockMode := .singleStep } ∧
        t.inputs = s.inputs ∧ t.waiting = none := by
    obtain ⟨t, hreach, ht⟩ := h
    exact ⟨t, hn ▸ hreach, ht.block, ht.inputs, ht.waiting⟩
  by_cases htarget : target = defaultVector
  · subst htarget
    have hready : Ready (s.withActs (cpuReset defaultVector)) s.block (cpuReset defaultVector ++ s.inputs) :=
      ⟨hw, rfl, rfl⟩
    exact hend (hready.cpuReset_default hb) rfl
  · have hready : Ready (s.withActs (cpuReset target)) s.block
        (installJump target ++ (cpuReset defaultVector ++ s.inputs)) :=
      ⟨hw, rfl, by rw [State.withActs, cpuReset_eq target htarget, List.append_assoc]⟩
    obtain ⟨u, hreach, hu, -⟩ := hready.installJump
    obtain ⟨t, hreach', ht⟩ := hu.cpuReset_default hb
    exact hend ⟨t, reaches_trans hreach hreach', ht⟩ (by rw [cpuReset_eq target htarget]; rfl)

/-! ### TRACE -/

/-- Settles O58: the snapshot of the first SAMPLE has `halt` in bit 8, and a trace at its start has no other reason. -/
theorem haltEndsTheTraceAtOnce : Obligations.HaltEndsTheTraceAtOnce := by
  intro s limit hlive hw hhalt
  have hstep : step (s.withActs [sendCommand .sample]) = .next (commandBody .sample (settle false s)) :=
    (step_sendCommand .sample s hw rfl).trans (exec_live .sample (settle false s) hlive)
  obtain ⟨-, -, -, -, -, -, -, -, hbit, -⟩ := packedSnapshotHasItsBits (sample (settle false s))
  have hbit8 : (packStatus (sample (settle false s))).getLsbD 8 = true := hbit.trans hhalt
  have hreached : (Trace.start limit).reached = false := by simp [Trace.reached, Trace.start]
  have htest : traceTest (Trace.start limit) s =
      traceSampled (Trace.start limit) true (commandBody .sample (settle false s)) := by
    rw [traceTest, issue, hstep, ← hbit8]
    rfl
  rw [traceStep_testing (Trace.start limit) s hw rfl, htest, traceSampled_ends _ true _ rfl, hreached]
  exact ⟨_, rfl⟩

end Sys2Proof.Machine
end
